-- ==== Sys2Proof/Word.lean ====
section
/-! DEFINITION. The widths of the block: a byte, a bus word, and a PhaseValue (00 R6, 30 R124). -/

namespace Sys2Proof

/-- One byte of a memory region. -/
abbrev Byte := BitVec 8

/-- A bus word: every register and every transaction is 32 bits wide (10 R33, 20 R82). -/
abbrev Word := BitVec 32

/-- A PhaseValue: an element of the ring of integers mod 2^32, the fraction `p / 2^32` of one turn (40 R160, 30 R124). -/
abbrev Phase := BitVec 32

end Sys2Proof
end

