-- ==== Sys2Proof/Config.lean ====
section
/-! DEFINITION. What an implementation fixes, and the values the spec leaves open (93 section 1). -/

namespace Sys2Proof.Config

/-- The size parameters of 00 R7, as the CFG registers show them (10 R44; log 6). -/
structure Params where
  tableDepth : Word
  maxPixels : Word
  maxLanes : Word
deriving DecidableEq, Repr

/-- The spec's defaults (00 R7). -/
def defaults : Params :=
  { tableDepth := 65536#32, maxPixels := 4194304#32, maxLanes := 16#32 }

/-- The build's sine tolerance, before it is known to be positive (00 R8, 93 U2: a parameter). A free real: nothing is
known of it. Log 5, safe. -/
opaque sineTolerance : ℝ

/-- The error of the build's sine at a phase, before it is held within the bounds of 41 R191 (93 U1: a parameter).
A free real at each phase: nothing is known of it. Log 3, safe. -/
opaque sineError : BitVec 32 → ℝ

/-- The byte that reset number `n` draws for the memory byte at bus address `a` (70 R421, 93 U4: any value, one draw per
byte at reset). A free value. Log 1, safe. -/
opaque ramAtReset : (n a : Nat) → BitVec 8

/-- The word that the `n`-th unspecified read returns (20 R91, 93 U5 and U6: a fresh draw per read). A free value.
Log 2, safe. -/
opaque unspecifiedRead : (n : Nat) → BitVec 32

end Sys2Proof.Config
end

