-- ==== Sys2Proof/Syntax.lean ====
section
/-! DEFINITION. What can be written to the block: its four commands, the host's operations, and the names of the
registers and table fields of the address map. -/

namespace Sys2Proof

/-- The commands, one constructor per row of the opcode table (30 R121). No command has an operand field (30 R123). -/
inductive Instr where
  /-- 0x00, 45 R321. -/
  | nop
  /-- 0x01, 44 R283. -/
  | preint
  /-- 0x02, 45 R322. -/
  | render
  /-- 0x03, 45 R333. -/
  | advance
deriving DecidableEq, Repr

/-- The OPCODE field of a command (30 R121). -/
def Instr.opcode : Instr → BitVec 8
  | .nop => 0x00#8
  | .preint => 0x01#8
  | .render => 0x02#8
  | .advance => 0x03#8

namespace Machine

/-- What the host does, in program order (20 R82, R88; 30 R131; 70 R425). No width but 32 bits exists. -/
inductive HostOp where
  /-- `MemRead(addr, 4)`. -/
  | read (addr : Word)
  /-- `MemWrite(addr, 4, v)`. -/
  | write (addr v : Word)
  /-- `WAIT`: read STATUS again and again until its bit 0 reads 0. -/
  | wait
  /-- Read STATUS once, and stop if it shows HALTED (70 R425). -/
  | stopIfHalted
deriving DecidableEq, Repr

/-- What a transaction returns (20 R82). -/
inductive BusReply where
  /-- `OK(v)` of a read. -/
  | data (v : Word)
  /-- `OK` of a write. -/
  | ok
  /-- The response to a misaligned or unmapped access, or a write to a read-only region (20 R83, R86). -/
  | busErr
deriving DecidableEq, Repr

/-- The named registers, in the order of their offsets (10 R33). -/
inductive Reg where
  | cmd | status | hTotal | vTotal | hDisplay | vDisplay | vsyncHz
  | dotclockLo | dotclockHi | framePixels | threads | mode
  | osc0Ctrl | osc0Ppp | osc0Start | osc1Ctrl | osc1Ppp | osc1Start
  | sampleRate | pcmFormat | sampleCount | fmDevPpp | fmDevScale | fmSeed
  | errCode | errIndex | errSample | cfgTableDepth | cfgMaxPixels | cfgMaxLanes
deriving DecidableEq, Repr

/-- The access types of registers (10 R34). RAZ/WI offsets have no `Reg`. -/
inductive Access where
  | rw | ro | wo | w1c
deriving DecidableEq, Repr

/-- The four fields of an integrated-table entry (30 R125). -/
inductive TblField where
  | raw | inc | cum | start
deriving DecidableEq, Repr

/-- What a host address names (20 R80, R83, R86, R87). -/
inductive Target where
  /-- `addr[1:0]` is not 0. -/
  | misaligned
  /-- Outside every region. -/
  | unmapped
  /-- A named register. -/
  | reg (r : Reg)
  /-- An offset of the register block that names no register. -/
  | reserved
  /-- The word at byte offset `o` of sample RAM. -/
  | sram (o : Nat)
  /-- Field `f` of entry `k` of the table window. -/
  | tbl (k : Nat) (f : TblField)
  /-- Pixel word `v` of the frame buffer. -/
  | fb (v : Nat)
deriving DecidableEq, Repr

/-- The waveforms (10 R39). -/
inductive Wave where
  | sine | square
deriving DecidableEq, Repr

/-- The signal sources that `MODE.SRC` names; 5 to 7 are reserved and name none (10 R38). -/
inductive Source where
  | carrier | info | pcm | am | fm
deriving DecidableEq, Repr

/-- The PCM encodings that `PCM_FORMAT.FMT` names (10 R40). -/
inductive PcmFormat where
  | u8 | s16le
deriving DecidableEq, Repr

/-- The error codes other than NONE: these four and no other, none of them for an error of the host's loader (60 R380, R390). -/
inductive ErrorCode where
  | cmd | config | seq | range
deriving DecidableEq, Repr

end Machine

end Sys2Proof
end

