-- ==== Sys2Proof/WellFormed.lean ====
section
/-! DEFINITION. Which command words and which size parameters are legal. A command has no operand (30 R123), so every
`Instr` is legal; the checks that can fail are on words and on parameters. -/

namespace Sys2Proof

/-- A command's opcode is one the opcode map gives (30 R121). It holds of every `Instr`, which has no field to go wrong. -/
def Instr.wellFormed (i : Instr) : Bool := i.opcode.toNat < 4

/-- RSVD, bits 31 to 8 of a command word, is 0 (30 R121). -/
def reservedClear (w : Word) : Bool := w.extractLsb' 8 24 == 0#24

/-- OPCODE, bits 7 to 0 of a command word, is one of the four commands (30 R121, R129). -/
def opcodeKnown (w : Word) : Bool := (w.extractLsb' 0 8).toNat < 4

/-- A legal command word (30 R129). -/
def commandWordOk (w : Word) : Bool := reservedClear w && opcodeKnown w

/-- Each region fits its window of the address map (00 R7). -/
def paramsOk (p : Config.Params) : Bool :=
  2 * p.tableDepth.toNat ≤ 2 ^ 20 && 16 * p.tableDepth.toNat ≤ 2 ^ 20 && 4 * p.maxPixels.toNat ≤ 2 ^ 24

end Sys2Proof
end

