-- ==== Sys2Proof/Decode.lean ====
section
/-! DEFINITION. The command decoder, total over all 2^32 words (30 R122), and the encoder. -/

namespace Sys2Proof

/-- Why a word is no command. Both reasons raise the same command error (30 R122, 60 R381). -/
inductive DecodeError where
  /-- RSVD is not 0. -/
  | reservedBits
  /-- OPCODE is in 0x04 to 0xFF. -/
  | reservedOpcode
deriving DecidableEq, Repr

/-- The command an OPCODE field selects (30 R121). -/
def decodeOpcode (op : BitVec 8) : Option Instr :=
  match op.toNat with
  | 0 => some .nop
  | 1 => some .preint
  | 2 => some .render
  | 3 => some .advance
  | _ => none

/-- The decoder of 30 R122: RSVD is checked first, then OPCODE selects the command. -/
def decode (w : Word) : Except DecodeError Instr :=
  if w.extractLsb' 8 24 ≠ 0#24 then .error .reservedBits
  else
    match decodeOpcode (w.extractLsb' 0 8) with
    | some i => .ok i
    | none => .error .reservedOpcode

/-- The word of a command: its opcode in bits 7 to 0 and RSVD 0 (30 R121). -/
def encode (i : Instr) : Word := 0#24 ++ i.opcode

/-- The instruction the decoder reads from the low `nbits` bits of `w`, the bits above them 0. A command is one bus word,
so its bits are the table's as they stand. -/
def decodeTableWord (nbits w : Nat) : Option Instr :=
  match decode (BitVec.ofNat 32 (w % 2 ^ nbits)) with
  | .ok i => some i
  | .error _ => none

end Sys2Proof
end

