-- ==== Sys2Proof/Machine/State.lean ====
section
/-! DEFINITION. The state of the block and of its surroundings, as plain data, and the state after reset. -/

namespace Sys2Proof.Machine

/-- One oscillator's registers: `OSCn_CTRL.WAVE`, `OSCn_PPP` and `OSCn_START` (10 R41). -/
structure Osc where
  wave : BitVec 1
  ppp : Phase
  start : Phase
deriving DecidableEq, Repr

/-- The stored fields of the register block, each at its field's width (10 R33, 00 R9). DOTCLOCK, FRAME_PIXELS and
STATUS are computed where they are read (10 R36, R37). -/
structure Regs where
  hTotal : BitVec 16
  vTotal : BitVec 16
  hDisplay : BitVec 16
  vDisplay : BitVec 16
  vsyncHz : BitVec 16
  threads : BitVec 8
  src : BitVec 3
  amInfo : BitVec 1
  osc0 : Osc
  osc1 : Osc
  sampleRate : Word
  pcmFormat : BitVec 1
  sampleCount : BitVec 17
  fmDevPpp : Phase
  fmDevScale : Word
  fmSeed : Phase
  errCode : BitVec 4
  errIndex : Word
  errSample : Word
  cfg : Config.Params
deriving DecidableEq, Repr

/-- A worker's report (10 R48). -/
inductive Report where
  | running
  | done
  /-- The lookup at total index `t` needed sample `k`, which is not in the window. -/
  | failed (t k : Nat)
deriving DecidableEq, Repr

/-- A worker of a RENDER: its chunk `[lo, hi)`, the gray bytes it has made so far in visible-index order, and its
report (10 R48). Its ordinal is its place in the controller's list; the visible index it is at is `lo + buf.length`. -/
structure Worker where
  lo : Nat
  hi : Nat
  buf : List Byte
  report : Report
deriving DecidableEq, Repr

/-- The controller state (10 R32) with the progress of the command it is in. -/
inductive Ctrl where
  | idle
  | dispatching
  /-- The workers, in ordinal order. -/
  | collecting (ws : List Worker)
  /-- The workers' buffers, in ordinal order (45 R327). -/
  | composing (bufs : List (List Byte))
  /-- The next entry to build and the cumulative phase at its window start (44 R283). -/
  | preintegrating (k : Nat) (c : Phase)
  | advancing
  | halted
deriving DecidableEq, Repr

/-- Which agent moves (00 R15, 93 U7 and U8; log 8). -/
inductive Move where
  /-- The host performs its next operation; a command it starts then runs on as controller and worker moves. -/
  | host
  /-- The host performs its next operation, and a command it starts runs to IDLE or HALTED before any other agent moves
  (45 R331). -/
  | hostRun
  /-- The controller takes one step. -/
  | controller
  /-- The worker with this ordinal takes one step. -/
  | worker (ordinal : Nat)
  /-- The reset input is asserted (70 R420). -/
  | reset
deriving DecidableEq, Repr

/-- The whole machine. `regs` to `mem` are the block; the rest is the model's own: the draws of unspecified values
(log 1, 2), the host's pending operations and what it has been answered (log 7), and the schedule (log 8). The block has no
state for an error of the host's loader (43 R258, 60 R390), nor for an interrupt, a privilege level, a timer or counter, another
device, or debugging and power (60 R391 to R394, R396). -/
@[ext]
structure State where
  regs : Regs
  ctrl : Ctrl
  /-- STATUS.TABLE_VALID (44 R289). -/
  tableValid : Bool
  /-- STATUS.BUSY_WRITE (20 R90). -/
  busyWrite : Bool
  /-- STATUS.CMD_REJECT (45 R320). -/
  cmdReject : Bool
  /-- The bytes of SRAM, TBL and FB written since reset, by bus address, addresses strictly rising. -/
  mem : List Host.Cell
  /-- Which reset's draw the unwritten bytes hold. -/
  resets : Nat
  /-- How many unspecified reads have happened. -/
  draws : Nat
  /-- The host's pending operations, in program order. -/
  ops : List HostOp
  /-- The bus's answers so far, the newest first. -/
  replies : List BusReply
  /-- Who moves next, as far as it is laid down. -/
  moves : List Move
deriving DecidableEq, Repr

/-- Why a step could stop with a fault. There is no constructor: the spec describes no way for a transaction or a command
to stop the machine. Every error is the state HALTED, which the model enters as a next state (60 R385), and a bad access
is the bus response BUSERR (60 R389). Log 13. -/
inductive Fault where
deriving DecidableEq, Repr

/-- Why a step could be refused. -/
inductive Refusal where
  /-- Raised only by an arm of `exec` whose command has no meaning yet; none is left. Safe: nothing can be concluded. -/
  | notModelled (mnemonic : String)
deriving DecidableEq, Repr

/-- The register fields after reset: 0, but for the CFG constants (70 R420). -/
def Regs.reset (cfg : Config.Params) : Regs :=
  { hTotal := 0, vTotal := 0, hDisplay := 0, vDisplay := 0, vsyncHz := 0, threads := 0, src := 0, amInfo := 0
    osc0 := { wave := 0, ppp := 0, start := 0 }, osc1 := { wave := 0, ppp := 0, start := 0 }
    sampleRate := 0, pcmFormat := 0, sampleCount := 0, fmDevPpp := 0, fmDevScale := 0, fmSeed := 0
    errCode := 0, errIndex := 0, errSample := 0, cfg := cfg }

/-- The machine right after its first reset, at the default parameters, with nothing placed by the host (70 R420, R421). -/
def State.reset : State :=
  { regs := Regs.reset Config.defaults, ctrl := .idle, tableValid := false, busyWrite := false, cmdReject := false
    mem := [], resets := 0, draws := 0, ops := [], replies := [], moves := [] }

end Sys2Proof.Machine
end

