-- ==== Sys2Proof/Machine/Memory.lean ====
section
/-! DEFINITION. The sparse store behind SRAM, TBL and FB: the bytes written since reset, by bus address. An address that
is not listed has no stored byte; what a read of it returns is the reset's draw (Machine/Ops.lean, 70 R421, log 1). -/

namespace Sys2Proof.Machine

/-- The canonical form: addresses strictly rising. No entry equals what an unlisted address holds, since an unlisted
address holds no stored byte. -/
abbrev Memory.wf (m : List Host.Cell) : Prop := m.Pairwise fun x y => x.1 < y.1

/-- The byte stored at an address, if one has been written since reset. -/
def Memory.find (m : List Host.Cell) (a : Nat) : Option Byte :=
  (m.find? fun c => c.1 == a).map Prod.snd

/-- Bytes at consecutive addresses from `a`. -/
def Memory.cells (a : Nat) : List Byte → List Host.Cell
  | [] => []
  | b :: bs => (a, b) :: Memory.cells (a + 1) bs

/-- Store `bs` at the addresses from `a` on, in place of whatever stood there. -/
def Memory.writeRun (m : List Host.Cell) (a : Nat) (bs : List Byte) : List Host.Cell :=
  m.filter (fun c => c.1 < a) ++ Memory.cells a bs ++ m.filter (fun c => a + bs.length ≤ c.1)

end Sys2Proof.Machine
end

