-- ==== Sys2Proof/Machine/Ops.lean ====
section
/-! DEFINITION. The operations every command and transaction shares: bytes and words of the memories, entering HALTED,
accepting or dropping a command, reset. -/

namespace Sys2Proof.Machine

/-! ## Bytes and words -/

/-- The base addresses of the regions (20 R80). -/
def sramBase : Nat := 0x00100000
def tblBase : Nat := 0x00200000
def fbBase : Nat := 0x01000000

/-- The bytes of a word in address order: bits `[8*i+7 : 8*i]` at address `a + i` (20 R84). -/
def wordBytes (v : Word) : List Byte :=
  [v.extractLsb' 0 8, v.extractLsb' 8 8, v.extractLsb' 16 8, v.extractLsb' 24 8]

/-- The byte a memory holds at a bus address: the one written last, or the reset's draw (70 R421). -/
def State.byte (s : State) (a : Nat) : Byte :=
  (Memory.find s.mem a).getD (Config.ramAtReset s.resets a)

/-- The word at a bus address, little-endian (20 R84). -/
def State.word (s : State) (a : Nat) : Word :=
  s.byte (a + 3) ++ s.byte (a + 2) ++ s.byte (a + 1) ++ s.byte a

/-- Store bytes at a bus address and the addresses after it. -/
def State.storeBytes (s : State) (a : Nat) (bs : List Byte) : State :=
  { s with mem := Memory.writeRun s.mem a bs }

/-- Byte `o` of sample RAM (20 R85). -/
def State.sramByte (s : State) (o : Nat) : Byte := s.byte (sramBase + o)

/-! ## The controller state (10 R32, R37) -/

/-- The code of the controller state in STATUS[3:1] (10 R32). -/
def Ctrl.code : Ctrl → BitVec 3
  | .idle => 0
  | .dispatching => 1
  | .collecting _ => 2
  | .composing _ => 3
  | .preintegrating _ _ => 4
  | .advancing => 5
  | .halted => 7

/-- BUSY is 1 iff STATE is 1 to 5 (10 R37). -/
def Ctrl.busy : Ctrl → Bool
  | .idle | .halted => false
  | .dispatching | .collecting _ | .composing _ | .preintegrating _ _ | .advancing => true

/-- HALTED is 1 iff STATE is 7 (10 R37). -/
def Ctrl.isHalted : Ctrl → Bool
  | .halted => true
  | .idle | .dispatching | .collecting _ | .composing _ | .preintegrating _ _ | .advancing => false

/-- A RENDER is in DISPATCHING, COLLECTING or COMPOSING (20 R91). -/
def Ctrl.rendering : Ctrl → Bool
  | .dispatching | .collecting _ | .composing _ => true
  | .idle | .preintegrating _ _ | .advancing | .halted => false

/-- A PREINT is in PREINTEGRATING (20 R91). -/
def Ctrl.preintegratingNow : Ctrl → Bool
  | .preintegrating _ _ => true
  | .idle | .dispatching | .collecting _ | .composing _ | .advancing | .halted => false

/-- Put the controller in a state (00 R13, `state <- S`). -/
def State.setCtrl (c : Ctrl) (s : State) : State := { s with ctrl := c }

/-- Set or clear TABLE_VALID (44 R289). -/
def State.setTableValid (b : Bool) (s : State) : State := { s with tableValid := b }

/-! ## Errors (60 R380, R385) -/

/-- The value ERR_CODE gets (60 R380). -/
def ErrorCode.toBits : ErrorCode → BitVec 4
  | .cmd => 1
  | .config => 2
  | .seq => 3
  | .range => 4

/-- `raise Error(code, index, sample)`: write the error registers, discard the workers and enter HALTED; nothing else
changes (60 R385). This is the block's one way of taking an exception. -/
def raiseError (code : ErrorCode) (index sample : Word) (s : State) : State :=
  { s with
    regs := { s.regs with errCode := code.toBits, errIndex := index, errSample := sample }
    ctrl := .halted }

/-- The word ERR_SAMPLE gets for sample index `k`: `min(k, 2^32 - 1)` (60 R384). -/
def sampleWord (k : Nat) : Word := BitVec.ofNat 32 (min k (2 ^ 32 - 1))

/-- A RANGE error for a lookup at total index `t` that needed sample `k` (60 R384). -/
def raiseRange (t k : Nat) (s : State) : State :=
  raiseError .range (BitVec.ofNat 32 t) (sampleWord k) s

/-! ## Command acceptance (45 R320) -/

/-- A command reaches the block: it is dropped with CMD_REJECT while BUSY or HALTED, and otherwise runs (45 R320,
60 R386). -/
def accept (run : State → State) (s : State) : State :=
  if s.ctrl.busy || s.ctrl.isHalted then { s with cmdReject := true } else run s

/-- A word that is no command is a command error when it is accepted (60 R381). -/
def illegalCommand (w : Word) (s : State) : State := accept (raiseError .cmd w 0) s

/-! ## Reset (70 R420, R421) -/

/-- The reset input: every register field takes its reset value, any command and its workers are gone, and the memories
hold a fresh draw. There is no other way out of HALTED (60 R387). The host's side is untouched (log 12). -/
def resetBlock (s : State) : State :=
  { s with
    regs := Regs.reset s.regs.cfg
    ctrl := .idle
    tableValid := false
    busyWrite := false
    cmdReject := false
    mem := []
    resets := s.resets + 1 }

end Sys2Proof.Machine
end

