-- ==== Sys2Proof/Machine/Flags.lean ====
section
/-! DEFINITION. The STATUS register: its word, its write-one-to-clear bits, and which writes clear TABLE_VALID
(10 R33, R37; 44 R289). -/

namespace Sys2Proof.Machine

/-- STATUS as a read returns it: BUSY [0], STATE [3:1], TABLE_VALID [4], HALTED [5], BUSY_WRITE [8], CMD_REJECT [9], the
rest 0 (10 R33). No bit is for an error of the host's loader (43 R258). -/
def statusWord (s : State) : Word :=
  0#22 ++ BitVec.ofBool s.cmdReject ++ BitVec.ofBool s.busyWrite ++ 0#2 ++ BitVec.ofBool s.ctrl.isHalted
    ++ BitVec.ofBool s.tableValid ++ s.ctrl.code ++ BitVec.ofBool s.ctrl.busy

/-- A write to STATUS: a 1 in bit 8 clears BUSY_WRITE and a 1 in bit 9 clears CMD_REJECT, in every state (10 R34). -/
def writeStatus (v : Word) (s : State) : State :=
  { s with
    busyWrite := s.busyWrite && !v.getLsbD 8
    cmdReject := s.cmdReject && !v.getLsbD 9 }

/-- The registers whose accepted write clears TABLE_VALID: the inputs of PREINT (44 R289). -/
def Reg.clearsTable : Reg → Bool
  | .hTotal | .vTotal | .vsyncHz | .sampleRate | .pcmFormat | .sampleCount | .fmDevPpp | .fmSeed => true
  | .cmd | .status | .hDisplay | .vDisplay | .dotclockLo | .dotclockHi | .framePixels | .threads | .mode
  | .osc0Ctrl | .osc0Ppp | .osc0Start | .osc1Ctrl | .osc1Ppp | .osc1Start | .fmDevScale
  | .errCode | .errIndex | .errSample | .cfgTableDepth | .cfgMaxPixels | .cfgMaxLanes => false

end Sys2Proof.Machine
end

