-- ==== Sys2Proof/Machine/ExactReal.lean ====
section
/-! DEFINITION. Exact real numbers, which amplitudes and numbers of turns are (00 R12; 40 R163), and the few operations the rules
apply to them. -/

namespace Sys2Proof.Machine

/-- A value with the property `p`. Every use names a property that one value has, so the value is that one: the floor or the
sine of a real number, which no program computes. Written as a call of itself, it is a value of the logic that evaluation does
not reach (log 4). -/
def valueOf {α : Type} (p : α → Prop) [Nonempty {x // p x}] : {x // p x} := valueOf p
partial_fixpoint

/-- The floor of a real number. -/
def realFloor (x : ℝ) : ℤ := (valueOf (· = ⌊x⌋)).val

/-- A real number: an amplitude, or a number of turns. One that the rules compute from rationals is held as a rational, so that
what depends on it can be evaluated; `val` is the number either way (00 R12; 40 R163; log 4). -/
inductive ExactReal where
  | ofRat (q : ℚ)
  | ofReal (x : ℝ)

/-- The real number. -/
def ExactReal.val : ExactReal → ℝ
  | .ofRat q => (q : ℝ)
  | .ofReal x => x

/-- The exact product. -/
def ExactReal.mul : ExactReal → ExactReal → ExactReal
  | .ofRat p, .ofRat q => .ofRat (p * q)
  | .ofRat p, .ofReal y => .ofReal (p * y)
  | .ofReal x, .ofRat q => .ofReal (x * q)
  | .ofReal x, .ofReal y => .ofReal (x * y)

/-- `m*a + c`, exactly. -/
def ExactReal.affine (m c : ℚ) : ExactReal → ExactReal
  | .ofRat q => .ofRat (m * q + c)
  | .ofReal x => .ofReal (m * x + c)

/-- The floor. -/
def ExactReal.floor : ExactReal → ℤ
  | .ofRat q => ⌊q⌋
  | .ofReal x => realFloor x

end Sys2Proof.Machine
end

