-- ==== Sys2Proof/Machine/Phase.lean ====
section
/-! DEFINITION. The PhaseValue datapath and the phase accumulators (spec/40_phase.md). -/

namespace Sys2Proof.Machine

/-- Phase superposition (40 R161). -/
def padd (a b : Phase) : Phase := a + b

/-- Multiplication by an integer of any sign and size, the product exact before it wraps (40 R162). -/
def pscale (p : Phase) (n : Int) : Phase := BitVec.ofInt 32 ((p.toNat : Int) * n)

/-- The PhaseValue nearest to an exact real number of turns, ties upward, then wrapped: `floor(f * 2^32 + 1/2) mod 2^32`
(40 R163). -/
def fromFraction (f : ExactReal) : Phase := BitVec.ofInt 32 (f.affine (2 ^ 32) (1 / 2)).floor

/-- A PhaseValue as a fraction of a turn, an exact rational in [0, 1) (40 R164). -/
def toFraction (p : Phase) : ℚ := (p.toNat : ℚ) / 2 ^ 32

/-- The phase of an oscillator at a total index, computed from the index itself (40 R166). -/
def oscPhase (o : Osc) (t : Nat) : Phase := padd o.start (pscale o.ppp t)

/-- The starting angle after a frame of `c` pixels (41 R195). -/
def oscNextStart (o : Osc) (c : Nat) : Phase := padd o.start (pscale o.ppp c)

end Sys2Proof.Machine
end

