-- ==== Sys2Proof/Machine/Waveform.lean ====
section
/-! DEFINITION. The waveform generators and the oscillators (spec/41_waveform.md). Amplitudes are exact real
numbers (00 R12). -/

namespace Sys2Proof.Machine

/-- +1 in the first half turn, -1 in the second (41 R190). -/
def square (p : Phase) : ℚ := if p.toNat < 0x80000000 then 1 else -1

/-! ## The sine (41 R191; log 3)

The build's sine is free within the bounds S1 to S3: the true sine plus a free error, held to them. -/

/-- `SIN_TOL`: a positive tolerance, the spec's default 2^-20 if the build names no positive one (00 R8; log 5). -/
def sinTol : ℝ := (valueOf (· = if 0 < Config.sineTolerance then Config.sineTolerance else 1 / 2 ^ 20)).val

/-- `sin(2*pi*TO_FRACTION(p))`, the ideal that `sinImpl` is held to (41 R191 S3). -/
def trueSine (p : Phase) : ℝ := (valueOf (· = Real.sin (2 * Real.pi * (p.toNat : ℝ) / 2 ^ 32))).val

/-- Hold a value within `[lo, hi]`. -/
def clampTo (lo hi x : ℝ) : ℝ := max lo (min hi x)

/-- The sine of a build with tolerance `tol` whose error at each phase is `err`, held within the bounds: exact at the
quadrant points (S2), in `[-1, 1]` (S1), and within the tolerance of the true sine (S3). It depends on the phase alone
(S4). -/
def sineOf (tol : ℝ) (err : Phase → ℝ) (p : Phase) : ExactReal :=
  if p = 0x00000000#32 then .ofRat 0
  else if p = 0x40000000#32 then .ofRat 1
  else if p = 0x80000000#32 then .ofRat 0
  else if p = 0xC0000000#32 then .ofRat (-1)
  else .ofReal (clampTo (-1) 1 (trueSine p + clampTo (-tol) tol (err p)))

/-- `sinImpl` (00 R8): the sine with the build's own tolerance and error, which are free. -/
def sinImpl (p : Phase) : ExactReal := sineOf sinTol Config.sineError p

/-- SINE (41 R191). -/
def sine (p : Phase) : ExactReal := sinImpl p

/-- WAVE (41 R192). -/
def wave (sel : Wave) (p : Phase) : ExactReal :=
  match sel with
  | .sine => sine p
  | .square => .ofRat (square p)

/-- `OSCn_CTRL.WAVE`: 0 SINE, 1 SQUARE (10 R39, 30 R128). -/
def waveOf (b : BitVec 1) : Wave := if b = 0#1 then .sine else .square

/-- OSC_SAMPLE (41 R193). -/
def oscSample (o : Osc) (t : Nat) : ExactReal := wave (waveOf o.wave) (oscPhase o t)

/-- OSC_SAMPLE_DEV: the deviation is added to the phase before it is evaluated (41 R194). -/
def oscSampleDev (o : Osc) (t : Nat) (d : Phase) : ExactReal := wave (waveOf o.wave) (padd (oscPhase o t) d)

/-- OSC_NEXT_FRAME: advance the starting angle by a frame of `c` pixels (41 R195). -/
def oscNextFrame (o : Osc) (c : Nat) : Osc := { o with start := oscNextStart o c }

end Sys2Proof.Machine
end

