-- ==== Sys2Proof/Machine/Operands.lean ====
section
/-! DEFINITION. What the commands read: the derived quantities of 00 R14, the register fields as the names they encode,
PCM samples (spec/43_pcm.md), table entries, sample indices and start times (spec/44_preintegrator.md). -/

namespace Sys2Proof.Machine

/-! ## Derived quantities (00 R14) -/

/-- `F = HT*VT`, the pixels of one total frame. -/
def Regs.framePixels (g : Regs) : Nat := g.hTotal.toNat * g.vTotal.toNat

/-- `DC = HT*VT*VS`, the DotClock (10 R36). -/
def Regs.dotClock (g : Regs) : Nat := g.hTotal.toNat * g.vTotal.toNat * g.vsyncHz.toNat

/-- `P = HD*VD`, the visible pixels of one frame. -/
def Regs.visiblePixels (g : Regs) : Nat := g.hDisplay.toNat * g.vDisplay.toNat

/-- `SR`. -/
def Regs.sr (g : Regs) : Nat := g.sampleRate.toNat

/-- `NS`. -/
def Regs.ns (g : Regs) : Nat := g.sampleCount.toNat

/-- TABLE_DEPTH. -/
def Regs.tableDepth (g : Regs) : Nat := g.cfg.tableDepth.toNat

/-- MAX_PIXELS. -/
def Regs.maxPixels (g : Regs) : Nat := g.cfg.maxPixels.toNat

/-- MAX_LANES. -/
def Regs.maxLanes (g : Regs) : Nat := g.cfg.maxLanes.toNat

/-! ## Enumerated fields (30 R128) -/

/-- The source `MODE.SRC` names; 5 to 7 are reserved (10 R38). -/
def sourceOf (b : BitVec 3) : Option Source :=
  match b.toNat with
  | 0 => some .carrier
  | 1 => some .info
  | 2 => some .pcm
  | 3 => some .am
  | 4 => some .fm
  | _ => none

/-- `PCM_FORMAT.FMT`: 0 U8, 1 S16LE (10 R40). -/
def formatOf (b : BitVec 1) : PcmFormat := if b = 0#1 then .u8 else .s16le

/-- USES_PCM (42 R224). -/
def Regs.usesPcm (g : Regs) : Bool :=
  match sourceOf g.src with
  | some .pcm => true
  | some .am => g.amInfo == 1#1
  | some .fm => true
  | _ => false

/-! ## Lookups that can fail -/

/-- What a signal evaluation returns: a value, or the total index and the sample index that was not in the window
(spec/42_modulators.md, opening). -/
inductive Lookup (α : Type) where
  | ok (a : α)
  | fail (t k : Nat)
deriving DecidableEq, Repr

/-- A failure passes through unchanged. -/
def Lookup.map {α β : Type} (f : α → β) : Lookup α → Lookup β
  | .ok a => .ok (f a)
  | .fail t k => .fail t k

/-! ## PCM samples (spec/43_pcm.md) -/

/-- The amplitude of an unsigned 8-bit code, an exact rational (43 R250). -/
def ampU8 (b : Nat) : ℚ := ((b : ℚ) - 128) / 128

/-- The amplitude of a signed 16-bit code, an exact rational (43 R251). -/
def ampS16 (x : Int) : ℚ := (x : ℚ) / 32768

/-- RAW: the code of sample `k` as a 16-bit pattern (43 R252, 20 R85). -/
def rawSample (s : State) (k : Nat) : BitVec 16 :=
  match formatOf s.regs.pcmFormat with
  | .u8 => (s.sramByte k).setWidth 16
  | .s16le => s.sramByte (2 * k + 1) ++ s.sramByte (2 * k)

/-- The amplitude of a code under a format (43 R252). -/
def ampOf (f : PcmFormat) (raw : BitVec 16) : ℚ :=
  match f with
  | .u8 => ampU8 raw.toNat
  | .s16le => ampS16 raw.toInt

/-- AMP: the amplitude of sample `k` (43 R252). -/
def ampSample (s : State) (k : Nat) : ℚ := ampOf (formatOf s.regs.pcmFormat) (rawSample s k)

/-! ## Sample indices and start times (44 R280, R281) -/

/-- SAMPLE_INDEX: the sample that owns total index `t` (44 R280; log 11). -/
def sampleIndex (g : Regs) (t : Nat) : Nat := t * g.sr / g.dotClock

/-- START_TIME: `ceil(k*DC/SR)`, where sample `k`'s window begins (44 R281; log 11). -/
def startTime (g : Regs) (k : Nat) : Nat := (k * g.dotClock + (g.sr - 1)) / g.sr

/-! ## The integrated table (10 R45, 30 R125) -/

/-- One entry of the table. -/
structure TblEntry where
  raw : BitVec 16
  inc : Phase
  cum : Phase
  start : Word
deriving DecidableEq, Repr

/-- The bus address of entry `k` (20 R80). -/
def tblAddr (k : Nat) : Nat := tblBase + 16 * k

/-- Entry `k` as it is stored: RAW is 16 bits wide, the bytes above it do not exist (30 R125). -/
def tblEntry (s : State) (k : Nat) : TblEntry :=
  { raw := s.byte (tblAddr k + 1) ++ s.byte (tblAddr k)
    inc := s.word (tblAddr k + 4)
    cum := s.word (tblAddr k + 8)
    start := s.word (tblAddr k + 12) }

/-- Write entry `k`. -/
def storeEntry (s : State) (k : Nat) (e : TblEntry) : State :=
  (s.storeBytes (tblAddr k) [e.raw.extractLsb' 0 8, e.raw.extractLsb' 8 8]).storeBytes (tblAddr k + 4)
    (wordBytes e.inc ++ wordBytes e.cum ++ wordBytes e.start)

/-- A field of an entry as the table window shows it: RAW reads 0 in bits 31 to 16 (30 R125). -/
def TblEntry.word (e : TblEntry) : TblField → Word
  | .raw => e.raw.setWidth 32
  | .inc => e.inc
  | .cum => e.cum
  | .start => e.start

end Sys2Proof.Machine
end

