-- ==== Sys2Proof/Machine/Registers.lean ====
section
/-! DEFINITION. The register block: offsets, access types, and how a word is assembled from fields and taken apart into
them (10 R33 to R36). -/

namespace Sys2Proof.Machine

/-- The byte offset of a register (10 R33). -/
def Reg.offset : Reg → Nat
  | .cmd => 0x000
  | .status => 0x004
  | .hTotal => 0x008
  | .vTotal => 0x00C
  | .hDisplay => 0x010
  | .vDisplay => 0x014
  | .vsyncHz => 0x018
  | .dotclockLo => 0x01C
  | .dotclockHi => 0x020
  | .framePixels => 0x024
  | .threads => 0x028
  | .mode => 0x02C
  | .osc0Ctrl => 0x030
  | .osc0Ppp => 0x034
  | .osc0Start => 0x038
  | .osc1Ctrl => 0x03C
  | .osc1Ppp => 0x040
  | .osc1Start => 0x044
  | .sampleRate => 0x048
  | .pcmFormat => 0x04C
  | .sampleCount => 0x050
  | .fmDevPpp => 0x054
  | .fmDevScale => 0x058
  | .fmSeed => 0x05C
  | .errCode => 0x060
  | .errIndex => 0x064
  | .errSample => 0x068
  | .cfgTableDepth => 0x06C
  | .cfgMaxPixels => 0x070
  | .cfgMaxLanes => 0x074

/-- Every register, in offset order. -/
def Reg.all : List Reg :=
  [ .cmd, .status, .hTotal, .vTotal, .hDisplay, .vDisplay, .vsyncHz, .dotclockLo, .dotclockHi, .framePixels,
    .threads, .mode, .osc0Ctrl, .osc0Ppp, .osc0Start, .osc1Ctrl, .osc1Ppp, .osc1Start, .sampleRate, .pcmFormat,
    .sampleCount, .fmDevPpp, .fmDevScale, .fmSeed, .errCode, .errIndex, .errSample, .cfgTableDepth, .cfgMaxPixels,
    .cfgMaxLanes ]

/-- The register at an offset; an offset that names none is reserved (10 R33). -/
def Reg.ofOffset (o : Nat) : Option Reg := Reg.all.find? fun r => r.offset == o

/-- The access type of a register (10 R33, R34). STATUS is the one register with bits that clear on a 1. -/
def Reg.access : Reg → Access
  | .cmd => .wo
  | .status => .w1c
  | .dotclockLo | .dotclockHi | .framePixels | .errCode | .errIndex | .errSample
  | .cfgTableDepth | .cfgMaxPixels | .cfgMaxLanes => .ro
  | .hTotal | .vTotal | .hDisplay | .vDisplay | .vsyncHz | .threads | .mode
  | .osc0Ctrl | .osc0Ppp | .osc0Start | .osc1Ctrl | .osc1Ppp | .osc1Start
  | .sampleRate | .pcmFormat | .sampleCount | .fmDevPpp | .fmDevScale | .fmSeed => .rw

/-- The bits of an RW register that belong to a field (10 R33, 00 R9). -/
def Reg.fieldMask : Reg → Word
  | .hTotal | .vTotal | .hDisplay | .vDisplay | .vsyncHz => 0x0000FFFF
  | .threads => 0x000000FF
  | .mode => 0x0000000F
  | .osc0Ctrl | .osc1Ctrl | .pcmFormat => 0x00000001
  | .sampleCount => 0x0001FFFF
  | .osc0Ppp | .osc0Start | .osc1Ppp | .osc1Start | .sampleRate | .fmDevPpp | .fmDevScale | .fmSeed => 0xFFFFFFFF
  | .cmd | .status | .dotclockLo | .dotclockHi | .framePixels | .errCode | .errIndex | .errSample
  | .cfgTableDepth | .cfgMaxPixels | .cfgMaxLanes => 0x00000000

/-- A register as a read returns it, its fields in their bits and 0 elsewhere (10 R33, R34, R36; 20 R87). -/
def readReg (r : Reg) (s : State) : Word :=
  let g := s.regs
  match r with
  | .cmd => 0
  | .status => statusWord s
  | .hTotal => g.hTotal.setWidth 32
  | .vTotal => g.vTotal.setWidth 32
  | .hDisplay => g.hDisplay.setWidth 32
  | .vDisplay => g.vDisplay.setWidth 32
  | .vsyncHz => g.vsyncHz.setWidth 32
  | .dotclockLo => BitVec.ofNat 32 g.dotClock
  | .dotclockHi => BitVec.ofNat 32 (g.dotClock / 2 ^ 32)
  | .framePixels => BitVec.ofNat 32 g.framePixels
  | .threads => g.threads.setWidth 32
  | .mode => (g.amInfo ++ g.src).setWidth 32
  | .osc0Ctrl => g.osc0.wave.setWidth 32
  | .osc0Ppp => g.osc0.ppp
  | .osc0Start => g.osc0.start
  | .osc1Ctrl => g.osc1.wave.setWidth 32
  | .osc1Ppp => g.osc1.ppp
  | .osc1Start => g.osc1.start
  | .sampleRate => g.sampleRate
  | .pcmFormat => g.pcmFormat.setWidth 32
  | .sampleCount => g.sampleCount.setWidth 32
  | .fmDevPpp => g.fmDevPpp
  | .fmDevScale => g.fmDevScale
  | .fmSeed => g.fmSeed
  | .errCode => g.errCode.setWidth 32
  | .errIndex => g.errIndex
  | .errSample => g.errSample
  | .cfgTableDepth => g.cfg.tableDepth
  | .cfgMaxPixels => g.cfg.maxPixels
  | .cfgMaxLanes => g.cfg.maxLanes

/-- Store a written word into an RW register's fields; bits outside every field are discarded (10 R35). -/
def storeFields (r : Reg) (v : Word) (g : Regs) : Regs :=
  match r with
  | .hTotal => { g with hTotal := v.setWidth 16 }
  | .vTotal => { g with vTotal := v.setWidth 16 }
  | .hDisplay => { g with hDisplay := v.setWidth 16 }
  | .vDisplay => { g with vDisplay := v.setWidth 16 }
  | .vsyncHz => { g with vsyncHz := v.setWidth 16 }
  | .threads => { g with threads := v.setWidth 8 }
  | .mode => { g with src := v.extractLsb' 0 3, amInfo := v.extractLsb' 3 1 }
  | .osc0Ctrl => { g with osc0 := { g.osc0 with wave := v.setWidth 1 } }
  | .osc0Ppp => { g with osc0 := { g.osc0 with ppp := v } }
  | .osc0Start => { g with osc0 := { g.osc0 with start := v } }
  | .osc1Ctrl => { g with osc1 := { g.osc1 with wave := v.setWidth 1 } }
  | .osc1Ppp => { g with osc1 := { g.osc1 with ppp := v } }
  | .osc1Start => { g with osc1 := { g.osc1 with start := v } }
  | .sampleRate => { g with sampleRate := v }
  | .pcmFormat => { g with pcmFormat := v.setWidth 1 }
  | .sampleCount => { g with sampleCount := v.setWidth 17 }
  | .fmDevPpp => { g with fmDevPpp := v }
  | .fmDevScale => { g with fmDevScale := v }
  | .fmSeed => { g with fmSeed := v }
  | .cmd | .status | .dotclockLo | .dotclockHi | .framePixels | .errCode | .errIndex | .errSample
  | .cfgTableDepth | .cfgMaxPixels | .cfgMaxLanes => g

end Sys2Proof.Machine
end

