-- ==== Sys2Proof/Machine/Bus.lean ====
section
/-! DEFINITION. The host bus: what an address names, and what a read and a write do (spec/20_memory.md). A write to CMD
starts a command and is Machine/Agents.lean's. -/

namespace Sys2Proof.Machine

/-- The table field at byte offset `o` of an entry, `o` a multiple of 4 (30 R125). -/
def TblField.ofOffset (o : Nat) : TblField :=
  match o with
  | 0 => .raw
  | 4 => .inc
  | 8 => .cum
  | _ => .start

/-- What an address names under the size parameters in force (20 R80, R83, R86, R87). A word lies in a region if all of
it does (log 16). -/
def targetOf (g : Regs) (addr : Word) : Target :=
  let a := addr.toNat
  if a % 4 ≠ 0 then .misaligned
  else if a < 0x1000 then
    match Reg.ofOffset a with
    | some r => .reg r
    | none => .reserved
  else if sramBase ≤ a ∧ a + 4 ≤ sramBase + 2 * g.tableDepth then .sram (a - sramBase)
  else if tblBase ≤ a ∧ a + 4 ≤ tblBase + 16 * g.tableDepth then
    .tbl ((a - tblBase) / 16) (TblField.ofOffset ((a - tblBase) % 16))
  else if fbBase ≤ a ∧ a + 4 ≤ fbBase + 4 * g.maxPixels then .fb ((a - fbBase) / 4)
  else .unmapped

/-- A read whose value is unspecified: a fresh draw (20 R91; log 2). -/
def unspecifiedRead (s : State) : BusReply × State :=
  (.data (Config.unspecifiedRead s.draws), { s with draws := s.draws + 1 })

/-- `MemRead(addr, 4)` (20 R82, R87, R91). No read has a side effect on the block (20 R89). -/
def busRead (addr : Word) (s : State) : BusReply × State :=
  match targetOf s.regs addr with
  | .misaligned | .unmapped => (.busErr, s)
  | .reserved => (.data 0, s)
  | .reg r => (.data (readReg r s), s)
  | .sram o => (.data (s.word (sramBase + o)), s)
  | .tbl k f => if s.ctrl.preintegratingNow then unspecifiedRead s else (.data ((tblEntry s k).word f), s)
  | .fb v => if s.ctrl.rendering then unspecifiedRead s else (.data (s.word (fbBase + 4 * v)), s)

/-- A write that is dropped because a command is in progress (20 R90). -/
def dropWrite (s : State) : State := { s with busyWrite := true }

/-- A write to a named register by its access type: RW is dropped while BUSY and otherwise stored, clearing TABLE_VALID
if the register is an input of PREINT; STATUS clears flags; RO ignores it (10 R34, 20 R90, 44 R289). CMD stores nothing. -/
def writeReg (r : Reg) (v : Word) (s : State) : State :=
  match r.access with
  | .rw =>
    if s.ctrl.busy then dropWrite s
    else { s with regs := storeFields r v s.regs, tableValid := s.tableValid && !r.clearsTable }
  | .w1c => writeStatus v s
  | .ro | .wo => s

/-- A write to the SRAM word at byte offset `o`: dropped while BUSY, and otherwise stored, clearing TABLE_VALID
(20 R90, 44 R289). -/
def writeSram (o : Nat) (v : Word) (s : State) : State :=
  if s.ctrl.busy then dropWrite s
  else (s.storeBytes (sramBase + o) (wordBytes v)).setTableValid false

/-- `MemWrite(addr, 4, v)` to anything but CMD (20 R82, R86, R87). -/
def busWrite (addr v : Word) (s : State) : BusReply × State :=
  match targetOf s.regs addr with
  | .misaligned | .unmapped | .tbl _ _ | .fb _ => (.busErr, s)
  | .reserved => (.ok, s)
  | .reg r => (.ok, writeReg r v s)
  | .sram o => (.ok, writeSram o v s)

end Sys2Proof.Machine
end

