-- ==== Sys2Proof/Machine/Checks.lean ====
section
/-! DEFINITION. The acceptance checks of the commands, in their order (60 R382). -/

namespace Sys2Proof.Machine

/-- One row of the check table: whether its condition holds, and the register offset a failure records. -/
structure Check where
  holds : Bool
  off : Word
deriving DecidableEq, Repr

/-- G1 to G6, which every command but NOP makes. -/
def geometryChecks (g : Regs) : List Check :=
  [ { holds := 1 ≤ g.hTotal.toNat, off := 0x008 },
    { holds := 1 ≤ g.vTotal.toNat, off := 0x00C },
    { holds := 1 ≤ g.hDisplay.toNat && g.hDisplay.toNat ≤ g.hTotal.toNat, off := 0x010 },
    { holds := 1 ≤ g.vDisplay.toNat && g.vDisplay.toNat ≤ g.vTotal.toNat, off := 0x014 },
    { holds := 1 ≤ g.vsyncHz.toNat, off := 0x018 },
    { holds := g.visiblePixels ≤ g.maxPixels, off := 0x014 } ]

/-- T1 and M1, which RENDER makes. -/
def renderChecks (g : Regs) : List Check :=
  [ { holds := 1 ≤ g.threads.toNat && g.threads.toNat ≤ g.maxLanes, off := 0x028 },
    { holds := g.src.toNat ≤ 4, off := 0x02C } ]

/-- P1 and P2, which PREINT makes, and RENDER in the modes that use PCM. -/
def pcmChecks (g : Regs) : List Check :=
  [ { holds := 1 ≤ g.sr, off := 0x048 },
    { holds := g.ns ≤ g.tableDepth, off := 0x050 } ]

/-- The checks of PREINT. -/
def preintChecks (g : Regs) : List Check := geometryChecks g ++ pcmChecks g

/-- The checks of RENDER. -/
def renderAllChecks (g : Regs) : List Check :=
  geometryChecks g ++ renderChecks g ++ (if g.usesPcm then pcmChecks g else [])

/-- The checks of ADVANCE. -/
def advanceChecks (g : Regs) : List Check := geometryChecks g

/-- The offset of the first check that fails, if one does. -/
def firstFailing : List Check → Option Word
  | [] => none
  | c :: cs => if c.holds then firstFailing cs else some c.off

/-- Go on if every check holds; otherwise raise CONFIG at the first that fails (60 R382). -/
def checked (cs : List Check) (go : State → State) (s : State) : State :=
  match firstFailing cs with
  | some off => raiseError .config off 0 s
  | none => go s

end Sys2Proof.Machine
end

