-- ==== Sys2Proof/Machine/Signal.lean ====
section
/-! DEFINITION. The modulators and signal selection (spec/42_modulators.md), with the two lookups they rest on. -/

namespace Sys2Proof.Machine

/-- PCMAMP: the amplitude of the sample that owns `t`, or a failure past the window (43 R253). -/
def pcmAmp (s : State) (t : Nat) : Lookup ExactReal :=
  let k := sampleIndex s.regs t
  if s.regs.ns ≤ k then .fail t k else .ok (.ofRat (ampSample s k))

/-- The phase at total index `t` on the line that entry `e` begins: `CUM + INC*(t - START)` (44 R284). -/
def entryPhase (e : TblEntry) (t : Nat) : Phase :=
  padd e.cum (pscale e.inc ((t : Int) - (e.start.toNat : Int)))

/-- IPCM: the integrated phase at `t`, one table lookup (44 R284). -/
def ipcm (s : State) (t : Nat) : Lookup Phase :=
  let k := sampleIndex s.regs t
  if s.regs.ns ≤ k then .fail t k else .ok (entryPhase (tblEntry s k) t)

/-- END_PHASE: the integrated phase at the frame seam, `t = F`, on the line of the sample that owns `F - 1` (44 R287). -/
def endPhase (s : State) : Lookup Phase :=
  let t := s.regs.framePixels - 1
  let k := sampleIndex s.regs t
  if s.regs.ns ≤ k then .fail t k else .ok (entryPhase (tblEntry s k) s.regs.framePixels)

/-- NORMALIZE: `(x + 1)/2` (42 R220). -/
def normalize (x : ExactReal) : ExactReal := x.affine (1 / 2) (1 / 2)

/-- The AM information: oscillator 1 or the PCM amplitude (10 R38). -/
def amInformation (s : State) (t : Nat) : Lookup ExactReal :=
  if s.regs.amInfo = 0#1 then .ok (oscSample s.regs.osc1 t) else pcmAmp s t

/-- AM: the normalised information times the carrier (42 R221). -/
def amSignal (s : State) (t : Nat) : Lookup ExactReal :=
  (amInformation s t).map fun info => (normalize info).mul (oscSample s.regs.osc0 t)

/-- FM: the carrier with the integrated phase, scaled by FM_DEV_SCALE, added to its phase (42 R222). -/
def fmSignal (s : State) (t : Nat) : Lookup ExactReal :=
  (ipcm s t).map fun ph => oscSampleDev s.regs.osc0 t (pscale ph s.regs.fmDevScale.toNat)

/-- SIGNAL: the selected source's amplitude at `t` (42 R223). -/
def signal (src : Source) (s : State) (t : Nat) : Lookup ExactReal :=
  match src with
  | .carrier => .ok (oscSample s.regs.osc0 t)
  | .info => .ok (oscSample s.regs.osc1 t)
  | .pcm => pcmAmp s t
  | .am => amSignal s t
  | .fm => fmSignal s t

end Sys2Proof.Machine
end

