-- ==== Sys2Proof/Machine/Advance.lean ====
section
/-! DEFINITION. ADVANCE: the frame-synchronous state advance (45 R333). -/

namespace Sys2Proof.Machine

/-- The seed ADVANCE commits: the carry if the table is valid, else FM_SEED as it is (45 R333, 44 R287). -/
def advanceSeed (s : State) : Lookup Phase :=
  if s.tableValid then endPhase s else .ok s.regs.fmSeed

/-- The commit: both oscillators one frame on, the seed, and TABLE_VALID cleared, together (45 R333, R336). -/
def advanceCommit (seed : Phase) (s : State) : State :=
  { s with
    regs := { s.regs with
      osc0 := oscNextFrame s.regs.osc0 s.regs.framePixels
      osc1 := oscNextFrame s.regs.osc1 s.regs.framePixels
      fmSeed := seed }
    tableValid := false
    ctrl := .idle }

/-- Acceptance: the checks, then ADVANCING (45 R333). -/
def advanceBegin (s : State) : State :=
  checked (advanceChecks s.regs) (State.setCtrl .advancing) s

/-- ADVANCING: the commit, or a RANGE error that writes none of it (45 R333). -/
def advanceStep (s : State) : State :=
  match s.ctrl with
  | .advancing =>
    match advanceSeed s with
    | .fail t k => raiseRange t k s
    | .ok seed => advanceCommit seed s
  | _ => s

/-- ADVANCE from acceptance to its end. -/
def advanceRun (s : State) : State := advanceStep (advanceBegin s)

/-- The meaning of ADVANCE. -/
def execAdvance (s : State) : Host.Outcome State Fault Refusal := .next (accept advanceRun s)

end Sys2Proof.Machine
end

