-- ==== Sys2Proof/Machine/Nop.lean ====
section
/-! DEFINITION. NOP (45 R321). -/

namespace Sys2Proof.Machine

/-- NOP: an accepted one changes nothing (45 R321). -/
def nopBegin (s : State) : State := s

/-- The meaning of NOP. -/
def execNop (s : State) : Host.Outcome State Fault Refusal := .next (accept nopBegin s)

end Sys2Proof.Machine
end

