-- ==== Sys2Proof/Machine/Preint.lean ====
section
/-! DEFINITION. PREINT: the checks, the sequential pass that builds the integrated table, and its commit (44 R282, R283). -/

namespace Sys2Proof.Machine

/-- INC: the deviation phase per pixel of a code under a format (44 R282). -/
def incOf (f : PcmFormat) (raw : BitVec 16) (dev : Phase) : Phase :=
  fromFraction (.ofRat (ampOf f raw * toFraction dev))

/-- The entry that PREINT builds for sample `k` when the phase at its window start is `c` (44 R283). -/
def preintEntry (s : State) (k : Nat) (c : Phase) : TblEntry :=
  { raw := rawSample s k
    inc := incOf (formatOf s.regs.pcmFormat) (rawSample s k) s.regs.fmDevPpp
    cum := c
    start := BitVec.ofNat 32 (startTime s.regs k) }

/-- The phase at the next sample's window start (44 R283). -/
def nextCum (g : Regs) (k : Nat) (e : TblEntry) : Phase :=
  padd e.cum (pscale e.inc ((startTime g (k + 1) : Int) - (startTime g k : Int)))

/-- Acceptance: the checks, then PREINTEGRATING from sample 0 with FM_SEED (44 R283). -/
def preintBegin (s : State) : State :=
  checked (preintChecks s.regs) (fun s => s.setCtrl (.preintegrating 0 s.regs.fmSeed)) s

/-- One controller step of PREINTEGRATING: one entry, or after the last one the commit, which sets TABLE_VALID
(44 R283, 45 R336). -/
def preintStep (s : State) : State :=
  match s.ctrl with
  | .preintegrating k c =>
    if k < s.regs.ns then
      let e := preintEntry s k c
      (storeEntry s k e).setCtrl (.preintegrating (k + 1) (nextCum s.regs k e))
    else (s.setTableValid true).setCtrl .idle
  | _ => s

/-- PREINT from acceptance to its end: `NS` entries and the commit. -/
def preintRun (s : State) : State := preintStep^[s.regs.ns + 1] (preintBegin s)

/-- The meaning of PREINT. -/
def execPreint (s : State) : Host.Outcome State Fault Refusal := .next (accept preintRun s)

end Sys2Proof.Machine
end

