-- ==== Sys2Proof/Machine/Render.lean ====
section
/-! DEFINITION. RENDER: the checks, the partition, the workers, the join and the frame buffer (45 R322 to R328). -/

namespace Sys2Proof.Machine

/-! ## The datapath of a pixel -/

/-- V2T: the total index of a visible index (45 R323; log 11 for `HD = 0`). -/
def v2t (g : Regs) (v : Nat) : Nat :=
  v / g.hDisplay.toNat * g.hTotal.toNat + v % g.hDisplay.toNat

/-- GRAY: `floor(127.5*a + 128)` (45 R324). -/
def gray (a : ExactReal) : Byte := BitVec.ofInt 8 (a.affine (255 / 2) 128).floor

/-- The bytes R, G, B, A of a pixel in address order (30 R126). -/
def pixelBytes (g : Byte) : List Byte := [g, g, g, 0xFF#8]

/-- The gray byte of visible index `v`, or the failure of its sample lookup (45 R326). -/
def pixelGray (src : Source) (s : State) (v : Nat) : Lookup Byte :=
  (signal src s (v2t s.regs v)).map gray

/-! ## The partition (45 R325) -/

/-- Chunk `j` of the `T` equal ones is `[j*cs, (j+1)*cs)` with `cs = P div T`; a remainder chunk `[T*cs, P)` follows if
the division is inexact (log 11 for `T = 0`). -/
def partition (p t : Nat) : List (Nat × Nat) :=
  (List.range t).map (fun j => (j * (p / t), (j + 1) * (p / t)))
    ++ (if p % t ≠ 0 then [(t * (p / t), p)] else [])

/-! ## The workers (45 R326) -/

/-- A worker as it starts. -/
def Worker.start (chunk : Nat × Nat) : Worker :=
  { lo := chunk.1, hi := chunk.2, buf := [], report := .running }

/-- One step of a worker: the next pixel of its chunk, or its report. A reserved source, which the check M1 keeps out of
a RENDER, gives it nothing to do (42 R223; log 14). -/
def workerStep (s : State) (w : Worker) : Worker :=
  match w.report with
  | .running =>
    if w.lo + w.buf.length < w.hi then
      match sourceOf s.regs.src with
      | some src =>
        match pixelGray src s (w.lo + w.buf.length) with
        | .ok g => { w with buf := w.buf ++ [g] }
        | .fail t k => { w with report := .failed t k }
      | none => w
    else { w with report := .done }
  | .done | .failed _ _ => w

/-- A worker from where it is to its report, with no other agent between. -/
def workerRun (s : State) (w : Worker) : Worker := (workerStep s)^[w.hi - w.lo + 1] w

/-- One step of the worker with an ordinal, if there is one. -/
def workerMove (ordinal : Nat) (s : State) : State :=
  match s.ctrl with
  | .collecting ws => s.setCtrl (.collecting (ws.modify ordinal (workerStep s)))
  | _ => s

/-- Every worker, one after the other. -/
def workersRun (s : State) : State :=
  match s.ctrl with
  | .collecting ws => s.setCtrl (.collecting (ws.map (workerRun s)))
  | _ => s

/-! ## The controller (45 R322) -/

/-- After the CONFIG checks: an FM RENDER needs a valid table, and records the command word if there is none (60 R383). -/
def renderSequence (s : State) : State :=
  if sourceOf s.regs.src = some .fm ∧ s.tableValid = false then raiseError .seq (encode .render) 0 s
  else s.setCtrl .dispatching

/-- Acceptance: the checks, the sequence check, then DISPATCHING (45 R322). -/
def renderBegin (s : State) : State := checked (renderAllChecks s.regs) renderSequence s

/-- DISPATCHING: partition the frame and start one worker per chunk (45 R322). -/
def dispatchStep (s : State) : State :=
  match s.ctrl with
  | .dispatching =>
    s.setCtrl (.collecting ((partition s.regs.visiblePixels s.regs.threads.toNat).map Worker.start))
  | _ => s

/-- The worker has not reported yet. -/
def Worker.isRunning (w : Worker) : Bool :=
  match w.report with
  | .running => true
  | .done | .failed _ _ => false

/-- The failure a worker reported, if it did. -/
def Worker.failure (w : Worker) : Option (Nat × Nat) :=
  match w.report with
  | .failed t k => some (t, k)
  | .running | .done => none

/-- COLLECTING: wait until every worker has reported; the failure of the lowest ordinal is a RANGE error, and with none
the buffers go on in ordinal order (45 R327). -/
def collectStep (s : State) : State :=
  match s.ctrl with
  | .collecting ws =>
    if ws.any Worker.isRunning then s
    else
      match ws.findSome? Worker.failure with
      | some (t, k) => raiseRange t k s
      | none => s.setCtrl (.composing (ws.map Worker.buf))
  | _ => s

/-- COMPOSING: the concatenated buffers become the frame buffer's words from 0 on; then IDLE, the commit (45 R328, R336). -/
def composeStep (s : State) : State :=
  match s.ctrl with
  | .composing bufs => (s.storeBytes fbBase (bufs.flatten.flatMap pixelBytes)).setCtrl .idle
  | _ => s

/-- RENDER from acceptance to its end, the workers taking their steps one after the other (45 R331). -/
def renderRun (s : State) : State :=
  composeStep (collectStep (workersRun (dispatchStep (renderBegin s))))

/-- The meaning of RENDER. -/
def execRender (s : State) : Host.Outcome State Fault Refusal := .next (accept renderRun s)

end Sys2Proof.Machine
end

