-- ==== Sys2Proof/Machine/Dispatch.lean ====
section
/-! DEFINITION. Which meaning each command has: what the word of the command, written to CMD, does from its acceptance or
its drop to IDLE or HALTED, with no other agent between (45 R320, R331). -/

namespace Sys2Proof.Machine

def exec (i : Instr) (s : State) : Host.Outcome State Fault Refusal :=
  match i with
  | .nop => Sys2Proof.Machine.execNop s
  | .preint => Sys2Proof.Machine.execPreint s
  | .render => Sys2Proof.Machine.execRender s
  | .advance => Sys2Proof.Machine.execAdvance s

end Sys2Proof.Machine
end

