-- ==== Sys2Proof/Machine/Agents.lean ====
section
/-! DEFINITION. The agents and who moves (00 R15; 20 R88; 93 U7, U8; log 8): the host's operations, the controller, the
workers, reset, and the schedule that picks among them. -/

namespace Sys2Proof.Machine

/-! ## The controller and the workers -/

/-- One step of the controller, whatever command it is in (10 R32; log 9, 17). -/
def controllerStep (s : State) : State :=
  match s.ctrl with
  | .idle | .halted => s
  | .dispatching => dispatchStep s
  | .collecting _ => collectStep s
  | .composing _ => composeStep s
  | .preintegrating _ _ => preintStep s
  | .advancing => advanceStep s

/-- A command is accepted or dropped, and no more: what follows is controller and worker steps (45 R320). -/
def beginCommand (i : Instr) (s : State) : State :=
  match i with
  | .nop => accept nopBegin s
  | .preint => accept preintBegin s
  | .render => accept renderBegin s
  | .advance => accept advanceBegin s

/-! ## The host -/

/-- The transaction is answered. -/
def answer (r : BusReply) (s : State) : State := { s with replies := r :: s.replies }

/-- A write to CMD (45 R320). With `whole` the command runs to its end as `exec` says; without, it is only begun. -/
def commandWrite (whole : Bool) (w : Word) (s : State) : Host.Outcome State Fault Refusal :=
  match decode w with
  | .ok i => if whole then exec i s else .next (beginCommand i s)
  | .error _ => .next (illegalCommand w s)

/-- The host reads STATUS, and goes on with what it decides from that. -/
def statusRead (next : List HostOp) (s : State) : State := answer (.data (statusWord s)) { s with ops := next }

/-- One read of STATUS by a WAIT loop: done when bit 0 reads 0, else once more (30 R131). -/
def waitRead (rest : List HostOp) (s : State) : State := statusRead (if s.ctrl.busy then s.ops else rest) s

/-- The host's look at HALTED after a command: if it reads 1 the host stops, and nothing it had in mind is done (70 R425). -/
def stopRead (rest : List HostOp) (s : State) : State := statusRead (if s.ctrl.isHalted then [] else rest) s

/-- The host performs its next operation, one transaction (20 R88). -/
def hostStep (whole : Bool) (s : State) : Host.Outcome State Fault Refusal :=
  match s.ops with
  | [] => .next s
  | .read a :: rest =>
    let p := busRead a { s with ops := rest }
    .next (answer p.1 p.2)
  | .wait :: rest => .next (waitRead rest s)
  | .stopIfHalted :: rest => .next (stopRead rest s)
  | .write a v :: rest =>
    let s' := { s with ops := rest }
    if targetOf s.regs a = .reg .cmd then commandWrite whole v (answer .ok s')
    else
      let p := busWrite a v s'
      .next (answer p.1 p.2)

/-! ## Who moves -/

/-- The lowest ordinal of a worker that has not reported. -/
def firstRunning (ws : List Worker) : Option Nat := ws.findIdx? Worker.isRunning

/-- With nothing laid down: a busy block goes on, a worker before the controller; an idle or halted one lets the host
perform its next operation; and with no operation left nothing moves (70 R434, 60 R396). -/
def defaultMove (s : State) : Option Move :=
  match s.ctrl with
  | .collecting ws =>
    match firstRunning ws with
    | some n => some (.worker n)
    | none => some .controller
  | .dispatching | .composing _ | .preintegrating _ _ | .advancing => some .controller
  | .idle | .halted => if s.ops.isEmpty then none else some .hostRun

/-- One move of one agent. -/
def agentMove (m : Move) (s : State) : Host.Outcome State Fault Refusal :=
  match m with
  | .host => hostStep false s
  | .hostRun => hostStep true s
  | .controller => .next (controllerStep s)
  | .worker n => .next (workerMove n s)
  | .reset => .next (resetBlock s)

/-- One step of the whole: the first move laid down, or the default one, or none. -/
def machineStep (s : State) : Host.Outcome State Fault Refusal :=
  match s.moves with
  | m :: rest => agentMove m { s with moves := rest }
  | [] =>
    match defaultMove s with
    | some m => agentMove m s
    | none => .next s

/-! ## Placing a command -/

/-- The host writes `w` to CMD at once, and the command runs to its end (log 10). -/
def placeCommand (w : Word) (s : State) : State :=
  { s with ops := .write (BitVec.ofNat 32 (Reg.offset .cmd)) w :: s.ops, moves := .hostRun :: s.moves }

end Sys2Proof.Machine
end

