-- ==== Sys2Proof/Machine/HostDuties.lean ====
section
/-! DEFINITION. The arithmetic and the transactions of the host's duties that the block's rules depend on (00 R4; 40 R168;
43 R254 to R259; 60 R390; 30 R131; 70 R424, R425). Nothing here is part of the block. -/

namespace Sys2Proof.Machine

/-- The phase per pixel of a real frequency in hertz: `FROM_FRACTION(f / DC)` (40 R168; log 15). -/
def hostPpp (f : ExactReal) (dc : Nat) : Phase := fromFraction (f.affine (1 / (dc : ℚ)) 0)

/-- The same for a whole frequency, in integers only (40 R168; log 15). -/
def hostPppInt (f : Int) (dc : Nat) : Phase := BitVec.ofInt 32 ((2 * f * 2 ^ 32 + dc) / (2 * dc))

/-- `N = floor(SR/VS + 1/2)`, the host's cursor step (43 R254). With `VS = 0` the rule gives it no value; DESIGN CHOICE: it is 0
(log 11). -/
def windowLength (sr vs : Nat) : Nat := ⌊(sr : ℚ) / vs + 1 / 2⌋.toNat

/-- NS_MIN, the shortest window that covers a frame (43 R255; with no pixel in the frame, log 11). -/
def minWindow (g : Regs) : Nat := sampleIndex g (g.framePixels - 1) + 1

/-- `c_m = m*N`, the first stream sample of frame `m`'s window (43 R256). -/
def windowCursor (n m : Nat) : Nat := m * n

/-- `CMD OP` (30 R131). -/
def HostOp.cmd (i : Instr) : HostOp := .write (BitVec.ofNat 32 (Reg.offset .cmd)) (encode i)

/-- `CLRFLAGS` (30 R131). -/
def HostOp.clrFlags : HostOp := .write (BitVec.ofNat 32 (Reg.offset .status)) 0x00000300

/-- `WR` to a register by its name (30 R131). -/
def HostOp.wr (r : Reg) (v : Word) : HostOp := .write (BitVec.ofNat 32 r.offset) v

/-- `WR SRAM+o` (30 R131). -/
def HostOp.wrSram (o : Nat) (v : Word) : HostOp := .write (BitVec.ofNat 32 (sramBase + o)) v

/-- The writes that load a window of raw sample bytes, in file order, from SRAM byte `o` on (20 R85, 43 R256). DESIGN CHOICE:
where the byte count is not a multiple of 4, the rules do not say what the spare bytes of the last word get; the model writes 0
there. The words go in rising address order, the model's choice too (log 19). -/
def windowWrites : Nat → List Byte → List HostOp
  | o, b0 :: b1 :: b2 :: b3 :: rest => .wrSram o (b3 ++ b2 ++ b1 ++ b0) :: windowWrites (o + 4) rest
  | o, [b0, b1, b2] => [.wrSram o (0#8 ++ b2 ++ b1 ++ b0)]
  | o, [b0, b1] => [.wrSram o (0#16 ++ b1 ++ b0)]
  | o, [b0] => [.wrSram o (0#24 ++ b0)]
  | _, [] => []

/-- The registers that boot writes, in the order of its steps (70 R424). DESIGN CHOICE: the rule names the OSC1, PCM and FM
registers only for the modes that use them and leaves the order within steps 1 to 5 free; the model writes them all, in every
mode, in this one order (log 18). -/
def bootOrder : List Reg :=
  [.hTotal, .vTotal, .hDisplay, .vDisplay, .vsyncHz, .threads, .osc0Ctrl, .osc0Ppp, .osc0Start, .osc1Ctrl, .osc1Ppp,
    .osc1Start, .mode, .sampleRate, .pcmFormat, .sampleCount, .fmDevPpp, .fmDevScale, .fmSeed]

/-- Boot: each register of `bootOrder` written with what it reads in `target`, the first window, and PREINT in FM mode
(70 R424). DESIGN CHOICE: a register that the mode of `target` does not use is written too (log 18). -/
def bootOps (target : State) (fm : Bool) (window : List Byte) : List HostOp :=
  bootOrder.map (fun r => HostOp.wr r (readReg r target)) ++ windowWrites 0 window
    ++ (if fm then [HostOp.cmd .preint, .wait] else [])

/-- `RD FB[v]` (30 R131). -/
def HostOp.rdFb (v : Nat) : HostOp := .read (BitVec.ofNat 32 (fbBase + 4 * v))

/-- `CMD OP`, then `WAIT`, and the stop if STATUS reads `HALTED = 1` (70 R425). DESIGN CHOICE: the look at HALTED is a read of
its own after the WAIT (log 19). -/
def runOrStop (i : Instr) : List HostOp := [HostOp.cmd i, .wait, .stopIfHalted]

/-- The reads of the finished frame, `FB[0]` to `FB[P-1]` (70 R425 step 2). DESIGN CHOICE: each word once, in rising order, and
all before the ADVANCE, where the rule lets the host read until the next RENDER (log 19). -/
def frameReads (g : Regs) : List HostOp := (List.range g.visiblePixels).map HostOp.rdFb

/-- The part of a round that needs no new window: render, read the frame, advance (70 R425 steps 1 to 3). -/
def frameRender (g : Regs) : List HostOp := runOrStop .render ++ frameReads g ++ runOrStop .advance

/-- The part that makes the next frame ready: its window's writes, none outside the PCM modes, and PREINT in FM mode (70 R425
steps 4 and 5; 43 R257). -/
def frameNext (g : Regs) (window : List Byte) : List HostOp :=
  (if g.usesPcm then windowWrites 0 window else [])
    ++ (if sourceOf g.src = some .fm then [HostOp.cmd .preint, .wait] else [])

/-- One round of the frame loop at the registers the host has programmed (70 R425). -/
def frameRound (g : Regs) (window : List Byte) : List HostOp := frameRender g ++ frameNext g window

/-! ## Host-side errors (43 R258, 60 R390) -/

/-- The errors that arise in the host's loader. The block cannot detect them: no transaction, field of State, bit of STATUS
(`statusWord`) or error code (`ErrorCode`) stands for one (43 R258, 60 R390). -/
inductive HostError where
  /-- A malformed or missing PCM file at startup. -/
  | configuration
  /-- A read failure or an unexpected end of the stream. -/
  | io
deriving DecidableEq, Repr

/-- The bytes of one sample in the stream (43 R250, R251). -/
def sampleBytes : PcmFormat → Nat
  | .u8 => 1
  | .s16le => 2

/-- What the loader has for frame `m`: the `ns` samples from `c_m = m*n` on, in file order (43 R256); an error if there is no
usable file, or if the stream ends before the window is full, so that no shorter window is ever rendered (43 R258). DESIGN
CHOICE: a stream too short for the first window is an I/O error as any other (log 19). -/
def loadWindow (file : Option (List Byte)) (f : PcmFormat) (ns n m : Nat) : Except HostError (List Byte) :=
  match file with
  | none => .error .configuration
  | some bytes =>
    let w := (bytes.drop (windowCursor n m * sampleBytes f)).take (ns * sampleBytes f)
    if w.length = ns * sampleBytes f then .ok w else .error .io

/-- The window the host needs for frame `m`: the loader's in the PCM modes, and none in the others. -/
def windowFor (g : Regs) (load : Nat → Except HostError (List Byte)) (m : Nat) : Except HostError (List Byte) :=
  if g.usesPcm then load m else .ok []

/-- `n` rounds of the frame loop from frame `m` on. If the window of the next frame cannot be loaded, the host stops there and
issues no other RENDER (70 R425; 43 R258; 60 R390). DESIGN CHOICE: it issues nothing else either, the load comes after the ADVANCE,
and the last of the `n` rounds is a whole one, the next frame made ready (log 19). -/
def frameLoop (g : Regs) (load : Nat → Except HostError (List Byte)) (m : Nat) : Nat → List HostOp
  | 0 => []
  | n + 1 =>
    frameRender g ++
      match windowFor g load (m + 1) with
      | .error _ => []
      | .ok w => frameNext g w ++ frameLoop g load (m + 1) n

/-- The host's whole program for `n` frames: boot, then the frame loop. An error in loading the first window aborts startup
(70 R424, R425; 60 R390). DESIGN CHOICE: the rules do not say how many of boot's transactions come before such an error; the
model's host loads the window first, so it then issues none at all (log 19). -/
def hostProgram (target : State) (load : Nat → Except HostError (List Byte)) (n : Nat) : List HostOp :=
  match windowFor target.regs load 0 with
  | .error _ => []
  | .ok w => bootOps target (sourceOf target.regs.src = some .fm) w ++ frameLoop target.regs load 0 n

end Sys2Proof.Machine
end

