-- ==== Sys2Proof/Safety.lean ====
section
/-! DEFINITION. What counts as a good state of the block, in the terms the statements use. -/

namespace Sys2Proof.Machine

/-- The block is quiescent: IDLE or HALTED (70 R435). -/
def State.quiescent (s : State) : Bool := !s.ctrl.busy

/-- A run that ends here is a faulted run, never a successful end (70 R435). -/
def State.faulted (s : State) : Bool := s.ctrl.isHalted

/-! ## The check table of 60 R382, row by row -/

/-- The mode reads PCM data: `SRC = 2`, `SRC = 3` with `AM_INFO = 1`, or `SRC = 4` (42 R224). -/
abbrev ReadsPcm (g : Regs) : Prop := g.src = 2#3 ∨ (g.src = 3#3 ∧ g.amInfo = 1#1) ∨ g.src = 4#3

/-- The register offset of the first check that fails: G1 to G6 always, T1 and M1 if `render`, P1 and P2 if `pcm`. -/
def configError (g : Regs) (render pcm : Prop) [Decidable render] [Decidable pcm] : Option Word :=
  if g.hTotal.toNat = 0 then some 0x008
  else if g.vTotal.toNat = 0 then some 0x00C
  else if g.hDisplay.toNat = 0 ∨ g.hTotal.toNat < g.hDisplay.toNat then some 0x010
  else if g.vDisplay.toNat = 0 ∨ g.vTotal.toNat < g.vDisplay.toNat then some 0x014
  else if g.vsyncHz.toNat = 0 then some 0x018
  else if g.cfg.maxPixels.toNat < g.hDisplay.toNat * g.vDisplay.toNat then some 0x014
  else if render ∧ (g.threads.toNat = 0 ∨ g.cfg.maxLanes.toNat < g.threads.toNat) then some 0x028
  else if render ∧ 4 < g.src.toNat then some 0x02C
  else if pcm ∧ g.sampleRate.toNat = 0 then some 0x048
  else if pcm ∧ g.cfg.tableDepth.toNat < g.sampleCount.toNat then some 0x050
  else none

/-- What entering HALTED leaves: the error registers and the controller state changed, and nothing else (60 R385). -/
def haltedWith (s : State) (code : BitVec 4) (index sample : Word) : State :=
  { s with regs := { s.regs with errCode := code, errIndex := index, errSample := sample }, ctrl := .halted }

/-- INC of sample `k` (44 R282), as the registers and sample RAM are now. -/
def incAt (s : State) (k : Nat) : Phase := incOf (formatOf s.regs.pcmFormat) (rawSample s k) s.regs.fmDevPpp

/-- The oscillators' increments and starting angles, and the frame's pixels, are the same (40 R169). -/
structure SamePhases (g h : Regs) : Prop where
  ppp0 : g.osc0.ppp = h.osc0.ppp
  start0 : g.osc0.start = h.osc0.start
  ppp1 : g.osc1.ppp = h.osc1.ppp
  start1 : g.osc1.start = h.osc1.start
  hTotal : g.hTotal = h.hTotal
  vTotal : g.vTotal = h.vTotal

/-- What IPCM, END_PHASE and ADVANCE's choice of the seed read is the same: TABLE_VALID, NS, SR, the geometry that F and DC come
from, and INC, CUM and START of every entry of the window (44 R286, R287). -/
structure SameCarry (s t : State) : Prop where
  tableValid : s.tableValid = t.tableValid
  sampleCount : s.regs.sampleCount = t.regs.sampleCount
  sampleRate : s.regs.sampleRate = t.regs.sampleRate
  hTotal : s.regs.hTotal = t.regs.hTotal
  vTotal : s.regs.vTotal = t.regs.vTotal
  vsyncHz : s.regs.vsyncHz = t.regs.vsyncHz
  table : ∀ k < s.regs.ns, (tblEntry s k).inc = (tblEntry t k).inc ∧ (tblEntry s k).cum = (tblEntry t k).cum ∧
    (tblEntry s k).start = (tblEntry t k).start

/-- It is the host's turn, and `ms` is the schedule after it: the schedule says so, or it lays nothing down and the block is
not BUSY (log 8). -/
def HostToMove (s : State) (ms : List Move) : Prop :=
  s.moves = .host :: ms ∨ s.moves = .hostRun :: ms ∨ (s.moves = [] ∧ ms = [] ∧ s.ctrl.busy = false)

/-- A move of the controller or of a worker, not of the host or of reset. -/
def Move.ofBlock (m : Move) : Prop := m = .controller ∨ ∃ n, m = .worker n

/-- A move in which the host performs its next operation. -/
def Move.ofHost (m : Move) : Prop := m = .host ∨ m = .hostRun

/-- `n` steps from `s` under the schedule `σ`, whose moves replace what was laid down. -/
def runUnder (σ : Nat → Move) (s : State) (n : Nat) : Host.Outcome State Fault Refusal :=
  Host.Core.run core n { s with moves := (List.range n).map σ }

/-- The agent of a move has a step to take in `s`: a worker that has not reported, the controller of a command in progress,
which in COLLECTING waits for every worker's report (45 R327), or the host with an operation left. -/
def Enabled (m : Move) (s : State) : Prop :=
  match m with
  | .controller => s.ctrl.busy = true ∧ ∀ ws, s.ctrl = .collecting ws → ∀ w ∈ ws, w.isRunning = false
  | .worker n => ∃ ws w, s.ctrl = .collecting ws ∧ ws[n]? = some w ∧ w.isRunning = true
  | .host | .hostRun => s.ops ≠ []
  | .reset => False

/-- Weak fairness for the block: its every agent that comes to have a step to take has a move later on. No reset is among the
moves, and the host's may be (45 R335, 70 R434). -/
def FairToBlock (σ : Nat → Move) (s : State) : Prop :=
  (∀ n, σ n ≠ .reset) ∧
  ∀ n u a, runUnder σ s n = .next u → a.ofBlock → Enabled a u → ∃ m, n ≤ m ∧ σ m = a

/-- Weak fairness for the host: while it has an operation left it has a move later on (70 R434). -/
def FairToHost (σ : Nat → Move) (s : State) : Prop :=
  ∀ n u, runUnder σ s n = .next u → Enabled .host u → ∃ m, n ≤ m ∧ (σ m).ofHost

/-! ## The table as the sequential pass defines it (44 R283) -/

/-- The value of `c` when the pass of 44 R283 comes to sample `k`. -/
def cumAt (s : State) : Nat → Phase
  | 0 => s.regs.fmSeed
  | k + 1 => nextCum s.regs k (preintEntry s k (cumAt s k))

/-- The first `n` entries are those the pass builds from the registers and sample RAM as they are now. -/
def TableBuilt (s : State) (n : Nat) : Prop := ∀ k < n, tblEntry s k = preintEntry s k (cumAt s k)

/-- What a valid table takes for granted of the registers (60 R382). -/
def TableInputsOk (g : Regs) : Prop :=
  1 ≤ g.hTotal.toNat ∧ 1 ≤ g.vTotal.toNat ∧ 1 ≤ g.vsyncHz.toNat ∧ 1 ≤ g.sr ∧ g.ns ≤ g.tableDepth

/-- TABLE_VALID tells the truth: the table matches its inputs (44 R289). -/
def TableOk (s : State) : Prop := s.tableValid = true → TableInputsOk s.regs ∧ TableBuilt s s.regs.ns

/-! ## A RENDER in progress (45 R322 to R328) -/

/-- The acceptance of a RENDER went through (60 R382, R383). -/
def RenderAccepted (s : State) : Prop :=
  firstFailing (renderAllChecks s.regs) = none ∧ (sourceOf s.regs.src = some .fm → s.tableValid = true)

/-- Visible index `v` samples to `r` under the selected source (45 R326). -/
def PixelIs (s : State) (v : Nat) (r : Lookup Byte) : Prop :=
  ∃ src, sourceOf s.regs.src = some src ∧ pixelGray src s v = r

/-- A worker's buffer holds the gray bytes of its chunk as far as it has come, and its report is true (45 R326). -/
def WorkerOk (s : State) (w : Worker) : Prop :=
  w.lo + w.buf.length ≤ w.hi ∧ (∀ i (h : i < w.buf.length), PixelIs s (w.lo + i) (.ok w.buf[i])) ∧
    match w.report with
    | .running => True
    | .done => w.lo + w.buf.length = w.hi
    | .failed t k => w.lo + w.buf.length < w.hi ∧ PixelIs s (w.lo + w.buf.length) (.fail t k)

/-- The workers are those of the partition and each is in order (45 R325, R326). -/
def WorkersOk (s : State) (ws : List Worker) : Prop :=
  ws.map (fun w => (w.lo, w.hi)) = partition s.regs.visiblePixels s.regs.threads.toNat ∧ ∀ w ∈ ws, WorkerOk s w

/-- The frame-buffer word of a gray byte: A, B, G, R from the top, alpha opaque (30 R126). -/
def pixelWord (g : Byte) : Word := 0xFF#8 ++ g ++ g ++ g

/-- The bytes are those of the whole frame, in visible-index order (45 R328). -/
def FrameIs (s : State) (gs : List Byte) : Prop :=
  gs.length = s.regs.visiblePixels ∧ ∀ v (h : v < gs.length), PixelIs s v (.ok gs[v])

/-- What the controller state says about the rest of the block. -/
def CtrlOk (s : State) : Prop :=
  match s.ctrl with
  | .idle | .halted => True
  | .preintegrating k c =>
    firstFailing (preintChecks s.regs) = none ∧ k ≤ s.regs.ns ∧ c = cumAt s k ∧ TableBuilt s k
  | .dispatching => RenderAccepted s
  | .collecting ws => RenderAccepted s ∧ WorkersOk s ws
  | .composing bufs => RenderAccepted s ∧ FrameIs s bufs.flatten
  | .advancing => firstFailing (advanceChecks s.regs) = none

/-! ## Errors and memory -/

/-- The error registers are 0 unless the block is HALTED, and then ERR_CODE names an error (10 R43, 60 R380, R385). -/
def ErrorsOk (s : State) : Prop :=
  if s.ctrl = .halted then 1 ≤ s.regs.errCode.toNat ∧ s.regs.errCode.toNat ≤ 4
  else s.regs.errCode = 0 ∧ s.regs.errIndex = 0 ∧ s.regs.errSample = 0

/-- The address lies in one of the memories (20 R80). -/
def InMemories (g : Regs) (a : Nat) : Prop :=
  (sramBase ≤ a ∧ a < sramBase + 2 * g.tableDepth) ∨ (tblBase ≤ a ∧ a < tblBase + 16 * g.tableDepth) ∨
    (fbBase ≤ a ∧ a < fbBase + 4 * g.maxPixels)

/-- The store is canonical and lists bytes of the memories only. -/
def MemoryOk (s : State) : Prop := Memory.wf s.mem ∧ ∀ c ∈ s.mem, InMemories s.regs c.1

/-- The invariant of the machine. -/
structure Safe (s : State) : Prop where
  params : paramsOk s.regs.cfg = true
  memory : MemoryOk s
  errors : ErrorsOk s
  table : TableOk s
  ctrl : CtrlOk s

end Sys2Proof.Machine
end

