-- ==== Sys2Proof/Certificates/Slice0/Obligations.lean ====
section
/-! DEFINITION. The statements about the model, from the rules of spec/. Frames are written as record equations: every field
that is not named is as it was. Where `mem` is named, the bytes are then pinned down one by one. -/

open Sys2Proof Sys2Proof.Machine

/-! ## Command words -/

/-- 30 R122, R129: a word is a command exactly if it is that command's encoding, and every other word is rejected for the
reason the decoder of R122 gives. -/
def Obligations.DecodeAcceptsExactlyTheEncodings : Prop :=
  ∀ w : Word,
    (∀ i, decode w = .ok i ↔ w = encode i) ∧
    (decode w = .error .reservedBits ↔ w.toNat / 2 ^ 8 ≠ 0) ∧
    (decode w = .error .reservedOpcode ↔ w.toNat / 2 ^ 8 = 0 ∧ 4 ≤ w.toNat % 2 ^ 8)

/-- Words written out from 30 R121 and 95 L2-7. -/
def Obligations.KnownCommandWordsDecode : Prop :=
  decode 0x00000000#32 = .ok .nop ∧ decode 0x00000001#32 = .ok .preint ∧ decode 0x00000002#32 = .ok .render ∧
  decode 0x00000003#32 = .ok .advance ∧ decode 0x00000004#32 = .error .reservedOpcode ∧
  decode 0x000000FF#32 = .error .reservedOpcode ∧ decode 0x00000100#32 = .error .reservedBits ∧
  decode 0x80000002#32 = .error .reservedBits

/-! ## The step -/

/-- 45 R320: a host write of a command's word to CMD leaves the host's queue and is answered OK; the command is then run
by `exec`, if the schedule runs it whole or lays nothing down and the block is not busy, and is begun, if the schedule
moves the agents one by one: then, from IDLE, it leaves the first state of its checks' outcome (44 R283; 45 R320, R322, R333;
60 R382, R383), a BUSY one if they pass, and changes nothing else. `withFetchWord` sets such a write up (log 8, 10: the queue
and the schedule are the model's). -/
def Obligations.StepRunsTheDecodedCommand : Prop :=
  (∀ s w i rest ms, s.ops = .write 0x00000000#32 w :: rest → decode w = .ok i →
    (s.moves = .hostRun :: ms → step s = exec i { s with ops := rest, moves := ms, replies := .ok :: s.replies }) ∧
    (s.moves = [] → s.ctrl.busy = false → step s = exec i { s with ops := rest, replies := .ok :: s.replies }) ∧
    (s.moves = .host :: ms →
      step s = .next (beginCommand i { s with ops := rest, moves := ms, replies := .ok :: s.replies }))) ∧
  (∀ (s : State) w i, w < 2 ^ 32 → decode (BitVec.ofNat 32 w) = .ok i →
    step (s.withFetchWord 32 w) = exec i { s with replies := .ok :: s.replies }) ∧
  ∀ s, s.ctrl = .idle →
    beginCommand .nop s = s ∧
    beginCommand .preint s = (match configError s.regs False True with
      | some off => haltedWith s 2 off 0
      | none => { s with ctrl := .preintegrating 0 s.regs.fmSeed }) ∧
    beginCommand .render s = (match configError s.regs True (ReadsPcm s.regs) with
      | some off => haltedWith s 2 off 0
      | none =>
        if s.regs.src = 4#3 ∧ s.tableValid = false then haltedWith s 3 0x00000002#32 0
        else { s with ctrl := .dispatching }) ∧
    beginCommand .advance s = (match configError s.regs False False with
      | some off => haltedWith s 2 off 0
      | none => { s with ctrl := .advancing })

/-- 60 R389: no transaction, command, worker step or reset stops the machine. -/
def Obligations.EveryStepHasANextState : Prop := ∀ s, ∃ t, step s = .next t

/-- 60 R381, 45 R320: a word that is no command enters HALTED with ERR_CODE 1 and the word in ERR_INDEX when it is accepted;
while the block is BUSY or HALTED it only sets CMD_REJECT. It is the host's turn if the schedule says so, or lays nothing down
while the block is not BUSY. Beyond that the host's queue, its answer and the schedule move on (log 7, 8). -/
def Obligations.IllegalWordIsACommandError : Prop :=
  ∀ s w rest ms, s.ops = .write 0x00000000#32 w :: rest → (w.toNat / 2 ^ 8 ≠ 0 ∨ 4 ≤ w.toNat % 2 ^ 8) →
    HostToMove s ms →
    (s.ctrl = .idle →
      step s = .next (haltedWith { s with ops := rest, moves := ms, replies := .ok :: s.replies } 1 w 0)) ∧
    (s.ctrl ≠ .idle →
      step s = .next { s with ops := rest, moves := ms, replies := .ok :: s.replies, cmdReject := true })

/-- 20 R82, 30 R131, 70 R425: the host's next operation is one transaction. A read and a write to anything but CMD are the
bus's; a WAIT reads STATUS, and is over when bit 0 reads 0; the frame loop's look at HALTED reads STATUS, and ends the host's
program if bit 5 reads 1 (log 7: the queue and the answers are the model's). -/
def Obligations.HostStepIsOneTransaction : Prop :=
  ∀ s rest ms, HostToMove s ms →
    (∀ a, s.ops = .read a :: rest → ∃ p, p = busRead a { s with ops := rest, moves := ms } ∧
      step s = .next { p.2 with replies := p.1 :: s.replies }) ∧
    (∀ a v, s.ops = .write a v :: rest → a ≠ 0x00000000#32 →
      ∃ p, p = busWrite a v { s with ops := rest, moves := ms } ∧
        step s = .next { p.2 with replies := p.1 :: s.replies }) ∧
    (s.ops = .wait :: rest →
      step s = .next { s with
        ops := if (readReg .status s).toNat % 2 = 1 then s.ops else rest
        moves := ms
        replies := .data (readReg .status s) :: s.replies }) ∧
    (s.ops = .stopIfHalted :: rest →
      step s = .next { s with
        ops := if (readReg .status s).toNat / 2 ^ 5 % 2 = 1 then [] else rest
        moves := ms
        replies := .data (readReg .status s) :: s.replies })

/-! ## NOP and dropped commands -/

/-- 45 R321: an accepted NOP changes nothing; 0x0000_0100 is a command error; a NOP written while BUSY is dropped with
CMD_REJECT. -/
def Obligations.NopChangesNothing : Prop :=
  (∀ s, s.ctrl = .idle → exec .nop s = .next s) ∧
  decode 0x00000100#32 = .error .reservedBits ∧
  ∀ s, s.ctrl.busy = true → exec .nop s = .next { s with cmdReject := true }

/-- 45 R320, 60 R386, R387: a word written to CMD while the block is BUSY or HALTED, whatever it is, sets CMD_REJECT and does
nothing else. -/
def Obligations.CommandDroppedUnlessIdle : Prop :=
  (∀ i s, s.ctrl ≠ .idle → exec i s = .next { s with cmdReject := true }) ∧
  ∀ s w rest ms, s.ctrl ≠ .idle → s.ops = .write 0x00000000#32 w :: rest →
    HostToMove s ms →
    step s = .next { s with cmdReject := true, ops := rest, moves := ms, replies := .ok :: s.replies }

/-! ## PREINT -/

/-- 44 R283: once its checks pass, PREINT ends in IDLE with TABLE_VALID set and the first `NS` entries built: CUM is FM_SEED
and the increments of the windows before, each times the window's length. Nothing else changes, and no byte outside those
entries. -/
def Obligations.PreintBuildsTheTable : Prop :=
  ∀ s, s.ctrl = .idle → configError s.regs False True = none →
    ∃ t, exec .preint s = .next t ∧ t = { s with tableValid := true, mem := t.mem } ∧
      (∀ k < s.regs.sampleCount.toNat,
        (tblEntry t k).raw = rawSample s k ∧ (tblEntry t k).inc = incAt s k ∧
        (tblEntry t k).cum.toNat = (s.regs.fmSeed.toNat + ∑ j ∈ Finset.range k,
          (incAt s j).toNat * (startTime s.regs (j + 1) - startTime s.regs j)) % 2 ^ 32 ∧
        (tblEntry t k).start.toNat = startTime s.regs k % 2 ^ 32) ∧
      ∀ x, x < tblBase ∨ tblBase + 16 * s.regs.sampleCount.toNat ≤ x → t.byte x = s.byte x

/-! ## The acceptance checks -/

/-- 60 R382: the first check of the table that fails enters HALTED with ERR_CODE 2 and its register's offset in ERR_INDEX, and
nothing else changes. PREINT makes the G and P checks, RENDER all of them (P only in the modes that use PCM), ADVANCE the
G checks. -/
def Obligations.ConfigErrorAtFirstFailingCheck : Prop :=
  ∀ s off, s.ctrl = .idle →
    (configError s.regs False True = some off → exec .preint s = .next (haltedWith s 2 off 0)) ∧
    (configError s.regs True (ReadsPcm s.regs) = some off → exec .render s = .next (haltedWith s 2 off 0)) ∧
    (configError s.regs False False = some off → exec .advance s = .next (haltedWith s 2 off 0))

/-! ## RENDER -/

/-- 45 R331, R332, 30 R126: if its checks pass, FM has a valid table, and in the modes that use PCM every pixel's sample is
within the window, RENDER ends in IDLE with every pixel word built from `floor(127.5*a + 128)`, `a` the selected signal at
the pixel's total index. Nothing else changes, and no byte outside the frame. -/
def Obligations.RenderWritesTheFrame : Prop :=
  ∀ s, s.ctrl = .idle → configError s.regs True (ReadsPcm s.regs) = none →
    (s.regs.src = 4#3 → s.tableValid = true) →
    (ReadsPcm s.regs → ∀ v < s.regs.visiblePixels, sampleIndex s.regs (v2t s.regs v) < s.regs.ns) →
    ∃ t src, exec .render s = .next t ∧ t = { s with mem := t.mem } ∧ sourceOf s.regs.src = some src ∧
      (∀ v < s.regs.visiblePixels, ∃ a, signal src s (v2t s.regs v) = .ok a ∧
        (t.word (fbBase + 4 * v)).toNat = 0xFF000000 + 0x00010101 * ⌊255 / 2 * a.val + 128⌋.toNat) ∧
      ∀ x, x < fbBase ∨ fbBase + 4 * s.regs.visiblePixels ≤ x → t.byte x = s.byte x

/-- 45 R331, 60 R384: if the sample of visible index `v0` is the first past the window, RENDER ends in HALTED with ERR_CODE 4,
the total index of `v0` in ERR_INDEX and its sample index, held at 2^32 - 1, in ERR_SAMPLE. Nothing else changes. -/
def Obligations.RenderRangeError : Prop :=
  ∀ s v0, s.ctrl = .idle → configError s.regs True (ReadsPcm s.regs) = none →
    (s.regs.src = 4#3 → s.tableValid = true) → ReadsPcm s.regs → v0 < s.regs.visiblePixels →
    s.regs.ns ≤ sampleIndex s.regs (v2t s.regs v0) →
    (∀ v < v0, sampleIndex s.regs (v2t s.regs v) < s.regs.ns) →
    exec .render s = .next (haltedWith s 4 (BitVec.ofNat 32 (v2t s.regs v0))
      (BitVec.ofNat 32 (min (sampleIndex s.regs (v2t s.regs v0)) (2 ^ 32 - 1))))

/-- 60 R383: an FM RENDER whose checks pass while TABLE_VALID is 0 enters HALTED with ERR_CODE 3 and its own word in
ERR_INDEX, and nothing else changes. -/
def Obligations.RenderSequenceError : Prop :=
  ∀ s, s.ctrl = .idle → configError s.regs True (ReadsPcm s.regs) = none → s.regs.src = 4#3 →
    s.tableValid = false → exec .render s = .next (haltedWith s 3 0x00000002#32 0)

/-- 45 R332: a RENDER after a RENDER that ended in IDLE, with nothing between, leaves the state as it is. -/
def Obligations.RenderIsRepeatable : Prop :=
  ∀ s t, s.ctrl = .idle → exec .render s = .next t → t.ctrl = .idle → exec .render t = .next t

/-- 45 R337: with another legal value in THREADS, RENDER leaves the same state but for THREADS itself. -/
def Obligations.ThreadsAreUnobservable : Prop :=
  ∀ s n t, s.ctrl = .idle → 1 ≤ s.regs.threads.toNat → s.regs.threads.toNat ≤ s.regs.maxLanes →
    1 ≤ n.toNat → n.toNat ≤ s.regs.maxLanes → exec .render s = .next t →
    exec .render { s with regs := { s.regs with threads := n } } =
      .next { t with regs := { t.regs with threads := n } }

/-- 45 R323, R334: V2T is `(v div HD)*HT + (v mod HD)`, rises strictly, stays within the frame, and reaches exactly the total
indices of the visible columns and rows. -/
def Obligations.VisibleIndexLayout : Prop :=
  ∀ g : Regs, 1 ≤ g.hDisplay.toNat → g.hDisplay.toNat ≤ g.hTotal.toNat → 1 ≤ g.vDisplay.toNat →
    g.vDisplay.toNat ≤ g.vTotal.toNat →
    (∀ v, v2t g v = v / g.hDisplay.toNat * g.hTotal.toNat + v % g.hDisplay.toNat) ∧
    (g.hDisplay = g.hTotal → ∀ v, v2t g v = v) ∧
    (∀ v w, v < w → v2t g v < v2t g w) ∧
    (∀ v < g.visiblePixels,
      v2t g v ≤ (g.vDisplay.toNat - 1) * g.hTotal.toNat + g.hDisplay.toNat - 1 ∧ v2t g v < g.framePixels) ∧
    ∀ t, (∃ v < g.visiblePixels, v2t g v = t) ↔
      t % g.hTotal.toNat < g.hDisplay.toNat ∧ t / g.hTotal.toNat < g.vDisplay.toNat

/-- 45 R330, R325: every visible index is in exactly one chunk, no chunk reaches past the frame, and there are `T` chunks, or
`T + 1` if the division is inexact. -/
def Obligations.PartitionCoversOnce : Prop :=
  ∀ p t : Nat, 1 ≤ t →
    (∀ v < p, ∃! j : Nat, ∃ c : Nat × Nat, (partition p t)[j]? = some c ∧ c.1 ≤ v ∧ v < c.2) ∧
    (∀ c ∈ partition p t, c.1 ≤ c.2 ∧ c.2 ≤ p) ∧
    (partition p t).length = if p % t = 0 then t else t + 1

/-! ## ADVANCE -/

/-- 45 R333, 44 R287: with a valid table that covers the frame's last total index, ADVANCE advances both starting angles by
`PPP*F`, carries the integrated phase at the frame seam into FM_SEED, clears TABLE_VALID and ends in IDLE. Nothing else
changes. -/
def Obligations.AdvanceCommitsTheCarry : Prop :=
  ∀ s f k e, s.ctrl = .idle → configError s.regs False False = none → s.tableValid = true →
    f = s.regs.hTotal.toNat * s.regs.vTotal.toNat → k = (f - 1) * s.regs.sampleRate.toNat / s.regs.dotClock →
    k < s.regs.sampleCount.toNat → e = tblEntry s k →
    exec .advance s = .next { s with
      regs := { s.regs with
        osc0 := { s.regs.osc0 with start := s.regs.osc0.start + s.regs.osc0.ppp * BitVec.ofNat 32 f }
        osc1 := { s.regs.osc1 with start := s.regs.osc1.start + s.regs.osc1.ppp * BitVec.ofNat 32 f }
        fmSeed := e.cum + e.inc * (BitVec.ofNat 32 f - e.start) }
      tableValid := false }

/-- 45 R333: with no valid table ADVANCE advances both starting angles by `PPP*F` and keeps FM_SEED. Nothing else changes. -/
def Obligations.AdvanceKeepsSeedWithoutTable : Prop :=
  ∀ s f, s.ctrl = .idle → configError s.regs False False = none → s.tableValid = false →
    f = s.regs.hTotal.toNat * s.regs.vTotal.toNat →
    exec .advance s = .next { s with
      regs := { s.regs with
        osc0 := { s.regs.osc0 with start := s.regs.osc0.start + s.regs.osc0.ppp * BitVec.ofNat 32 f }
        osc1 := { s.regs.osc1 with start := s.regs.osc1.start + s.regs.osc1.ppp * BitVec.ofNat 32 f } } }

/-- 45 R333, 60 R384: with a valid table that does not cover the frame's last total index, ADVANCE enters HALTED with ERR_CODE 4,
`F - 1` in ERR_INDEX and the sample index, held at 2^32 - 1, in ERR_SAMPLE. Nothing else changes. -/
def Obligations.AdvanceRangeError : Prop :=
  ∀ s f k, s.ctrl = .idle → configError s.regs False False = none → s.tableValid = true →
    f = s.regs.hTotal.toNat * s.regs.vTotal.toNat → k = (f - 1) * s.regs.sampleRate.toNat / s.regs.dotClock →
    s.regs.sampleCount.toNat ≤ k →
    exec .advance s =
      .next (haltedWith s 4 (BitVec.ofNat 32 (f - 1)) (BitVec.ofNat 32 (min k (2 ^ 32 - 1))))

/-! ## Registers -/

/-- 10 R33, 20 R87: each register by its name, with its offset, its access type, the bits of its RW fields, and what it reads
after reset; and a bus read at its offset gives what the register reads, in every state. -/
def Obligations.RegisterMapIsTheTable : Prop :=
  (∀ s (r : Reg), busRead (BitVec.ofNat 32 r.offset) s = (.data (readReg r s), s)) ∧
  Reg.all.map (fun r => (r, r.offset, r.access, r.fieldMask, readReg r State.reset)) =
    [ (.cmd, 0x000, .wo, 0, 0), (.status, 0x004, .w1c, 0, 0), (.hTotal, 0x008, .rw, 0xFFFF, 0),
      (.vTotal, 0x00C, .rw, 0xFFFF, 0), (.hDisplay, 0x010, .rw, 0xFFFF, 0), (.vDisplay, 0x014, .rw, 0xFFFF, 0),
      (.vsyncHz, 0x018, .rw, 0xFFFF, 0), (.dotclockLo, 0x01C, .ro, 0, 0), (.dotclockHi, 0x020, .ro, 0, 0),
      (.framePixels, 0x024, .ro, 0, 0), (.threads, 0x028, .rw, 0xFF, 0), (.mode, 0x02C, .rw, 0xF, 0),
      (.osc0Ctrl, 0x030, .rw, 1, 0), (.osc0Ppp, 0x034, .rw, 0xFFFFFFFF, 0), (.osc0Start, 0x038, .rw, 0xFFFFFFFF, 0),
      (.osc1Ctrl, 0x03C, .rw, 1, 0), (.osc1Ppp, 0x040, .rw, 0xFFFFFFFF, 0), (.osc1Start, 0x044, .rw, 0xFFFFFFFF, 0),
      (.sampleRate, 0x048, .rw, 0xFFFFFFFF, 0), (.pcmFormat, 0x04C, .rw, 1, 0), (.sampleCount, 0x050, .rw, 0x1FFFF, 0),
      (.fmDevPpp, 0x054, .rw, 0xFFFFFFFF, 0), (.fmDevScale, 0x058, .rw, 0xFFFFFFFF, 0), (.fmSeed, 0x05C, .rw, 0xFFFFFFFF, 0),
      (.errCode, 0x060, .ro, 0, 0), (.errIndex, 0x064, .ro, 0, 0), (.errSample, 0x068, .ro, 0, 0),
      (.cfgTableDepth, 0x06C, .ro, 0, 0x00010000), (.cfgMaxPixels, 0x070, .ro, 0, 0x00400000),
      (.cfgMaxLanes, 0x074, .ro, 0, 0x00000010) ]

/-- 10 R33, R34, R35: the RW register at each offset, the field of State that takes each bit of an accepted write, with no other
field changed, and what it reads in every state. A write drops the bits outside its fields, a read gives 0 there; every other
register but STATUS and those computed from the geometry reads as before, and nothing but the registers and TABLE_VALID changes. -/
def Obligations.RwRegisterReadsBackItsField : Prop :=
  (∀ s (r : Reg) v, r.access = .rw → s.ctrl.busy = false →
    ∃ t, busWrite (BitVec.ofNat 32 r.offset) v s = (.ok, t) ∧
      t = { s with regs := t.regs, tableValid := t.tableValid } ∧
      busRead (BitVec.ofNat 32 r.offset) t = (.data (v &&& r.fieldMask), t) ∧
      ∀ q, q ≠ r → q ∉ [.status, .dotclockLo, .dotclockHi, .framePixels] → readReg q t = readReg q s) ∧
  ∀ (s : State) (g : Regs) (v : Word), g = s.regs →
    ∀ row ∈ ([
        (0x008, { g with hTotal := v.extractLsb' 0 16 }, 0#16 ++ g.hTotal),
        (0x00C, { g with vTotal := v.extractLsb' 0 16 }, 0#16 ++ g.vTotal),
        (0x010, { g with hDisplay := v.extractLsb' 0 16 }, 0#16 ++ g.hDisplay),
        (0x014, { g with vDisplay := v.extractLsb' 0 16 }, 0#16 ++ g.vDisplay),
        (0x018, { g with vsyncHz := v.extractLsb' 0 16 }, 0#16 ++ g.vsyncHz),
        (0x028, { g with threads := v.extractLsb' 0 8 }, 0#24 ++ g.threads),
        (0x02C, { g with src := v.extractLsb' 0 3, amInfo := v.extractLsb' 3 1 }, 0#28 ++ g.amInfo ++ g.src),
        (0x030, { g with osc0 := { g.osc0 with wave := v.extractLsb' 0 1 } }, 0#31 ++ g.osc0.wave),
        (0x034, { g with osc0 := { g.osc0 with ppp := v } }, g.osc0.ppp),
        (0x038, { g with osc0 := { g.osc0 with start := v } }, g.osc0.start),
        (0x03C, { g with osc1 := { g.osc1 with wave := v.extractLsb' 0 1 } }, 0#31 ++ g.osc1.wave),
        (0x040, { g with osc1 := { g.osc1 with ppp := v } }, g.osc1.ppp),
        (0x044, { g with osc1 := { g.osc1 with start := v } }, g.osc1.start),
        (0x048, { g with sampleRate := v }, g.sampleRate),
        (0x04C, { g with pcmFormat := v.extractLsb' 0 1 }, 0#31 ++ g.pcmFormat),
        (0x050, { g with sampleCount := v.extractLsb' 0 17 }, 0#15 ++ g.sampleCount),
        (0x054, { g with fmDevPpp := v }, g.fmDevPpp),
        (0x058, { g with fmDevScale := v }, g.fmDevScale),
        (0x05C, { g with fmSeed := v }, g.fmSeed) ] : List (Word × Regs × Word)),
      busRead row.1 s = (.data row.2.2, s) ∧
      (s.ctrl.busy = false → ∃ t, busWrite row.1 v s = (.ok, t) ∧
        t = { s with regs := row.2.1, tableValid := t.tableValid })

/-- 10 R33, R34, 20 R87, R90, 60 R388: in every state, a write to an RO register or to a reserved offset is answered OK and ignored;
an error register and a CFG register read their own value; a reserved offset reads 0, and CMD reads 0. -/
def Obligations.ReadOnlyAndReservedIgnoreWrites : Prop :=
  (∀ s (r : Reg) v, r.access = .ro → busWrite (BitVec.ofNat 32 r.offset) v s = (.ok, s)) ∧
  (∀ s : State,
    busRead 0x00000060#32 s = (.data (0#28 ++ s.regs.errCode), s) ∧
    busRead 0x00000064#32 s = (.data s.regs.errIndex, s) ∧
    busRead 0x00000068#32 s = (.data s.regs.errSample, s) ∧
    busRead 0x0000006C#32 s = (.data s.regs.cfg.tableDepth, s) ∧
    busRead 0x00000070#32 s = (.data s.regs.cfg.maxPixels, s) ∧
    busRead 0x00000074#32 s = (.data s.regs.cfg.maxLanes, s)) ∧
  (∀ s a v, a.toNat % 4 = 0 → 0x078 ≤ a.toNat → a.toNat < 0x1000 →
    busWrite a v s = (.ok, s) ∧ busRead a s = (.data 0, s)) ∧
  ∀ s, busRead 0x00000000#32 s = (.data 0, s)

/-- 20 R90: while BUSY, a write to an RW register or to SRAM is answered OK, sets BUSY_WRITE and changes nothing else. -/
def Obligations.BusyDropsWrites : Prop :=
  ∀ s v, s.ctrl.busy = true →
    (∀ r : Reg, r.access = .rw → busWrite (BitVec.ofNat 32 r.offset) v s = (.ok, { s with busyWrite := true })) ∧
    ∀ a, a.toNat % 4 = 0 → 0x00100000 ≤ a.toNat → a.toNat + 4 ≤ 0x00100000 + 2 * s.regs.tableDepth →
      busWrite a v s = (.ok, { s with busyWrite := true })

/-- 10 R34: in every state, a write to STATUS clears BUSY_WRITE if bit 8 is 1 and CMD_REJECT if bit 9 is 1, and does nothing
else. -/
def Obligations.StatusFlagsClearOnOne : Prop :=
  ∀ s (v : Word), busWrite 0x00000004#32 v s = (.ok, { s with
    busyWrite := if v.toNat / 2 ^ 8 % 2 = 1 then false else s.busyWrite
    cmdReject := if v.toNat / 2 ^ 9 % 2 = 1 then false else s.cmdReject })

/-- 44 R289: an accepted write to an input of PREINT, or to any SRAM word, clears TABLE_VALID, whatever the value; a write to
any other register leaves it as it is. -/
def Obligations.AcceptedWriteClearsTableValid : Prop :=
  ∀ s v, s.ctrl.busy = false →
    (∀ r ∈ [.hTotal, .vTotal, .vsyncHz, .sampleRate, .pcmFormat, .sampleCount, .fmDevPpp, .fmSeed],
      (busWrite (BitVec.ofNat 32 (Reg.offset r)) v s).2.tableValid = false) ∧
    (∀ r ∉ [.hTotal, .vTotal, .vsyncHz, .sampleRate, .pcmFormat, .sampleCount, .fmDevPpp, .fmSeed],
      (busWrite (BitVec.ofNat 32 (Reg.offset r)) v s).2.tableValid = s.tableValid) ∧
    ∀ a, a.toNat % 4 = 0 → 0x00100000 ≤ a.toNat → a.toNat + 4 ≤ 0x00100000 + 2 * s.regs.tableDepth →
      (busWrite a v s).2.tableValid = false

/-- 10 R33, R37, R32: the bits of STATUS; the code of every controller state; BUSY is 1 iff STATE is 1 to 5, HALTED iff STATE
is 7, and STATE is never 6; PREINTEGRATING is STATE 4 and a RENDER in progress STATE 1 to 3 (20 R91). Every other bit is 0: none is
for an error of the host's loader (43 R258). -/
def Obligations.StatusWordLayout : Prop :=
  ∀ s, ∃ w : Word, busRead 0x00000004#32 s = (.data w, s) ∧
    w.toNat = s.ctrl.busy.toNat + 2 * s.ctrl.code.toNat + 16 * s.tableValid.toNat + 32 * s.ctrl.isHalted.toNat
      + 256 * s.busyWrite.toNat + 512 * s.cmdReject.toNat ∧
    s.ctrl.code.toNat = (match s.ctrl with
      | .idle => 0
      | .dispatching => 1
      | .collecting _ => 2
      | .composing _ => 3
      | .preintegrating _ _ => 4
      | .advancing => 5
      | .halted => 7) ∧
    (s.ctrl.busy = true ↔ 1 ≤ s.ctrl.code.toNat ∧ s.ctrl.code.toNat ≤ 5) ∧
    (s.ctrl.isHalted = true ↔ s.ctrl.code.toNat = 7) ∧ s.ctrl.code.toNat ≠ 6 ∧
    (s.ctrl.preintegratingNow = true ↔ s.ctrl.code.toNat = 4) ∧
    (s.ctrl.rendering = true ↔ 1 ≤ s.ctrl.code.toNat ∧ s.ctrl.code.toNat ≤ 3) ∧
    ∀ i, i = 6 ∨ i = 7 ∨ 10 ≤ i → w.getLsbD i = false

/-- 10 R36: DOTCLOCK_LO, DOTCLOCK_HI and FRAME_PIXELS read `HT*VT*VS` (48 bits) and `HT*VT` (32 bits) exactly, from what
H_TOTAL, V_TOTAL and VSYNC_HZ read. 00 R14: the named quantities F, DC, P, SR and NS that the commands compute with are those of
the registers as they read; the sizes are the parameters'. -/
def Obligations.DerivedRegistersAreExact : Prop :=
  ∀ s, ∃ ht vt hd vd vs sr ns lo hi f : Word,
    busRead 0x00000008#32 s = (.data ht, s) ∧ busRead 0x0000000C#32 s = (.data vt, s) ∧
    busRead 0x00000018#32 s = (.data vs, s) ∧ busRead 0x0000001C#32 s = (.data lo, s) ∧
    busRead 0x00000020#32 s = (.data hi, s) ∧ busRead 0x00000024#32 s = (.data f, s) ∧
    busRead 0x00000010#32 s = (.data hd, s) ∧ busRead 0x00000014#32 s = (.data vd, s) ∧
    busRead 0x00000048#32 s = (.data sr, s) ∧ busRead 0x00000050#32 s = (.data ns, s) ∧
    f.toNat = ht.toNat * vt.toNat ∧ lo.toNat + 2 ^ 32 * hi.toNat = ht.toNat * vt.toNat * vs.toNat ∧
    hi.toNat < 2 ^ 16 ∧
    s.regs.framePixels = ht.toNat * vt.toNat ∧ s.regs.dotClock = ht.toNat * vt.toNat * vs.toNat ∧
    s.regs.visiblePixels = hd.toNat * vd.toNat ∧ s.regs.sr = sr.toNat ∧ s.regs.ns = ns.toNat ∧
    s.regs.tableDepth = s.regs.cfg.tableDepth.toNat ∧ s.regs.maxPixels = s.regs.cfg.maxPixels.toNat ∧
    s.regs.maxLanes = s.regs.cfg.maxLanes.toNat

/-! ## The bus and the memories -/

/-- 20 R84, R85, R90: an accepted write to an SRAM word puts byte `i` of the value at the address plus `i`, and a read returns
the value. No other byte changes, and nothing else but TABLE_VALID. -/
def Obligations.SramWordReadsBack : Prop :=
  ∀ s a v, s.ctrl.busy = false → a.toNat % 4 = 0 → 0x00100000 ≤ a.toNat →
    a.toNat + 4 ≤ 0x00100000 + 2 * s.regs.tableDepth →
    ∃ t, busWrite a v s = (.ok, t) ∧ t = { s with tableValid := false, mem := t.mem } ∧
      busRead a t = (.data v, t) ∧
      (∀ i < 4, t.byte (a.toNat + i) = v.extractLsb' (8 * i) 8) ∧
      ∀ x, x < a.toNat ∨ a.toNat + 4 ≤ x → t.byte x = s.byte x

/-- 20 R83, R86, R80: a misaligned or unmapped access, and a write to the table window or the frame buffer, is answered
BUSERR and changes no state. -/
def Obligations.BusErrorsChangeNothing : Prop :=
  ∀ s (a v : Word), paramsOk s.regs.cfg = true →
    (a.toNat % 4 ≠ 0 → busRead a s = (.busErr, s) ∧ busWrite a v s = (.busErr, s)) ∧
    (0x1000 ≤ a.toNat → ¬ InMemories s.regs a.toNat → busRead a s = (.busErr, s) ∧ busWrite a v s = (.busErr, s)) ∧
    (0x00200000 ≤ a.toNat → a.toNat < 0x00200000 + 16 * s.regs.tableDepth → busWrite a v s = (.busErr, s)) ∧
    (0x01000000 ≤ a.toNat → a.toNat < 0x01000000 + 4 * s.regs.maxPixels → busWrite a v s = (.busErr, s))

/-- 20 R80, R84, R91, 30 R125: a read of SRAM returns its four bytes, little-endian; so does a read of the table window outside
PREINTEGRATING, RAW zero-extended, and of the frame buffer outside a RENDER. The words of entry `k` are, in this order, the RAW,
INC, CUM and START of the entry that PREINT builds and the lookups read. The regions begin where R80 says, and the size parameters
fit as 00 R7 asks. -/
def Obligations.MemoryWindowsReadTheirBytes : Prop :=
  (sramBase = 0x00100000 ∧ tblBase = 0x00200000 ∧ fbBase = 0x01000000) ∧
  (∀ p : Config.Params, paramsOk p = true ↔
    2 * p.tableDepth.toNat ≤ 2 ^ 20 ∧ 16 * p.tableDepth.toNat ≤ 2 ^ 20 ∧ 4 * p.maxPixels.toNat ≤ 2 ^ 24) ∧
  ∀ s, paramsOk s.regs.cfg = true →
    (∀ a i, i < 4 → (s.word a).extractLsb' (8 * i) 8 = s.byte (a + i)) ∧
    (∀ o, o % 4 = 0 → o + 4 ≤ 2 * s.regs.tableDepth →
      busRead (BitVec.ofNat 32 (0x00100000 + o)) s = (.data (s.word (0x00100000 + o)), s)) ∧
    (∀ k < s.regs.tableDepth, s.ctrl.preintegratingNow = false →
      busRead (BitVec.ofNat 32 (0x00200000 + 16 * k)) s =
        (.data (0#16 ++ s.byte (0x00200000 + 16 * k + 1) ++ s.byte (0x00200000 + 16 * k)), s) ∧
      ∀ j, j = 4 ∨ j = 8 ∨ j = 12 → busRead (BitVec.ofNat 32 (0x00200000 + 16 * k + j)) s =
        (.data (s.word (0x00200000 + 16 * k + j)), s)) ∧
    (∀ k < s.regs.tableDepth, s.ctrl.preintegratingNow = false →
      busRead (BitVec.ofNat 32 (0x00200000 + 16 * k)) s = (.data (0#16 ++ (tblEntry s k).raw), s) ∧
      busRead (BitVec.ofNat 32 (0x00200000 + 16 * k + 4)) s = (.data (tblEntry s k).inc, s) ∧
      busRead (BitVec.ofNat 32 (0x00200000 + 16 * k + 8)) s = (.data (tblEntry s k).cum, s) ∧
      busRead (BitVec.ofNat 32 (0x00200000 + 16 * k + 12)) s = (.data (tblEntry s k).start, s)) ∧
    ∀ v < s.regs.maxPixels, s.ctrl.rendering = false →
      busRead (BitVec.ofNat 32 (0x01000000 + 4 * v)) s = (.data (s.word (0x01000000 + 4 * v)), s)

/-- 20 R89, R91: no read changes the block. A read of the table window during PREINTEGRATING, or of the frame buffer during a
RENDER, returns a fresh unspecified value, which the model counts (log 2); every other read changes nothing at all. -/
def Obligations.ReadsLeaveTheBlockAlone : Prop :=
  ∀ s (a : Word), paramsOk s.regs.cfg = true →
    if a.toNat % 4 = 0 ∧
        ((s.ctrl.preintegratingNow = true ∧ 0x00200000 ≤ a.toNat ∧
            a.toNat < 0x00200000 + 16 * s.regs.tableDepth) ∨
          (s.ctrl.rendering = true ∧ 0x01000000 ≤ a.toNat ∧ a.toNat < 0x01000000 + 4 * s.regs.maxPixels)) then
      busRead a s = (.data (Config.unspecifiedRead s.draws), { s with draws := s.draws + 1 })
    else (busRead a s).2 = s

/-! ## Reset -/

/-- 70 R420, R421: reset, in any state, leaves the block in IDLE with every flag clear, every register field 0 and every
register reading 0 but for the CFG constants, and every memory byte a fresh draw. The host's queue and answers and the schedule
are the model's and are not touched (log 12). -/
def Obligations.ResetClearsTheBlock : Prop :=
  ∀ s ms, s.moves = .reset :: ms →
    ∃ t, step s = .next t ∧ t.ctrl = .idle ∧ t.tableValid = false ∧ t.busyWrite = false ∧ t.cmdReject = false ∧
      t.regs = {
        hTotal := 0, vTotal := 0, hDisplay := 0, vDisplay := 0, vsyncHz := 0, threads := 0, src := 0, amInfo := 0
        osc0 := { wave := 0, ppp := 0, start := 0 }, osc1 := { wave := 0, ppp := 0, start := 0 }
        sampleRate := 0, pcmFormat := 0, sampleCount := 0, fmDevPpp := 0, fmDevScale := 0, fmSeed := 0
        errCode := 0, errIndex := 0, errSample := 0, cfg := s.regs.cfg } ∧
      (∀ r, readReg r t =
        if r ∈ [.cfgTableDepth, .cfgMaxPixels, .cfgMaxLanes] then readReg r s else 0) ∧
      t.resets = s.resets + 1 ∧ (∀ x, t.byte x = Config.ramAtReset (s.resets + 1) x) ∧
      t.ops = s.ops ∧ t.replies = s.replies ∧ t.moves = ms ∧ t.draws = s.draws

/-- 95 L2-9, 70 R420, R422: the machine right after reset is in IDLE, its registers read 0 but for the CFG constants at the
default parameters, and with no operation of the host it stays as it is. -/
def Obligations.ResetStateWaitsInIdle : Prop :=
  State.reset.ctrl = .idle ∧ step State.reset = .next State.reset ∧
  (∀ r, r ∉ [.cfgTableDepth, .cfgMaxPixels, .cfgMaxLanes] → readReg r State.reset = 0) ∧
  readReg .cfgTableDepth State.reset = 0x00010000 ∧ readReg .cfgMaxPixels State.reset = 0x00400000 ∧
  readReg .cfgMaxLanes State.reset = 0x00000010

/-- 60 R387, 10 R43: a step from HALTED stays in HALTED with the error registers as they are, unless it is a reset. -/
def Obligations.OnlyResetLeavesHalted : Prop :=
  ∀ s t, s.ctrl = .halted → step s = .next t →
    (t.ctrl = .halted ∧ t.regs.errCode = s.regs.errCode ∧ t.regs.errIndex = s.regs.errIndex ∧
      t.regs.errSample = s.regs.errSample) ∨ ∃ ms, s.moves = .reset :: ms

/-! ## Whole-machine rules -/

/-- 60 R385, R380, R390, 45 R336: a step that enters HALTED writes the error registers, with a code of the block's own errors and
none for the host's, and the controller state, and nothing else of the block; what remains is the host's queue, its answers and the schedule, which are the model's (log 7, 8). -/
def Obligations.NothingCommittedOnError : Prop :=
  ∀ s t, s.ctrl ≠ .halted → step s = .next t → t.ctrl = .halted →
    ∃ code index sample, 1 ≤ code.toNat ∧ code.toNat ≤ 4 ∧
      t = { haltedWith s code index sample with ops := t.ops, replies := t.replies, moves := t.moves }

/-- 10 R43, R44: the error registers change only in a step that enters HALTED or in a reset, which sets them to 0; the CFG
registers never change. -/
def Obligations.ErrorRegistersWrittenOnlyOnEntry : Prop :=
  ∀ s t, step s = .next t → t.regs.cfg = s.regs.cfg ∧
    ((t.regs.errCode = s.regs.errCode ∧ t.regs.errIndex = s.regs.errIndex ∧
        t.regs.errSample = s.regs.errSample) ∨
      (s.ctrl ≠ .halted ∧ t.ctrl = .halted) ∨
      ((∃ ms, s.moves = .reset :: ms) ∧ t.regs.errCode = 0 ∧ t.regs.errIndex = 0 ∧ t.regs.errSample = 0))

/-- 44 R289, 45 R336: TABLE_VALID is set only by the last step of a PREINT, or by a PREINT that the host's write runs to its
end in one step (log 8: the schedule runs it whole, or lays nothing down); the block is IDLE after either. A PREINT that is only
begun sets nothing. -/
def Obligations.OnlyPreintValidatesTheTable : Prop :=
  ∀ s t, step s = .next t → s.tableValid = false → t.tableValid = true →
    (∃ k c, s.ctrl = .preintegrating k c ∧ s.regs.ns ≤ k ∧ t.ctrl = .idle) ∨
      (s.ctrl = .idle ∧ t.ctrl = .idle ∧ (s.moves = [] ∨ ∃ ms, s.moves = .hostRun :: ms) ∧
        ∃ rest, s.ops = .write 0x00000000#32 0x00000001#32 :: rest)

/-- 10 R45, R46, R47; 20 R92: apart from a reset, a byte of SRAM changes only by an accepted write of the host to its word, a
byte of the table only by PREINT, and a byte of the frame buffer only by RENDER. -/
def Obligations.OnlyTheirWritersChangeTheMemories : Prop :=
  ∀ s t x, step s = .next t → paramsOk s.regs.cfg = true → (∀ ms, s.moves ≠ .reset :: ms) →
    t.byte x ≠ s.byte x →
    (x < tblBase → s.ctrl.busy = false ∧ ∃ a v rest, s.ops = .write a v :: rest ∧ a.toNat ≤ x ∧ x < a.toNat + 4) ∧
    (tblBase ≤ x → x < fbBase → s.ctrl.preintegratingNow = true ∨
      (s.ctrl = .idle ∧ ∃ rest, s.ops = .write 0x00000000#32 0x00000001#32 :: rest)) ∧
    (fbBase ≤ x → s.ctrl.rendering = true ∨
      (s.ctrl = .idle ∧ ∃ rest, s.ops = .write 0x00000000#32 0x00000002#32 :: rest))

/-- 10 R49: from one state of a command in progress to the next, no register and no byte of sample RAM changes, and no byte
of the table unless the command is PREINT. -/
def Obligations.SnapshotConstantWhileBusy : Prop :=
  ∀ s t, s.ctrl.busy = true → step s = .next t → t.ctrl.busy = true →
    t.regs = s.regs ∧ t.tableValid = s.tableValid ∧ (∀ x < tblBase, t.byte x = s.byte x) ∧
      (s.ctrl.preintegratingNow = false → ∀ x, t.byte x = s.byte x)

/-- 45 R329, R331; 20 R88; 60 R395: if an accepted command is begun, and any moves of the controller and the workers, in any
order, bring it to IDLE or HALTED, then they leave the very state that `exec` leaves. With moves of the host among them, as
long as the command is in progress, they leave it but for what the host's transactions leave by themselves: BUSY_WRITE,
CMD_REJECT, and the model's own fields for the host (the cut into moves is the model's, log 8, 9). -/
def Obligations.ScheduleDoesNotMatter : Prop :=
  ∀ i s ms t, s.ctrl = .idle →
    Host.Core.run core ms.length { beginCommand i s with moves := ms } = .next t → t.ctrl.busy = false →
    ((∀ m ∈ ms, m.ofBlock) → exec i { s with moves := [] } = .next t) ∧
    ((∀ m ∈ ms, m ≠ .reset) →
      (∀ k < ms.length, ∀ u, Host.Core.run core k { beginCommand i s with moves := ms } = .next u → u.ctrl.busy = true) →
      ∃ u, exec i { s with moves := [] } = .next u ∧
        t = { u with
          busyWrite := t.busyWrite
          cmdReject := t.cmdReject
          draws := t.draws
          ops := t.ops
          replies := t.replies } ∧
        ∀ x, t.byte x = u.byte x)

/-- 45 R335, 70 R434: an accepted command reaches IDLE or HALTED under every schedule, the host's moves among it, that is
weakly fair to the controller and the workers; under one that is fair to the host too, every WAIT loop ends, wherever in a
command it begins; and with no schedule laid down the command takes at most `NS + P + THREADS + 4` steps (the cut into steps
is the model's, log 8, 9). -/
def Obligations.AcceptedCommandsFinish : Prop :=
  (∀ i s, s.ctrl = .idle →
    (∀ σ, FairToBlock σ (beginCommand i s) →
      ∃ n t, runUnder σ (beginCommand i s) n = .next t ∧ t.ctrl.busy = false) ∧
    ∃ n t, n ≤ s.regs.ns + s.regs.visiblePixels + s.regs.threads.toNat + 4 ∧
      Host.Core.run core n { beginCommand i s with moves := [] } = .next t ∧ t.ctrl.busy = false) ∧
  ∀ s σ rest, Safe s → s.ops = .wait :: rest → FairToBlock σ s → FairToHost σ s →
    ∃ n t, runUnder σ s n = .next t ∧ t.ops = rest ∧ t.ctrl.busy = false

/-- The invariant holds right after reset. -/
def Obligations.SafeAtReset : Prop := Safe State.reset

/-- Every step keeps the invariant: the size parameters fit (00 R7), the store is canonical and lists bytes of the memories
only (20 R80), the error registers are 0 outside HALTED (60 R385), a valid table is the one its inputs give (44 R289), and
a command in progress has passed its checks and has made, so far, what the rules say (44 R283; 45 R326). -/
def Obligations.SafeIsKept : Prop := ∀ s t, Safe s → step s = .next t → Safe t

/-! ## The phase datapath -/

/-- 40 R161, R162, R165: PADD and PSCALE are addition and multiplication mod 2^32, and the ring laws. -/
def Obligations.PhaseRingLaws : Prop :=
  (∀ a b, (padd a b).toNat = (a.toNat + b.toNat) % 2 ^ 32) ∧
  (∀ p n, ((pscale p n).toNat : Int) = (p.toNat : Int) * n % 2 ^ 32) ∧
  (∀ p n, pscale p n = pscale p (n % 2 ^ 32)) ∧
  (∀ a b c, padd (padd a b) c = padd a (padd b c)) ∧ (∀ a b, padd a b = padd b a) ∧ (∀ a, padd a 0 = a) ∧
  (∀ p m n, pscale p (m + n) = padd (pscale p m) (pscale p n)) ∧
  ∀ p m n, pscale (pscale p m) n = pscale p (m * n)

/-- 40 R166, R167: the phase at a total index, START plus PPP times the index; the phase after a whole number of DotClocks,
when it is periodic in the DotClock, its period in general, and the source's scenario, where it is not. -/
def Obligations.PhasePeriodicity : Prop :=
  (∀ (o : Osc) (t : Nat), oscPhase o t = o.start + o.ppp * BitVec.ofNat 32 t ∧ oscPhase o t = padd o.start (pscale o.ppp t)) ∧
  (∀ o : Osc, oscPhase o 0 = o.start ∧ (o.start = 0 → o.ppp = 0x028F5C29 → oscPhase o 50 = 0x80000002)) ∧
  (∀ (o : Osc) (dc i j : Nat) (k : Int), (j : Int) = i + k * dc →
    oscPhase o j = padd (oscPhase o i) (pscale (pscale o.ppp dc) k)) ∧
  (∀ (o : Osc) (dc : Nat), (∀ (i j : Nat) (k : Int), (j : Int) = i + k * dc → oscPhase o j = oscPhase o i) ↔
    pscale o.ppp dc = 0) ∧
  (∀ (o : Osc) (n : Nat), (∀ i, oscPhase o (i + n) = oscPhase o i) ↔
    2 ^ 32 / Nat.gcd o.ppp.toNat (2 ^ 32) ∣ n) ∧
  pscale (fromFraction (.ofRat (1000 / 100000))) 100000 = 4000

/-- 40 R163, R164, R168: the PhaseValue nearest to any real number of turns, ties upward, then wrapped; whole turns do not
matter; FROM_FRACTION brings back the PhaseValue that TO_FRACTION was given; the host's conversion of a real frequency, and
its integer form. -/
def Obligations.FractionConversions : Prop :=
  (∀ f : ExactReal, ((fromFraction f).toNat : Int) = ⌊f.val * 2 ^ 32 + 1 / 2⌋ % 2 ^ 32) ∧
  (∀ (f g : ExactReal) (m : Int), g.val = f.val + m → fromFraction g = fromFraction f) ∧
  (∀ p, 0 ≤ toFraction p ∧ toFraction p < 1 ∧ toFraction p * 2 ^ 32 = (p.toNat : ℚ) ∧
    ∀ f : ExactReal, f.val = toFraction p → fromFraction f = p) ∧
  ∀ (f : ExactReal) (dc : Nat), 1 ≤ dc →
    (∀ g : ExactReal, g.val = f.val / dc → hostPpp f dc = fromFraction g) ∧
    ∀ n : Int, f.val = n → hostPpp f dc = hostPppInt n dc

/-- 41 R195, R196, 40 R169: the next frame's phases go on where the last frame's end, for one frame and for any number of
ADVANCE commands, whatever comes between them that leaves PPP, START, H_TOTAL and V_TOTAL alone; and the commands that may
come between leave them alone. -/
def Obligations.OscillatorsAreContinuous : Prop :=
  (∀ (o : Osc) (c t : Nat), (oscNextFrame o c).start = oscPhase o c ∧ oscPhase (oscNextFrame o c) t = oscPhase o (c + t)) ∧
  (∀ (m : Nat) (pre post : Nat → State),
    (∀ i < m, (pre i).ctrl = .idle ∧ exec .advance (pre i) = .next (post i) ∧ (post i).ctrl = .idle ∧
      SamePhases (post i).regs (pre (i + 1)).regs) →
    ∀ x, (pre m).regs.osc0.start =
        padd (pre 0).regs.osc0.start (pscale (pre 0).regs.osc0.ppp (m * (pre 0).regs.framePixels : Nat)) ∧
      (pre m).regs.osc1.start =
        padd (pre 0).regs.osc1.start (pscale (pre 0).regs.osc1.ppp (m * (pre 0).regs.framePixels : Nat)) ∧
      oscPhase (pre m).regs.osc0 x = oscPhase (pre 0).regs.osc0 (m * (pre 0).regs.framePixels + x) ∧
      oscPhase (pre m).regs.osc1 x = oscPhase (pre 0).regs.osc1 (m * (pre 0).regs.framePixels + x)) ∧
  ∀ i s t, i = .nop ∨ i = .preint ∨ i = .render → exec i s = .next t → SamePhases s.regs t.regs

/-! ## The waveforms -/

/-- 41 R190: the square is +1 in the first half turn and -1 in the second. -/
def Obligations.SquareHalves : Prop :=
  (∀ p, p.toNat < 0x80000000 → square p = 1) ∧ (∀ p, 0x80000000 ≤ p.toNat → square p = -1) ∧
  square 0x7FFFFFFF = 1 ∧ square 0x80000000 = -1 ∧ square 0xFFFFFFFF = -1 ∧ square 0 = 1

/-- 41 R191 S1, S2: the sine is in [-1, 1] and exact at the quadrant points. -/
def Obligations.SineRangeAndQuadrants : Prop :=
  (∀ p, -1 ≤ (sine p).val ∧ (sine p).val ≤ 1) ∧
  (sine 0x00000000).val = 0 ∧ (sine 0x40000000).val = 1 ∧ (sine 0x80000000).val = 0 ∧ (sine 0xC0000000).val = -1

/-- 41 R191 S3, 00 R8: the tolerance is positive, and the sine is within it of the true one. -/
def Obligations.SineAccuracy : Prop :=
  0 < sinTol ∧ ∀ p, |(sine p).val - Real.sin (2 * Real.pi * (p.toNat : ℝ) / 2 ^ 32)| ≤ sinTol

/-- 41 R191, 00 R8, 93 U1: every real sine that S1 to S3 admit, under any tolerance, is one the model admits: some error
function gives it; the model's sine is the one that the build's free tolerance and free error give (log 3; log 5 for a tolerance
that is not positive). -/
def Obligations.EveryAdmissibleSineIsModelled : Prop :=
  (∀ p, sine p = sineOf sinTol Config.sineError p) ∧
  (sinTol = if 0 < Config.sineTolerance then Config.sineTolerance else 1 / 2 ^ 20) ∧
  ∀ (tol : ℝ) (f : Phase → ℝ), (∀ p, -1 ≤ f p ∧ f p ≤ 1) →
    f 0x00000000 = 0 → f 0x40000000 = 1 → f 0x80000000 = 0 → f 0xC0000000 = -1 →
    (∀ p, |f p - Real.sin (2 * Real.pi * (p.toNat : ℝ) / 2 ^ 32)| ≤ tol) →
    ∃ err, ∀ p, (sineOf tol err p).val = f p

/-! ## The signals -/

/-- 10 R38, R39, 30 R128: the source that each code of MODE.SRC names, and the waveform that each code of WAVE names; 41 R192: what
the waveforms are. 42 R223, R221, R222, 43 R253, 44 R284: what each source gives at a total index, as a real number, and when a
sample lookup fails. -/
def Obligations.SignalOfEachSource : Prop :=
  (sourceOf 0#3 = some .carrier ∧ sourceOf 1#3 = some .info ∧ sourceOf 2#3 = some .pcm ∧ sourceOf 3#3 = some .am ∧
    sourceOf 4#3 = some .fm ∧ sourceOf 5#3 = none ∧ sourceOf 6#3 = none ∧ sourceOf 7#3 = none) ∧
  (waveOf 0#1 = .sine ∧ waveOf 1#1 = .square) ∧
  (∀ p, (wave .sine p).val = (sine p).val ∧ (wave .square p).val = (square p : ℝ)) ∧
  ∀ s t, ∃ (k : Nat) (carrier info : ℝ), k = sampleIndex s.regs t ∧
    carrier = (wave (waveOf s.regs.osc0.wave) (oscPhase s.regs.osc0 t)).val ∧
    info = (wave (waveOf s.regs.osc1.wave) (oscPhase s.regs.osc1 t)).val ∧
    (signal .carrier s t).map ExactReal.val = .ok carrier ∧ (signal .info s t).map ExactReal.val = .ok info ∧
    (s.regs.ns ≤ k → signal .pcm s t = .fail t k ∧ ipcm s t = .fail t k ∧ signal .fm s t = .fail t k ∧
      (s.regs.amInfo = 1#1 → signal .am s t = .fail t k)) ∧
    (k < s.regs.ns → (signal .pcm s t).map ExactReal.val = .ok (ampSample s k : ℝ) ∧
      (s.regs.amInfo = 1#1 → (signal .am s t).map ExactReal.val = .ok (((ampSample s k : ℝ) + 1) / 2 * carrier)) ∧
      ∃ ph, ph = (tblEntry s k).cum + (tblEntry s k).inc * (BitVec.ofNat 32 t - (tblEntry s k).start) ∧
        ipcm s t = .ok ph ∧ (signal .fm s t).map ExactReal.val = .ok (wave (waveOf s.regs.osc0.wave)
        (oscPhase s.regs.osc0 t + ph * s.regs.fmDevScale)).val) ∧
    (s.regs.amInfo = 0#1 → (signal .am s t).map ExactReal.val = .ok ((info + 1) / 2 * carrier))

/-- 42 R225: every amplitude a signal gives is in [-1, 1]; so are the waveforms, PCM amplitudes are in [-1, 1), and the
normalised information is `(x + 1)/2`, in [0, 1]. -/
def Obligations.SignalStaysInRange : Prop :=
  (∀ src s t a, signal src s t = .ok a → -1 ≤ a.val ∧ a.val ≤ 1) ∧
  (∀ sel p, -1 ≤ (wave sel p).val ∧ (wave sel p).val ≤ 1) ∧
  (∀ s k, -1 ≤ ampSample s k ∧ ampSample s k < 1) ∧
  ∀ x : ExactReal, (Machine.normalize x).val = (x.val + 1) / 2 ∧
    (-1 ≤ x.val → x.val ≤ 1 → 0 ≤ (Machine.normalize x).val ∧ (Machine.normalize x).val ≤ 1)

/-- 45 R324: GRAY is `floor(127.5*a + 128)`, which lies in 0 to 255 for every real amplitude, with the rule's corner cases. -/
def Obligations.GrayIsExactAndBounded : Prop :=
  ∀ a : ExactReal, (-1 ≤ a.val → a.val ≤ 1 → ((gray a).toNat : Int) = ⌊255 / 2 * a.val + 128⌋) ∧
    (a.val = -1 → gray a = 0) ∧ (a.val = 0 → gray a = 128) ∧ (a.val = 1 → gray a = 255) ∧
    (a.val = 2 / 255 → gray a = 129) ∧ (a.val = -1 / 255 → gray a = 127) ∧ (a.val = 1 / 4 → gray a = 159)

/-- 43 R250 to R252, 44 R282; 20 R80, R85: the bytes of sample RAM a sample is in, by their bus addresses; the code and the
amplitude of a sample in each format, and its increment: the general form and the integer form of each format. -/
def Obligations.SamplesAndIncrements : Prop :=
  ∀ s k, incAt s k = fromFraction (.ofRat (ampSample s k * toFraction s.regs.fmDevPpp)) ∧
    (s.regs.pcmFormat = 0#1 → ∃ b : Int, b = (s.byte (0x00100000 + k)).toNat ∧ ((rawSample s k).toNat : Int) = b ∧
      ampSample s k = (b - 128) / 128 ∧
      incAt s k = BitVec.ofInt 32 (((b - 128) * (s.regs.fmDevPpp.toNat : Int) + 64) / 128)) ∧
    (s.regs.pcmFormat = 1#1 → ∃ x : Int, x = (rawSample s k).toInt ∧
      (rawSample s k).toNat = (s.byte (0x00100000 + 2 * k)).toNat + 256 * (s.byte (0x00100000 + 2 * k + 1)).toNat ∧
      ampSample s k = x / 32768 ∧
      incAt s k = BitVec.ofInt 32 ((x * (s.regs.fmDevPpp.toNat : Int) + 16384) / 32768))

/-! ## Sample windows and the integrated phase -/

/-- 44 R280, R281: `START_TIME(k)` is the ceiling of `k*DC/SR`; sample `k` owns exactly the total indices of its window; its
window is empty exactly if it owns none. -/
def Obligations.SampleWindow : Prop :=
  ∀ g : Regs, 1 ≤ g.dotClock → 1 ≤ g.sr →
    (∀ k, (startTime g k : Int) = ⌈((k : ℚ) * g.dotClock) / g.sr⌉) ∧ startTime g 0 = 0 ∧
    (∀ t, (sampleIndex g t : Int) = ⌊((t : ℚ) * g.sr) / g.dotClock⌋) ∧
    (∀ t k, sampleIndex g t = k ↔ startTime g k ≤ t ∧ t < startTime g (k + 1)) ∧
    ∀ k, startTime g k = startTime g (k + 1) ↔ ∀ t, sampleIndex g t ≠ k

/-- 43 R255, R254: a frame's lookups, of every pixel and of the carry, stay within the window iff `NS` is at least
`floor((F-1)*SR/DC) + 1`; when `SR < DC` that is `floor(SR/VS)` or `ceil(SR/VS)`, at most one more than the host's cursor step,
which is `floor(SR/VS + 1/2)`. -/
def Obligations.MinimumWindow : Prop :=
  (∀ sr vs : Nat, 1 ≤ vs → (windowLength sr vs : Int) = ⌊(sr : ℚ) / vs + 1 / 2⌋) ∧
  ∀ g : Regs, configError g False True = none →
    (((∀ v < g.visiblePixels, sampleIndex g (v2t g v) < g.ns) ∧ sampleIndex g (g.framePixels - 1) < g.ns) ↔
      minWindow g ≤ g.ns) ∧
    minWindow g = (g.framePixels - 1) * g.sr / g.dotClock + 1 ∧
    (g.sr < g.dotClock →
      ((minWindow g : Int) = ⌊(g.sr : ℚ) / g.vsyncHz.toNat⌋ ∨ (minWindow g : Int) = ⌈(g.sr : ℚ) / g.vsyncHz.toNat⌉) ∧
      minWindow g ≤ windowLength g.sr g.vsyncHz.toNat + 1)

/-- 44 R285: after a PREINT, the integrated phase looked up at a total index that a sample of the window owns is FM_SEED plus
the increments of all pixels before it. -/
def Obligations.LookupEqualsSequentialSum : Prop :=
  ∀ s u t, s.ctrl = .idle → configError s.regs False True = none → exec .preint s = .next u →
    sampleIndex u.regs t < u.regs.ns →
    ∃ ph, ipcm u t = .ok ph ∧ ph.toNat =
      (s.regs.fmSeed.toNat + ∑ j ∈ Finset.range t, (incAt s (sampleIndex s.regs j)).toNat) % 2 ^ 32

/-- 44 R287, R288: over frames that each PREINT a window and ADVANCE, with all that END_PHASE reads left alone between the two,
whatever else the host does there, and FM_SEED left alone between an ADVANCE and the next PREINT, the integrated phase at total
index `t` of frame `m`, looked up anywhere in the frame, is the first seed plus the increments of every pixel of the frames before
and of the pixels before `t`; so it does not jump at a seam. RENDER and NOP are among what leaves it alone. -/
def Obligations.CarryIsContinuous : Prop :=
  (∀ (n : Nat) (pre post mid done : Nat → State),
    (∀ m ≤ n, (pre m).ctrl = .idle ∧ configError (pre m).regs False True = none ∧
      exec .preint (pre m) = .next (post m) ∧ SameCarry (post m) (mid m) ∧
      exec .advance (mid m) = .next (done m) ∧ (done m).ctrl = .idle) →
    (∀ m < n, (pre (m + 1)).regs.fmSeed = (done m).regs.fmSeed) →
    (∀ m ≤ n, ∀ u t, SameCarry (post m) u → sampleIndex u.regs t < u.regs.ns →
      ∃ ph, ipcm u t = .ok ph ∧ ph.toNat =
        ((pre 0).regs.fmSeed.toNat
          + ∑ i ∈ Finset.range m, ∑ j ∈ Finset.range (pre i).regs.framePixels,
              (incAt (pre i) (sampleIndex (pre i).regs j)).toNat
          + ∑ j ∈ Finset.range t, (incAt (pre m) (sampleIndex (pre m).regs j)).toNat) % 2 ^ 32) ∧
    ∀ m < n, ∀ u, SameCarry (post (m + 1)) u → 0 < u.regs.ns →
      ∃ ph, endPhase (mid m) = .ok ph ∧ ipcm u 0 = .ok ph) ∧
  ∀ i s t, i = .nop ∨ i = .render → exec i s = .next t → SameCarry s t
end

