-- ==== Sys2Proof/Laws/State.lean ====
section
/-! SUPPORT. What each named update of the state leaves in each field. -/

namespace Sys2Proof.Machine

section StoreBytes

variable (s : State) (a : Nat) (bs : List Byte)

@[simp] theorem storeBytes_regs : (s.storeBytes a bs).regs = s.regs := rfl
@[simp] theorem storeBytes_ctrl : (s.storeBytes a bs).ctrl = s.ctrl := rfl
@[simp] theorem storeBytes_tableValid : (s.storeBytes a bs).tableValid = s.tableValid := rfl
@[simp] theorem storeBytes_busyWrite : (s.storeBytes a bs).busyWrite = s.busyWrite := rfl
@[simp] theorem storeBytes_cmdReject : (s.storeBytes a bs).cmdReject = s.cmdReject := rfl
@[simp] theorem storeBytes_mem : (s.storeBytes a bs).mem = Memory.writeRun s.mem a bs := rfl
@[simp] theorem storeBytes_resets : (s.storeBytes a bs).resets = s.resets := rfl
@[simp] theorem storeBytes_draws : (s.storeBytes a bs).draws = s.draws := rfl
@[simp] theorem storeBytes_ops : (s.storeBytes a bs).ops = s.ops := rfl
@[simp] theorem storeBytes_replies : (s.storeBytes a bs).replies = s.replies := rfl
@[simp] theorem storeBytes_moves : (s.storeBytes a bs).moves = s.moves := rfl

end StoreBytes

section SetCtrl

variable (c : Ctrl) (s : State)

@[simp] theorem setCtrl_regs : (s.setCtrl c).regs = s.regs := rfl
@[simp] theorem setCtrl_ctrl : (s.setCtrl c).ctrl = c := rfl
@[simp] theorem setCtrl_tableValid : (s.setCtrl c).tableValid = s.tableValid := rfl
@[simp] theorem setCtrl_busyWrite : (s.setCtrl c).busyWrite = s.busyWrite := rfl
@[simp] theorem setCtrl_cmdReject : (s.setCtrl c).cmdReject = s.cmdReject := rfl
@[simp] theorem setCtrl_mem : (s.setCtrl c).mem = s.mem := rfl
@[simp] theorem setCtrl_resets : (s.setCtrl c).resets = s.resets := rfl
@[simp] theorem setCtrl_draws : (s.setCtrl c).draws = s.draws := rfl
@[simp] theorem setCtrl_ops : (s.setCtrl c).ops = s.ops := rfl
@[simp] theorem setCtrl_replies : (s.setCtrl c).replies = s.replies := rfl
@[simp] theorem setCtrl_moves : (s.setCtrl c).moves = s.moves := rfl
@[simp] theorem setCtrl_byte (x : Nat) : (s.setCtrl c).byte x = s.byte x := rfl
@[simp] theorem setCtrl_word (y : Nat) : (s.setCtrl c).word y = s.word y := rfl
@[simp] theorem setCtrl_tblEntry (y : Nat) : tblEntry (s.setCtrl c) y = tblEntry s y := rfl

end SetCtrl

section SetTableValid

variable (b : Bool) (s : State)

@[simp] theorem setTableValid_regs : (s.setTableValid b).regs = s.regs := rfl
@[simp] theorem setTableValid_ctrl : (s.setTableValid b).ctrl = s.ctrl := rfl
@[simp] theorem setTableValid_tableValid : (s.setTableValid b).tableValid = b := rfl
@[simp] theorem setTableValid_busyWrite : (s.setTableValid b).busyWrite = s.busyWrite := rfl
@[simp] theorem setTableValid_cmdReject : (s.setTableValid b).cmdReject = s.cmdReject := rfl
@[simp] theorem setTableValid_mem : (s.setTableValid b).mem = s.mem := rfl
@[simp] theorem setTableValid_resets : (s.setTableValid b).resets = s.resets := rfl
@[simp] theorem setTableValid_draws : (s.setTableValid b).draws = s.draws := rfl
@[simp] theorem setTableValid_ops : (s.setTableValid b).ops = s.ops := rfl
@[simp] theorem setTableValid_replies : (s.setTableValid b).replies = s.replies := rfl
@[simp] theorem setTableValid_moves : (s.setTableValid b).moves = s.moves := rfl
@[simp] theorem setTableValid_byte (x : Nat) : (s.setTableValid b).byte x = s.byte x := rfl
@[simp] theorem setTableValid_word (y : Nat) : (s.setTableValid b).word y = s.word y := rfl
@[simp] theorem setTableValid_tblEntry (y : Nat) : tblEntry (s.setTableValid b) y = tblEntry s y := rfl

end SetTableValid

section StoreEntry

variable (s : State) (k : Nat) (e : TblEntry)

@[simp] theorem storeEntry_regs : (storeEntry s k e).regs = s.regs := rfl
@[simp] theorem storeEntry_ctrl : (storeEntry s k e).ctrl = s.ctrl := rfl
@[simp] theorem storeEntry_tableValid : (storeEntry s k e).tableValid = s.tableValid := rfl
@[simp] theorem storeEntry_busyWrite : (storeEntry s k e).busyWrite = s.busyWrite := rfl
@[simp] theorem storeEntry_cmdReject : (storeEntry s k e).cmdReject = s.cmdReject := rfl
@[simp] theorem storeEntry_resets : (storeEntry s k e).resets = s.resets := rfl
@[simp] theorem storeEntry_draws : (storeEntry s k e).draws = s.draws := rfl
@[simp] theorem storeEntry_ops : (storeEntry s k e).ops = s.ops := rfl
@[simp] theorem storeEntry_replies : (storeEntry s k e).replies = s.replies := rfl
@[simp] theorem storeEntry_moves : (storeEntry s k e).moves = s.moves := rfl

end StoreEntry

section RaiseError

variable (c : ErrorCode) (i x : Word) (s : State)

@[simp] theorem raiseError_regs : (raiseError c i x s).regs =
    { s.regs with errCode := c.toBits, errIndex := i, errSample := x } := rfl
@[simp] theorem raiseError_ctrl : (raiseError c i x s).ctrl = .halted := rfl
@[simp] theorem raiseError_tableValid : (raiseError c i x s).tableValid = s.tableValid := rfl
@[simp] theorem raiseError_busyWrite : (raiseError c i x s).busyWrite = s.busyWrite := rfl
@[simp] theorem raiseError_cmdReject : (raiseError c i x s).cmdReject = s.cmdReject := rfl
@[simp] theorem raiseError_mem : (raiseError c i x s).mem = s.mem := rfl
@[simp] theorem raiseError_resets : (raiseError c i x s).resets = s.resets := rfl
@[simp] theorem raiseError_draws : (raiseError c i x s).draws = s.draws := rfl
@[simp] theorem raiseError_ops : (raiseError c i x s).ops = s.ops := rfl
@[simp] theorem raiseError_replies : (raiseError c i x s).replies = s.replies := rfl
@[simp] theorem raiseError_moves : (raiseError c i x s).moves = s.moves := rfl
@[simp] theorem raiseError_byte (y : Nat) : (raiseError c i x s).byte y = s.byte y := rfl
@[simp] theorem raiseError_word (y : Nat) : (raiseError c i x s).word y = s.word y := rfl
@[simp] theorem raiseError_tblEntry (y : Nat) : tblEntry (raiseError c i x s) y = tblEntry s y := rfl

end RaiseError

section RaiseRange

variable (t k : Nat) (s : State)

@[simp] theorem raiseRange_regs : (raiseRange t k s).regs =
    { s.regs with errCode := 4, errIndex := BitVec.ofNat 32 t, errSample := sampleWord k } := rfl
@[simp] theorem raiseRange_ctrl : (raiseRange t k s).ctrl = .halted := rfl
@[simp] theorem raiseRange_tableValid : (raiseRange t k s).tableValid = s.tableValid := rfl
@[simp] theorem raiseRange_busyWrite : (raiseRange t k s).busyWrite = s.busyWrite := rfl
@[simp] theorem raiseRange_cmdReject : (raiseRange t k s).cmdReject = s.cmdReject := rfl
@[simp] theorem raiseRange_mem : (raiseRange t k s).mem = s.mem := rfl
@[simp] theorem raiseRange_resets : (raiseRange t k s).resets = s.resets := rfl
@[simp] theorem raiseRange_draws : (raiseRange t k s).draws = s.draws := rfl
@[simp] theorem raiseRange_ops : (raiseRange t k s).ops = s.ops := rfl
@[simp] theorem raiseRange_replies : (raiseRange t k s).replies = s.replies := rfl
@[simp] theorem raiseRange_moves : (raiseRange t k s).moves = s.moves := rfl
@[simp] theorem raiseRange_byte (y : Nat) : (raiseRange t k s).byte y = s.byte y := rfl
@[simp] theorem raiseRange_word (y : Nat) : (raiseRange t k s).word y = s.word y := rfl
@[simp] theorem raiseRange_tblEntry (y : Nat) : tblEntry (raiseRange t k s) y = tblEntry s y := rfl

end RaiseRange

section ResetBlock

variable (s : State)

@[simp] theorem resetBlock_regs : (resetBlock s).regs = Regs.reset s.regs.cfg := rfl
@[simp] theorem resetBlock_ctrl : (resetBlock s).ctrl = .idle := rfl
@[simp] theorem resetBlock_tableValid : (resetBlock s).tableValid = false := rfl
@[simp] theorem resetBlock_busyWrite : (resetBlock s).busyWrite = false := rfl
@[simp] theorem resetBlock_cmdReject : (resetBlock s).cmdReject = false := rfl
@[simp] theorem resetBlock_mem : (resetBlock s).mem = [] := rfl
@[simp] theorem resetBlock_resets : (resetBlock s).resets = s.resets + 1 := rfl
@[simp] theorem resetBlock_draws : (resetBlock s).draws = s.draws := rfl
@[simp] theorem resetBlock_ops : (resetBlock s).ops = s.ops := rfl
@[simp] theorem resetBlock_replies : (resetBlock s).replies = s.replies := rfl
@[simp] theorem resetBlock_moves : (resetBlock s).moves = s.moves := rfl

end ResetBlock

section DropWrite

variable (s : State)

@[simp] theorem dropWrite_regs : (dropWrite s).regs = s.regs := rfl
@[simp] theorem dropWrite_ctrl : (dropWrite s).ctrl = s.ctrl := rfl
@[simp] theorem dropWrite_tableValid : (dropWrite s).tableValid = s.tableValid := rfl
@[simp] theorem dropWrite_busyWrite : (dropWrite s).busyWrite = true := rfl
@[simp] theorem dropWrite_cmdReject : (dropWrite s).cmdReject = s.cmdReject := rfl
@[simp] theorem dropWrite_mem : (dropWrite s).mem = s.mem := rfl
@[simp] theorem dropWrite_resets : (dropWrite s).resets = s.resets := rfl
@[simp] theorem dropWrite_draws : (dropWrite s).draws = s.draws := rfl
@[simp] theorem dropWrite_ops : (dropWrite s).ops = s.ops := rfl
@[simp] theorem dropWrite_replies : (dropWrite s).replies = s.replies := rfl
@[simp] theorem dropWrite_moves : (dropWrite s).moves = s.moves := rfl
@[simp] theorem dropWrite_byte (x : Nat) : (dropWrite s).byte x = s.byte x := rfl
@[simp] theorem dropWrite_word (y : Nat) : (dropWrite s).word y = s.word y := rfl
@[simp] theorem dropWrite_tblEntry (y : Nat) : tblEntry (dropWrite s) y = tblEntry s y := rfl

end DropWrite

section WriteStatus

variable (v : Word) (s : State)

@[simp] theorem writeStatus_regs : (writeStatus v s).regs = s.regs := rfl
@[simp] theorem writeStatus_ctrl : (writeStatus v s).ctrl = s.ctrl := rfl
@[simp] theorem writeStatus_tableValid : (writeStatus v s).tableValid = s.tableValid := rfl
@[simp] theorem writeStatus_busyWrite : (writeStatus v s).busyWrite = (s.busyWrite && !v.getLsbD 8) := rfl
@[simp] theorem writeStatus_cmdReject : (writeStatus v s).cmdReject = (s.cmdReject && !v.getLsbD 9) := rfl
@[simp] theorem writeStatus_mem : (writeStatus v s).mem = s.mem := rfl
@[simp] theorem writeStatus_resets : (writeStatus v s).resets = s.resets := rfl
@[simp] theorem writeStatus_draws : (writeStatus v s).draws = s.draws := rfl
@[simp] theorem writeStatus_ops : (writeStatus v s).ops = s.ops := rfl
@[simp] theorem writeStatus_replies : (writeStatus v s).replies = s.replies := rfl
@[simp] theorem writeStatus_moves : (writeStatus v s).moves = s.moves := rfl
@[simp] theorem writeStatus_byte (x : Nat) : (writeStatus v s).byte x = s.byte x := rfl
@[simp] theorem writeStatus_word (y : Nat) : (writeStatus v s).word y = s.word y := rfl
@[simp] theorem writeStatus_tblEntry (y : Nat) : tblEntry (writeStatus v s) y = tblEntry s y := rfl

end WriteStatus

section Answer

variable (r : BusReply) (s : State)

@[simp] theorem answer_regs : (answer r s).regs = s.regs := rfl
@[simp] theorem answer_ctrl : (answer r s).ctrl = s.ctrl := rfl
@[simp] theorem answer_tableValid : (answer r s).tableValid = s.tableValid := rfl
@[simp] theorem answer_busyWrite : (answer r s).busyWrite = s.busyWrite := rfl
@[simp] theorem answer_cmdReject : (answer r s).cmdReject = s.cmdReject := rfl
@[simp] theorem answer_mem : (answer r s).mem = s.mem := rfl
@[simp] theorem answer_resets : (answer r s).resets = s.resets := rfl
@[simp] theorem answer_draws : (answer r s).draws = s.draws := rfl
@[simp] theorem answer_ops : (answer r s).ops = s.ops := rfl
@[simp] theorem answer_replies : (answer r s).replies = r :: s.replies := rfl
@[simp] theorem answer_moves : (answer r s).moves = s.moves := rfl
@[simp] theorem answer_byte (x : Nat) : (answer r s).byte x = s.byte x := rfl
@[simp] theorem answer_word (y : Nat) : (answer r s).word y = s.word y := rfl
@[simp] theorem answer_tblEntry (y : Nat) : tblEntry (answer r s) y = tblEntry s y := rfl

end Answer

section AdvanceCommit

variable (p : Phase) (s : State)

@[simp] theorem advanceCommit_regs : (advanceCommit p s).regs =
    { s.regs with
        osc0 := oscNextFrame s.regs.osc0 s.regs.framePixels
        osc1 := oscNextFrame s.regs.osc1 s.regs.framePixels
        fmSeed := p } := rfl
@[simp] theorem advanceCommit_ctrl : (advanceCommit p s).ctrl = .idle := rfl
@[simp] theorem advanceCommit_tableValid : (advanceCommit p s).tableValid = false := rfl
@[simp] theorem advanceCommit_busyWrite : (advanceCommit p s).busyWrite = s.busyWrite := rfl
@[simp] theorem advanceCommit_cmdReject : (advanceCommit p s).cmdReject = s.cmdReject := rfl
@[simp] theorem advanceCommit_mem : (advanceCommit p s).mem = s.mem := rfl
@[simp] theorem advanceCommit_resets : (advanceCommit p s).resets = s.resets := rfl
@[simp] theorem advanceCommit_draws : (advanceCommit p s).draws = s.draws := rfl
@[simp] theorem advanceCommit_ops : (advanceCommit p s).ops = s.ops := rfl
@[simp] theorem advanceCommit_replies : (advanceCommit p s).replies = s.replies := rfl
@[simp] theorem advanceCommit_moves : (advanceCommit p s).moves = s.moves := rfl

end AdvanceCommit

section StatusRead

variable (next rest : List HostOp) (s : State)

@[simp] theorem statusRead_regs : (statusRead next s).regs = s.regs := rfl
@[simp] theorem statusRead_ctrl : (statusRead next s).ctrl = s.ctrl := rfl
@[simp] theorem statusRead_tableValid : (statusRead next s).tableValid = s.tableValid := rfl
@[simp] theorem statusRead_busyWrite : (statusRead next s).busyWrite = s.busyWrite := rfl
@[simp] theorem statusRead_cmdReject : (statusRead next s).cmdReject = s.cmdReject := rfl
@[simp] theorem statusRead_mem : (statusRead next s).mem = s.mem := rfl
@[simp] theorem statusRead_resets : (statusRead next s).resets = s.resets := rfl
@[simp] theorem statusRead_draws : (statusRead next s).draws = s.draws := rfl
@[simp] theorem statusRead_moves : (statusRead next s).moves = s.moves := rfl
@[simp] theorem statusRead_ops : (statusRead next s).ops = next := rfl
@[simp] theorem statusRead_replies : (statusRead next s).replies = .data (statusWord s) :: s.replies := rfl

/-- A WAIT is one read of STATUS, as is the look at HALTED; they differ in what the host goes on with. -/
@[simp] theorem waitRead_eq : waitRead rest s = statusRead (if s.ctrl.busy then s.ops else rest) s := rfl
@[simp] theorem stopRead_eq : stopRead rest s = statusRead (if s.ctrl.isHalted then [] else rest) s := rfl

end StatusRead

section PlaceCommand

variable (w : Word) (s : State)

@[simp] theorem placeCommand_regs : (placeCommand w s).regs = s.regs := rfl
@[simp] theorem placeCommand_ctrl : (placeCommand w s).ctrl = s.ctrl := rfl
@[simp] theorem placeCommand_tableValid : (placeCommand w s).tableValid = s.tableValid := rfl
@[simp] theorem placeCommand_busyWrite : (placeCommand w s).busyWrite = s.busyWrite := rfl
@[simp] theorem placeCommand_cmdReject : (placeCommand w s).cmdReject = s.cmdReject := rfl
@[simp] theorem placeCommand_mem : (placeCommand w s).mem = s.mem := rfl
@[simp] theorem placeCommand_resets : (placeCommand w s).resets = s.resets := rfl
@[simp] theorem placeCommand_draws : (placeCommand w s).draws = s.draws := rfl
@[simp] theorem placeCommand_ops : (placeCommand w s).ops =
    .write (BitVec.ofNat 32 (Reg.offset .cmd)) w :: s.ops := rfl
@[simp] theorem placeCommand_replies : (placeCommand w s).replies = s.replies := rfl
@[simp] theorem placeCommand_moves : (placeCommand w s).moves = .hostRun :: s.moves := rfl

end PlaceCommand

/-- Nothing but the controller state and the stored bytes has changed. -/
theorem only_ctrl_mem {s t : State} (h : t = { s with ctrl := t.ctrl, mem := t.mem }) :
    t.regs = s.regs ∧ t.tableValid = s.tableValid ∧ t.busyWrite = s.busyWrite ∧ t.cmdReject = s.cmdReject ∧
      t.resets = s.resets ∧ t.draws = s.draws ∧ t.ops = s.ops ∧ t.replies = s.replies ∧ t.moves = s.moves := by
  refine ⟨?_, ?_, ?_, ?_, ?_, ?_, ?_, ?_, ?_⟩ <;> rw [h]

/-- The same, from the fields. -/
theorem only_ctrl_mem_of {s t : State}
    (h : t.regs = s.regs ∧ t.tableValid = s.tableValid ∧ t.busyWrite = s.busyWrite ∧ t.cmdReject = s.cmdReject ∧
      t.resets = s.resets ∧ t.draws = s.draws ∧ t.ops = s.ops ∧ t.replies = s.replies ∧ t.moves = s.moves) :
    t = { s with ctrl := t.ctrl, mem := t.mem } := by
  obtain ⟨h1, h2, h3, h4, h5, h6, h7, h8, h9⟩ := h
  exact State.ext h1 rfl h2 h3 h4 rfl h5 h6 h7 h8 h9

end Sys2Proof.Machine
end

