-- ==== Sys2Proof/Laws/Memory.lean ====
section
/-! SUPPORT. The laws of the sparse store and of the bytes, words and table entries read from it. -/

namespace Sys2Proof.Machine

/-! ## Cells -/

@[simp] theorem memory_cells_nil (a : Nat) : Memory.cells a [] = [] := rfl

@[simp] theorem memory_cells_cons (a : Nat) (b : Byte) (bs : List Byte) :
    Memory.cells a (b :: bs) = (a, b) :: Memory.cells (a + 1) bs := rfl

theorem memory_cells_bounds (a : Nat) (bs : List Byte) :
    ∀ c ∈ Memory.cells a bs, a ≤ c.1 ∧ c.1 < a + bs.length := by
  induction bs generalizing a with
  | nil => simp
  | cons b bs ih =>
    intro c hc
    rcases List.mem_cons.1 hc with rfl | h
    · simp
    · have := ih (a + 1) c h
      simp only [List.length_cons]
      omega

theorem memory_cells_wf (a : Nat) (bs : List Byte) : Memory.wf (Memory.cells a bs) := by
  induction bs generalizing a with
  | nil => exact .nil
  | cons b bs ih =>
    exact .cons (fun c hc => by have := memory_cells_bounds (a + 1) bs c hc; simp only; omega) (ih (a + 1))

theorem memory_find_cells (a : Nat) (bs : List Byte) (x : Nat) :
    Memory.find (Memory.cells a bs) x = if a ≤ x then bs[x - a]? else none := by
  induction bs generalizing a with
  | nil => simp [Memory.find]
  | cons b bs ih =>
    have ih' := ih (a + 1)
    simp only [Memory.find] at ih' ⊢
    by_cases h : a = x
    · subst h
      simp
    · simp only [memory_cells_cons, List.find?_cons, show (a == x) = false by simp [h]]
      rw [ih']
      by_cases h2 : a + 1 ≤ x
      · have : x - a = x - (a + 1) + 1 := by omega
        simp [h2, show a ≤ x by omega, this]
      · simp [h2, show ¬ a ≤ x by omega]

/-! ## Storing a run of bytes -/

theorem memory_find_append (m n : List Host.Cell) (x : Nat) :
    Memory.find (m ++ n) x = (Memory.find m x).or (Memory.find n x) := by
  simp only [Memory.find, List.find?_append]
  cases List.find? (fun c => c.1 == x) m <;> rfl

theorem memory_find_filter (m : List Host.Cell) (p : Nat → Bool) (x : Nat) :
    Memory.find (m.filter fun c => p c.1) x = if p x then Memory.find m x else none := by
  induction m with
  | nil => simp [Memory.find]
  | cons c m ih =>
    simp only [Memory.find] at ih ⊢
    by_cases hc : c.1 = x
    · subst hc
      cases hp : p c.1
      · simp only [List.filter_cons, hp, Bool.false_eq_true, if_false] at ih ⊢
        exact ih
      · simp [hp]
    · have hb : (c.1 == x) = false := by simp [hc]
      cases hp : p c.1
      · simp only [List.filter_cons, hp, Bool.false_eq_true, if_false, List.find?_cons, hb]
        exact ih
      · simp only [List.filter_cons, hp, if_true, List.find?_cons, hb]
        exact ih

/-- Reading after storing a run: the run where it lies, and everything else as before. -/
theorem memory_find_writeRun (m : List Host.Cell) (a : Nat) (bs : List Byte) (x : Nat) :
    Memory.find (Memory.writeRun m a bs) x =
      if a ≤ x ∧ x < a + bs.length then bs[x - a]? else Memory.find m x := by
  have h1 := memory_find_filter m (fun y => decide (y < a)) x
  have h3 := memory_find_filter m (fun y => decide (a + bs.length ≤ y)) x
  simp only [Memory.writeRun, memory_find_append, memory_find_cells, h1, h3, decide_eq_true_eq]
  by_cases ha : x < a
  · simp [ha, show ¬ a ≤ x by omega, show ¬ a + bs.length ≤ x by omega]
  · by_cases hb : x < a + bs.length
    · have hlt : x - a < bs.length := by omega
      simp [ha, show a ≤ x by omega, hb, hlt]
    · have hn : bs[x - a]? = none := List.getElem?_eq_none (by omega)
      simp [ha, show a ≤ x by omega, hb, hn, show a + bs.length ≤ x by omega]

/-- Storing a run keeps the canonical form. -/
theorem memory_writeRun_wf {m : List Host.Cell} (h : Memory.wf m) (a : Nat) (bs : List Byte) :
    Memory.wf (Memory.writeRun m a bs) := by
  have hc := memory_cells_bounds a bs
  refine List.pairwise_append.2 ⟨List.pairwise_append.2 ⟨h.filter _, memory_cells_wf a bs, ?_⟩, h.filter _, ?_⟩
  · intro x hx y hy
    have := hc y hy
    simp only [List.mem_filter, decide_eq_true_eq] at hx
    omega
  · intro x hx y hy
    simp only [List.mem_append, List.mem_filter, decide_eq_true_eq] at hx hy
    rcases hx with hx | hx
    · omega
    · have := hc x hx
      omega

/-- An address listed after storing a run was listed before or is one of the run's. -/
theorem memory_mem_writeRun {m : List Host.Cell} {a : Nat} {bs : List Byte} {c : Host.Cell}
    (h : c ∈ Memory.writeRun m a bs) : c ∈ m ∨ (a ≤ c.1 ∧ c.1 < a + bs.length) := by
  simp only [Memory.writeRun, List.mem_append, List.mem_filter] at h
  rcases h with (h | h) | h
  · exact .inl h.1
  · exact .inr (memory_cells_bounds a bs c h)
  · exact .inl h.1

/-! ## Bytes and words -/

@[simp] theorem wordBytes_length (v : Word) : (wordBytes v).length = 4 := rfl

/-- A byte depends on the stored bytes and on the reset's draw only. -/
theorem byte_congr {s t : State} (hm : s.mem = t.mem) (hr : s.resets = t.resets) (x : Nat) : s.byte x = t.byte x := by
  simp [State.byte, hm, hr]

theorem word_congr {s t : State} (hm : s.mem = t.mem) (hr : s.resets = t.resets) (x : Nat) : s.word x = t.word x := by
  simp [State.word, byte_congr hm hr]

/-- A byte after storing a run. -/
theorem byte_storeBytes (s : State) (a : Nat) (bs : List Byte) (x : Nat) :
    (s.storeBytes a bs).byte x = if h : a ≤ x ∧ x < a + bs.length then bs[x - a]'(by omega) else s.byte x := by
  simp only [State.byte, storeBytes_mem, storeBytes_resets, memory_find_writeRun]
  split
  · rename_i h
    rw [List.getElem?_eq_getElem (by omega)]
    simp
  · rfl

theorem byte_storeBytes_outside (s : State) {a : Nat} {bs : List Byte} {x : Nat} (h : x < a ∨ a + bs.length ≤ x) :
    (s.storeBytes a bs).byte x = s.byte x := by
  rw [byte_storeBytes, dif_neg (by omega)]

theorem byte_storeBytes_inside (s : State) {a : Nat} {bs : List Byte} {i : Nat} (h : i < bs.length) :
    (s.storeBytes a bs).byte (a + i) = bs[i] := by
  rw [byte_storeBytes, dif_pos (by omega)]
  simp

theorem word_storeBytes_outside (s : State) {a : Nat} {bs : List Byte} {x : Nat} (h : x + 4 ≤ a ∨ a + bs.length ≤ x) :
    (s.storeBytes a bs).word x = s.word x := by
  simp only [State.word]
  rw [byte_storeBytes_outside, byte_storeBytes_outside, byte_storeBytes_outside, byte_storeBytes_outside] <;> omega

/-- The bytes of a word, put together again. -/
theorem word_of_wordBytes (v : Word) :
    v.extractLsb' 24 8 ++ v.extractLsb' 16 8 ++ v.extractLsb' 8 8 ++ v.extractLsb' 0 8 = v := by
  ext i hi
  simp only [BitVec.getElem_append, BitVec.getElem_extractLsb']
  split
  · simp [BitVec.getLsbD_eq_getElem hi]
  · split
    · simp [BitVec.getLsbD_eq_getElem hi, show 8 + (i - 8) = i by omega]
    · split
      · simp [BitVec.getLsbD_eq_getElem hi, show 16 + (i - 8 - 8) = i by omega]
      · simp [BitVec.getLsbD_eq_getElem hi, show 24 + (i - 8 - 8 - 8) = i by omega]

/-- A word within a stored run is put together from the run's bytes. -/
theorem word_storeBytes_inside (s : State) {a i : Nat} {bs : List Byte} (h : i + 4 ≤ bs.length) :
    (s.storeBytes a bs).word (a + i) = bs[i + 3] ++ bs[i + 2] ++ bs[i + 1] ++ bs[i] := by
  simp only [State.word, Nat.add_assoc]
  rw [byte_storeBytes_inside, byte_storeBytes_inside, byte_storeBytes_inside, byte_storeBytes_inside]

/-- The word just stored. -/
theorem word_storeBytes_word (s : State) (a : Nat) (v : Word) : (s.storeBytes a (wordBytes v)).word a = v := by
  have h := word_storeBytes_inside s (a := a) (i := 0) (bs := wordBytes v) (by simp)
  simp only [Nat.add_zero] at h
  rw [h]
  exact word_of_wordBytes v

/-! ## Table entries -/

theorem sramByte_congr {s t : State} (hm : s.mem = t.mem) (hr : s.resets = t.resets) (o : Nat) :
    s.sramByte o = t.sramByte o := byte_congr hm hr _

theorem tblEntry_congr {s t : State} (hm : s.mem = t.mem) (hr : s.resets = t.resets) (k : Nat) :
    tblEntry s k = tblEntry t k := by
  simp [tblEntry, byte_congr hm hr, word_congr hm hr]

/-- A byte outside the sixteen of entry `k` is as it was. -/
theorem byte_storeEntry_outside (s : State) {k x : Nat} (e : TblEntry) (h : x < tblAddr k ∨ tblAddr k + 16 ≤ x) :
    (storeEntry s k e).byte x = s.byte x := by
  simp only [storeEntry]
  rw [byte_storeBytes_outside, byte_storeBytes_outside] <;>
    simp only [List.length_append, wordBytes_length, List.length_cons, List.length_nil] <;> omega

theorem word_storeEntry_outside (s : State) {k x : Nat} (e : TblEntry) (h : x + 4 ≤ tblAddr k ∨ tblAddr k + 16 ≤ x) :
    (storeEntry s k e).word x = s.word x := by
  simp only [State.word]
  rw [byte_storeEntry_outside, byte_storeEntry_outside, byte_storeEntry_outside, byte_storeEntry_outside] <;> omega

/-- The entry just stored. -/
theorem tblEntry_storeEntry_same (s : State) (k : Nat) (e : TblEntry) : tblEntry (storeEntry s k e) k = e := by
  obtain ⟨raw, inc, cum, start⟩ := e
  have hraw : raw.extractLsb' 8 8 ++ raw.extractLsb' 0 8 = raw := by
    ext i hi
    simp only [BitVec.getElem_append, BitVec.getElem_extractLsb']
    split
    · simp [BitVec.getLsbD_eq_getElem hi]
    · simp [BitVec.getLsbD_eq_getElem hi, show 8 + (i - 8) = i by omega]
  simp only [tblEntry, storeEntry, TblEntry.mk.injEq]
  refine ⟨?_, ?_, ?_, ?_⟩
  · rw [byte_storeBytes_outside (x := tblAddr k + 1) _ (Or.inl (by omega)),
      byte_storeBytes_outside (x := tblAddr k) _ (Or.inl (by omega))]
    have h0 := byte_storeBytes_inside s (a := tblAddr k) (i := 0) (bs := [raw.extractLsb' 0 8, raw.extractLsb' 8 8]) (by simp)
    have h1 := byte_storeBytes_inside s (a := tblAddr k) (i := 1) (bs := [raw.extractLsb' 0 8, raw.extractLsb' 8 8]) (by simp)
    simp only [Nat.add_zero] at h0
    rw [h0, h1]
    exact hraw
  · have h := word_storeBytes_inside (s.storeBytes (tblAddr k) [raw.extractLsb' 0 8, raw.extractLsb' 8 8])
      (a := tblAddr k + 4) (i := 0) (bs := wordBytes inc ++ wordBytes cum ++ wordBytes start) (by simp)
    rw [Nat.add_zero] at h
    rw [h]
    exact word_of_wordBytes inc
  · have h := word_storeBytes_inside (s.storeBytes (tblAddr k) [raw.extractLsb' 0 8, raw.extractLsb' 8 8])
      (a := tblAddr k + 4) (i := 4) (bs := wordBytes inc ++ wordBytes cum ++ wordBytes start) (by simp)
    rw [show tblAddr k + 8 = tblAddr k + 4 + 4 by omega, h]
    exact word_of_wordBytes cum
  · have h := word_storeBytes_inside (s.storeBytes (tblAddr k) [raw.extractLsb' 0 8, raw.extractLsb' 8 8])
      (a := tblAddr k + 4) (i := 8) (bs := wordBytes inc ++ wordBytes cum ++ wordBytes start) (by simp)
    rw [show tblAddr k + 12 = tblAddr k + 4 + 8 by omega, h]
    exact word_of_wordBytes start

/-- An entry depends on its own sixteen bytes only. -/
theorem tblEntry_eq_of_bytes {s t : State} {k : Nat}
    (h : ∀ x, tblAddr k ≤ x → x < tblAddr k + 16 → s.byte x = t.byte x) : tblEntry s k = tblEntry t k := by
  simp only [tblEntry, State.word, TblEntry.mk.injEq]
  refine ⟨?_, ?_, ?_, ?_⟩
  · rw [h (tblAddr k), h (tblAddr k + 1)] <;> omega
  · rw [h (tblAddr k + 4), h (tblAddr k + 4 + 1), h (tblAddr k + 4 + 2), h (tblAddr k + 4 + 3)] <;> omega
  · rw [h (tblAddr k + 8), h (tblAddr k + 8 + 1), h (tblAddr k + 8 + 2), h (tblAddr k + 8 + 3)] <;> omega
  · rw [h (tblAddr k + 12), h (tblAddr k + 12 + 1), h (tblAddr k + 12 + 2), h (tblAddr k + 12 + 3)] <;> omega

/-- Another entry is as it was. -/
theorem tblEntry_storeEntry_other (s : State) {j k : Nat} (e : TblEntry) (h : j ≠ k) :
    tblEntry (storeEntry s k e) j = tblEntry s j := by
  refine tblEntry_eq_of_bytes fun x h1 h2 => byte_storeEntry_outside s e ?_
  simp only [tblAddr] at *
  omega

/-- Sample RAM lies below the table. -/
theorem sramByte_storeEntry (s : State) {o k : Nat} (e : TblEntry) (h : o < 2 ^ 20) :
    (storeEntry s k e).sramByte o = s.sramByte o := by
  refine byte_storeEntry_outside s e (Or.inl ?_)
  simp only [tblAddr, tblBase, sramBase]
  omega

theorem storeEntry_wf {s : State} (h : Memory.wf s.mem) (k : Nat) (e : TblEntry) : Memory.wf (storeEntry s k e).mem := by
  simp only [storeEntry, storeBytes_mem]
  exact memory_writeRun_wf (memory_writeRun_wf h _ _) _ _

end Sys2Proof.Machine
end

