-- ==== Sys2Proof/Laws/Ops.lean ====
section
/-! SUPPORT. What the shared operations can do: acceptance, the checks, raising an error. -/

namespace Sys2Proof.Machine

/-! ## Acceptance (45 R320) -/

theorem accept_idle {s : State} (h : s.ctrl = .idle) (run : State → State) : accept run s = run s := by
  simp [accept, h, Ctrl.busy, Ctrl.isHalted]

theorem accept_dropped {s : State} (h : s.ctrl ≠ .idle) (run : State → State) :
    accept run s = { s with cmdReject := true } := by
  cases hc : s.ctrl <;> simp_all [accept, Ctrl.busy, Ctrl.isHalted]

/-- A command is either dropped, which only sets CMD_REJECT, or runs from IDLE. -/
theorem accept_cases (run : State → State) (s : State) :
    (s.ctrl ≠ .idle ∧ accept run s = { s with cmdReject := true }) ∨ (s.ctrl = .idle ∧ accept run s = run s) := by
  by_cases h : s.ctrl = .idle
  · exact .inr ⟨h, accept_idle h run⟩
  · exact .inl ⟨h, accept_dropped h run⟩

/-- The controller state is idle, halted or busy. -/
theorem ctrl_busy_iff (c : Ctrl) : c.busy = true ↔ c ≠ .idle ∧ c ≠ .halted := by
  cases c <;> simp [Ctrl.busy]

theorem ctrl_halted_iff (c : Ctrl) : c.isHalted = true ↔ c = .halted := by
  cases c <;> simp [Ctrl.isHalted]

/-! ## The checks (60 R382) -/

@[simp] theorem firstFailing_nil : firstFailing [] = none := rfl

@[simp] theorem firstFailing_cons (c : Check) (cs : List Check) :
    firstFailing (c :: cs) = if c.holds then firstFailing cs else some c.off := rfl

/-- No check fails iff every check holds. -/
theorem firstFailing_none_iff (cs : List Check) : firstFailing cs = none ↔ ∀ c ∈ cs, c.holds = true := by
  induction cs with
  | nil => simp
  | cons c cs ih => cases h : c.holds <;> simp [h, ih]

theorem firstFailing_append (cs ds : List Check) :
    firstFailing (cs ++ ds) = (firstFailing cs).or (firstFailing ds) := by
  induction cs with
  | nil => simp
  | cons c cs ih => cases h : c.holds <;> simp [h, ih]

/-- Either a check fails, and CONFIG is raised at the first that does, or the command goes on. -/
theorem checked_cases (cs : List Check) (go : State → State) (s : State) :
    (∃ off, firstFailing cs = some off ∧ checked cs go s = raiseError .config off 0 s) ∨
      (firstFailing cs = none ∧ checked cs go s = go s) := by
  unfold checked
  cases h : firstFailing cs with
  | none => exact .inr ⟨rfl, rfl⟩
  | some off => exact .inl ⟨off, rfl, rfl⟩

theorem checked_pass {cs : List Check} (h : firstFailing cs = none) (go : State → State) (s : State) :
    checked cs go s = go s := by
  simp [checked, h]

theorem checked_fail {cs : List Check} {off : Word} (h : firstFailing cs = some off) (go : State → State) (s : State) :
    checked cs go s = raiseError .config off 0 s := by
  simp [checked, h]

/-- What the passed geometry checks say of the registers. -/
theorem geometryChecks_none_iff (g : Regs) :
    firstFailing (geometryChecks g) = none ↔
      1 ≤ g.hTotal.toNat ∧ 1 ≤ g.vTotal.toNat ∧ (1 ≤ g.hDisplay.toNat ∧ g.hDisplay.toNat ≤ g.hTotal.toNat) ∧
        (1 ≤ g.vDisplay.toNat ∧ g.vDisplay.toNat ≤ g.vTotal.toNat) ∧ 1 ≤ g.vsyncHz.toNat ∧
          g.visiblePixels ≤ g.maxPixels := by
  simp only [firstFailing_none_iff, geometryChecks, List.forall_mem_cons, Bool.and_eq_true, decide_eq_true_eq,
    List.not_mem_nil, false_imp_iff, implies_true, and_true]

theorem pcmChecks_none_iff (g : Regs) :
    firstFailing (pcmChecks g) = none ↔ 1 ≤ g.sr ∧ g.ns ≤ g.tableDepth := by
  simp only [firstFailing_none_iff, pcmChecks, List.forall_mem_cons, decide_eq_true_eq,
    List.not_mem_nil, false_imp_iff, implies_true, and_true]

theorem renderChecks_none_iff (g : Regs) :
    firstFailing (renderChecks g) = none ↔
      (1 ≤ g.threads.toNat ∧ g.threads.toNat ≤ g.maxLanes) ∧ g.src.toNat ≤ 4 := by
  simp only [firstFailing_none_iff, renderChecks, List.forall_mem_cons, Bool.and_eq_true, decide_eq_true_eq,
    List.not_mem_nil, false_imp_iff, implies_true, and_true]

theorem preintChecks_none_iff (g : Regs) :
    firstFailing (preintChecks g) = none ↔
      firstFailing (geometryChecks g) = none ∧ 1 ≤ g.sr ∧ g.ns ≤ g.tableDepth := by
  rw [preintChecks, firstFailing_append, ← pcmChecks_none_iff]
  cases firstFailing (geometryChecks g) <;> simp

theorem renderAllChecks_none_iff (g : Regs) :
    firstFailing (renderAllChecks g) = none ↔
      firstFailing (geometryChecks g) = none ∧
        ((1 ≤ g.threads.toNat ∧ g.threads.toNat ≤ g.maxLanes) ∧ g.src.toNat ≤ 4) ∧
          (g.usesPcm = true → 1 ≤ g.sr ∧ g.ns ≤ g.tableDepth) := by
  rw [renderAllChecks, firstFailing_append, firstFailing_append, ← pcmChecks_none_iff, ← renderChecks_none_iff]
  cases firstFailing (geometryChecks g) <;> cases firstFailing (renderChecks g) <;> cases g.usesPcm <;> simp

/-! ## The register widths (00 R9) -/

theorem ns_lt (g : Regs) : g.ns < 2 ^ 17 := g.sampleCount.isLt

theorem framePixels_lt (g : Regs) : g.framePixels < 2 ^ 32 := by
  have h1 := g.hTotal.isLt
  have h2 := g.vTotal.isLt
  calc g.hTotal.toNat * g.vTotal.toNat ≤ (2 ^ 16 - 1) * (2 ^ 16 - 1) := Nat.mul_le_mul (by omega) (by omega)
    _ < 2 ^ 32 := by norm_num

/-- A source is selected iff SRC is at most 4 (10 R38). -/
theorem sourceOf_isSome_iff (b : BitVec 3) : (sourceOf b).isSome = true ↔ b.toNat ≤ 4 := by
  have hb := b.isLt
  unfold sourceOf
  split <;> simp_all
  omega

end Sys2Proof.Machine
end

