-- ==== Sys2Proof/Laws/Signal.lean ====
section
/-! SUPPORT. What the commands' reads depend on: the registers, and the bytes of sample RAM and the table. -/

namespace Sys2Proof.Machine

/-- The two states show a command the same snapshot: the same registers, sample RAM and table (10 R49). -/
def SameSnapshot (s t : State) : Prop := s.regs = t.regs ∧ ∀ x < fbBase, s.byte x = t.byte x

theorem sameSnapshot_refl (s : State) : SameSnapshot s s := ⟨rfl, fun _ _ => rfl⟩

theorem sameSnapshot_symm {s t : State} (h : SameSnapshot s t) : SameSnapshot t s :=
  ⟨h.1.symm, fun x hx => (h.2 x hx).symm⟩

theorem sameSnapshot_of_mem {s t : State} (hr : s.regs = t.regs) (hm : s.mem = t.mem) (hz : s.resets = t.resets) :
    SameSnapshot s t := ⟨hr, fun x _ => byte_congr hm hz x⟩

/-- A code depends on the format and on sample RAM. -/
theorem rawSample_congr {s t : State} (hf : s.regs.pcmFormat = t.regs.pcmFormat)
    (hb : ∀ o < 2 ^ 18, s.sramByte o = t.sramByte o) {k : Nat} (hk : k < 2 ^ 17) : rawSample s k = rawSample t k := by
  simp only [rawSample, hf]
  split
  · rw [hb k (by omega)]
  · rw [hb (2 * k) (by omega), hb (2 * k + 1) (by omega)]

theorem rawSample_same {s t : State} (h : SameSnapshot s t) {k : Nat} (hk : k < 2 ^ 17) :
    rawSample s k = rawSample t k :=
  rawSample_congr (by rw [h.1]) (fun o ho => h.2 _ (by simp only [sramBase, fbBase]; omega)) hk

theorem tblEntry_same {s t : State} (h : SameSnapshot s t) {k : Nat} (hk : k < 2 ^ 17) : tblEntry s k = tblEntry t k :=
  tblEntry_eq_of_bytes fun x _ h2 => h.2 x (by simp only [tblAddr, tblBase, fbBase] at *; omega)

theorem pcmAmp_same {s t : State} (h : SameSnapshot s t) (x : Nat) : pcmAmp s x = pcmAmp t x := by
  have hn := ns_lt t.regs
  simp only [pcmAmp, ampSample, h.1]
  split
  · rfl
  · rw [rawSample_same h (by omega)]

theorem ipcm_same {s t : State} (h : SameSnapshot s t) (x : Nat) : ipcm s x = ipcm t x := by
  have hn := ns_lt t.regs
  simp only [ipcm, h.1]
  split
  · rfl
  · rw [tblEntry_same h (by omega)]

theorem endPhase_same {s t : State} (h : SameSnapshot s t) : endPhase s = endPhase t := by
  have hn := ns_lt t.regs
  simp only [endPhase, h.1]
  split
  · rfl
  · rw [tblEntry_same h (by omega)]

/-- SIGNAL is a function of the total index and the snapshot (42 R226). -/
theorem signal_same {s t : State} (h : SameSnapshot s t) (src : Source) (x : Nat) : signal src s x = signal src t x := by
  cases src <;>
    simp only [signal, amSignal, fmSignal, amInformation, pcmAmp_same h, ipcm_same h, h.1]

theorem pixelGray_same {s t : State} (h : SameSnapshot s t) (src : Source) (v : Nat) :
    pixelGray src s v = pixelGray src t v := by
  simp only [pixelGray, signal_same h, h.1]

theorem pixelIs_same {s t : State} (h : SameSnapshot s t) {v : Nat} {r : Lookup Byte} (hp : PixelIs s v r) :
    PixelIs t v r := by
  obtain ⟨src, h1, h2⟩ := hp
  exact ⟨src, by rw [← h.1]; exact h1, by rw [← pixelGray_same h]; exact h2⟩

/-- A pixel has one value. -/
theorem pixelIs_unique {s : State} {v : Nat} {r r' : Lookup Byte} (h : PixelIs s v r) (h' : PixelIs s v r') : r = r' := by
  obtain ⟨a, ha, rfl⟩ := h
  obtain ⟨b, hb, rfl⟩ := h'
  rw [ha] at hb
  cases hb
  rfl

/-! ## The cumulative phase (44 R283) -/

/-- The registers and sample RAM that PREINT reads are the same (44 R283, R289). -/
structure SameTableInputs (s t : State) : Prop where
  hTotal : s.regs.hTotal = t.regs.hTotal
  vTotal : s.regs.vTotal = t.regs.vTotal
  vsyncHz : s.regs.vsyncHz = t.regs.vsyncHz
  sampleRate : s.regs.sampleRate = t.regs.sampleRate
  pcmFormat : s.regs.pcmFormat = t.regs.pcmFormat
  sampleCount : s.regs.sampleCount = t.regs.sampleCount
  fmDevPpp : s.regs.fmDevPpp = t.regs.fmDevPpp
  fmSeed : s.regs.fmSeed = t.regs.fmSeed
  sram : ∀ o < 2 ^ 18, s.sramByte o = t.sramByte o

theorem sameTableInputs_of_snapshot {s t : State} (h : SameSnapshot s t) : SameTableInputs s t := by
  constructor <;> first | rw [h.1] | skip
  exact fun o ho => h.2 _ (by simp only [sramBase, fbBase]; omega)

theorem startTime_inputs {s t : State} (h : SameTableInputs s t) (k : Nat) : startTime s.regs k = startTime t.regs k := by
  simp only [startTime, Regs.dotClock, Regs.sr, h.hTotal, h.vTotal, h.vsyncHz, h.sampleRate]

theorem preintEntry_inputs {s t : State} (h : SameTableInputs s t) {k : Nat} (hk : k < 2 ^ 17) (c : Phase) :
    preintEntry s k c = preintEntry t k c := by
  simp only [preintEntry, rawSample_congr h.pcmFormat h.sram hk, startTime_inputs h, h.pcmFormat, h.fmDevPpp]

theorem nextCum_inputs {s t : State} (h : SameTableInputs s t) (k : Nat) (e : TblEntry) :
    nextCum s.regs k e = nextCum t.regs k e := by
  simp only [nextCum, startTime_inputs h]

theorem cumAt_inputs {s t : State} (h : SameTableInputs s t) : ∀ {k : Nat}, k ≤ 2 ^ 17 → cumAt s k = cumAt t k
  | 0, _ => h.fmSeed
  | k + 1, hk => by
    simp only [cumAt]
    rw [cumAt_inputs h (by omega), preintEntry_inputs h (by omega), nextCum_inputs h]

theorem tableBuilt_inputs {s t : State} (h : SameTableInputs s t) {n : Nat} (hn : n ≤ 2 ^ 17)
    (he : ∀ k < n, tblEntry s k = tblEntry t k) (hb : TableBuilt s n) : TableBuilt t n := fun k hk => by
  rw [← he k hk, hb k hk, preintEntry_inputs h (by omega), cumAt_inputs h (by omega)]

end Sys2Proof.Machine
end

