-- ==== Sys2Proof/Laws/Advance.lean ====
section
/-! SUPPORT. What ADVANCE can do (45 R333). -/

namespace Sys2Proof.Machine

theorem advanceSeed_same {s t : State} (h : SameSnapshot s t) (hv : s.tableValid = t.tableValid) :
    advanceSeed s = advanceSeed t := by
  simp only [advanceSeed, hv, endPhase_same h, h.1]

/-- What the step of ADVANCING does. -/
theorem advanceStep_cases {s : State} (h : s.ctrl = .advancing) :
    (∃ t k, advanceSeed s = .fail t k ∧ advanceStep s = raiseRange t k s) ∨
      ∃ seed, advanceSeed s = .ok seed ∧ advanceStep s = advanceCommit seed s := by
  cases hs : advanceSeed s with
  | fail t k => exact .inl ⟨t, k, rfl, by simp only [advanceStep, h, hs]⟩
  | ok seed => exact .inr ⟨seed, rfl, by simp only [advanceStep, h, hs]⟩

theorem advanceRun_config {s : State} {off : Word} (h : firstFailing (advanceChecks s.regs) = some off) :
    advanceRun s = raiseError .config off 0 s := by
  rw [advanceRun, advanceBegin, checked_fail h]
  rfl

/-- What ADVANCE does once its checks pass: it commits, or raises RANGE and commits nothing. -/
theorem advanceRun_spec {s : State} (h : firstFailing (advanceChecks s.regs) = none) :
    (∃ t k, advanceSeed s = .fail t k ∧ advanceRun s = raiseRange t k s) ∨
      ∃ seed, advanceSeed s = .ok seed ∧ advanceRun s = advanceCommit seed s := by
  have hs : advanceSeed (s.setCtrl .advancing) = advanceSeed s :=
    advanceSeed_same (sameSnapshot_of_mem rfl rfl rfl) rfl
  rw [advanceRun, advanceBegin, checked_pass h, ← hs]
  rcases advanceStep_cases (s := s.setCtrl .advancing) rfl with ⟨t, k, h1, h2⟩ | ⟨seed, h1, h2⟩
  · exact .inl ⟨t, k, h1, by rw [h2]; rfl⟩
  · exact .inr ⟨seed, h1, by rw [h2]; rfl⟩

/-- A carry that fails failed at the frame's last total index (44 R287). -/
theorem advanceSeed_fail {s : State} {t k : Nat} (h : advanceSeed s = .fail t k) :
    s.tableValid = true ∧ t = s.regs.framePixels - 1 ∧ k = sampleIndex s.regs t ∧ s.regs.ns ≤ k := by
  unfold advanceSeed at h
  split at h
  · rename_i hv
    simp only [endPhase] at h
    split at h
    · rename_i hk
      cases h
      exact ⟨hv, rfl, rfl, hk⟩
    · cases h
  · cases h

end Sys2Proof.Machine
end

