-- ==== Sys2Proof/Laws/Bus.lean ====
section
/-! SUPPORT. What addresses name, and what reads and writes can do (spec/20_memory.md). -/

namespace Sys2Proof.Machine

/-! ## The register map (10 R33) -/

/-- Each register has an offset of its own. -/
@[simp] theorem reg_ofOffset_offset (r : Reg) : Reg.ofOffset r.offset = some r := by
  cases r <;> rfl

theorem reg_ofOffset_some {o : Nat} {r : Reg} (h : Reg.ofOffset o = some r) : r.offset = o := by
  have := List.find?_some h
  simpa using this

theorem reg_offset_lt (r : Reg) : r.offset < 0x1000 := by cases r <;> decide

theorem reg_offset_aligned (r : Reg) : r.offset % 4 = 0 := by cases r <;> rfl

/-- The address of a register names it, whatever the size parameters. -/
@[simp] theorem targetOf_offset (g : Regs) (r : Reg) : targetOf g (BitVec.ofNat 32 r.offset) = .reg r := by
  have h1 := reg_offset_lt r
  have h2 := reg_offset_aligned r
  have h3 : (BitVec.ofNat 32 r.offset).toNat = r.offset := by
    rw [BitVec.toNat_ofNat]
    omega
  simp [targetOf, h3, h2, h1]

/-- What each target says of the address (20 R80, R83). -/
theorem targetOf_spec (g : Regs) (a : Word) :
    match targetOf g a with
    | .misaligned => a.toNat % 4 ≠ 0
    | .unmapped => a.toNat % 4 = 0 ∧ 0x1000 ≤ a.toNat
    | .reserved => a.toNat % 4 = 0 ∧ a.toNat < 0x1000
    | .reg r => a.toNat = r.offset
    | .sram o => a.toNat = sramBase + o ∧ o + 4 ≤ 2 * g.tableDepth
    | .tbl k f => a.toNat = tblBase + 16 * k + (a.toNat - tblBase) % 16 ∧ k < g.tableDepth ∧
        f = TblField.ofOffset ((a.toNat - tblBase) % 16)
    | .fb v => a.toNat = fbBase + 4 * v ∧ v < g.maxPixels := by
  unfold targetOf
  simp only
  by_cases h1 : a.toNat % 4 ≠ 0
  · rw [if_pos h1]
    exact h1
  · rw [if_neg h1]
    have h1' : a.toNat % 4 = 0 := by omega
    by_cases h2 : a.toNat < 0x1000
    · rw [if_pos h2]
      cases hr : Reg.ofOffset a.toNat with
      | none => exact ⟨h1', h2⟩
      | some r => exact (reg_ofOffset_some hr).symm
    · rw [if_neg h2]
      by_cases h3 : sramBase ≤ a.toNat ∧ a.toNat + 4 ≤ sramBase + 2 * g.tableDepth
      · rw [if_pos h3]
        simp only
        omega
      · rw [if_neg h3]
        by_cases h4 : tblBase ≤ a.toNat ∧ a.toNat + 4 ≤ tblBase + 16 * g.tableDepth
        · rw [if_pos h4]
          simp only
          refine ⟨?_, ?_, ?_⟩ <;> first | omega | trivial
        · rw [if_neg h4]
          by_cases h5 : fbBase ≤ a.toNat ∧ a.toNat + 4 ≤ fbBase + 4 * g.maxPixels
          · rw [if_pos h5]
            simp only
            simp only [fbBase] at *
            omega
          · rw [if_neg h5]
            exact ⟨h1', by omega⟩

/-- An aligned address whose word lies in sample RAM names it. -/
theorem targetOf_sram {g : Regs} {a : Word} (h : a.toNat % 4 = 0) (h1 : sramBase ≤ a.toNat)
    (h2 : a.toNat + 4 ≤ sramBase + 2 * g.tableDepth) : targetOf g a = .sram (a.toNat - sramBase) := by
  unfold targetOf sramBase at *
  simp only [h]
  rw [if_neg (by decide), if_neg (by omega), if_pos (by omega)]

/-- An aligned address in the table window names a field of an entry. -/
theorem targetOf_tbl {g : Regs} (hp : paramsOk g.cfg = true) {a : Word} (h : a.toNat % 4 = 0) (h1 : tblBase ≤ a.toNat)
    (h2 : a.toNat < tblBase + 16 * g.tableDepth) :
    targetOf g a = .tbl ((a.toNat - tblBase) / 16) (TblField.ofOffset ((a.toNat - tblBase) % 16)) := by
  simp only [paramsOk, Bool.and_eq_true, decide_eq_true_eq] at hp
  unfold targetOf sramBase tblBase Regs.tableDepth at *
  simp only [h]
  rw [if_neg (by decide), if_neg (by omega), if_neg (by omega), if_pos (by omega)]

/-- An aligned address in the frame buffer names a pixel word. -/
theorem targetOf_fb {g : Regs} (hp : paramsOk g.cfg = true) {a : Word} (h : a.toNat % 4 = 0) (h1 : fbBase ≤ a.toNat)
    (h2 : a.toNat < fbBase + 4 * g.maxPixels) : targetOf g a = .fb ((a.toNat - fbBase) / 4) := by
  simp only [paramsOk, Bool.and_eq_true, decide_eq_true_eq] at hp
  unfold targetOf sramBase tblBase fbBase Regs.tableDepth Regs.maxPixels at *
  simp only [h]
  rw [if_neg (by decide), if_neg (by omega), if_neg (by omega), if_neg (by omega), if_pos (by omega)]

/-! ## Reads (20 R89, R91) -/

/-- A read changes nothing, but for the model's count of unspecified reads. -/
theorem busRead_state (a : Word) (s : State) :
    (busRead a s).2 = s ∨ (busRead a s).2 = { s with draws := s.draws + 1 } := by
  unfold busRead
  split
  · exact .inl rfl
  · exact .inl rfl
  · exact .inl rfl
  · exact .inl rfl
  · exact .inl rfl
  · split
    · exact .inr rfl
    · exact .inl rfl
  · split
    · exact .inr rfl
    · exact .inl rfl

/-! ## Writes (20 R90) -/

/-- What a write to a named register does. -/
theorem writeReg_cases (r : Reg) (v : Word) (s : State) :
    (r.access = .rw ∧ s.ctrl.busy = true ∧ writeReg r v s = dropWrite s) ∨
      (r.access = .rw ∧ s.ctrl.busy = false ∧
        writeReg r v s = { s with regs := storeFields r v s.regs, tableValid := s.tableValid && !r.clearsTable }) ∨
        (r = .status ∧ writeReg r v s = writeStatus v s) ∨
          ((r.access = .ro ∨ r.access = .wo) ∧ writeReg r v s = s) := by
  unfold writeReg
  cases hb : s.ctrl.busy <;> cases r <;> simp [Reg.access]

/-- What a write to an SRAM word does. -/
theorem writeSram_cases (o : Nat) (v : Word) (s : State) :
    (s.ctrl.busy = true ∧ writeSram o v s = dropWrite s) ∨
      (s.ctrl.busy = false ∧
        writeSram o v s = (s.storeBytes (sramBase + o) (wordBytes v)).setTableValid false) := by
  unfold writeSram
  cases hb : s.ctrl.busy <;> simp

/-- A write that is answered BUSERR changes nothing (20 R83, R86). -/
theorem busWrite_busErr {a v : Word} {s : State} (h : (busWrite a v s).1 = .busErr) : (busWrite a v s).2 = s := by
  unfold busWrite at h ⊢
  split <;> simp_all

/-- Every write does one of these. -/
theorem busWrite_cases (a v : Word) (s : State) :
    (busWrite a v s).2 = s ∨ (∃ r, targetOf s.regs a = .reg r ∧ (busWrite a v s).2 = writeReg r v s) ∨
      ∃ o, targetOf s.regs a = .sram o ∧ (busWrite a v s).2 = writeSram o v s := by
  unfold busWrite
  split
  · exact .inl rfl
  · exact .inl rfl
  · exact .inl rfl
  · exact .inl rfl
  · exact .inl rfl
  · rename_i r h
    exact .inr (.inl ⟨r, h, rfl⟩)
  · rename_i o h
    exact .inr (.inr ⟨o, h, rfl⟩)

/-- A store into the registers leaves the size parameters and the error registers alone (10 R43, R44). -/
theorem storeFields_fixed (r : Reg) (v : Word) (g : Regs) :
    (storeFields r v g).cfg = g.cfg ∧ (storeFields r v g).errCode = g.errCode ∧
      (storeFields r v g).errIndex = g.errIndex ∧ (storeFields r v g).errSample = g.errSample := by
  cases r <;> exact ⟨rfl, rfl, rfl, rfl⟩

/-- A store into a register that is no input of PREINT leaves those inputs alone (44 R289). -/
theorem storeFields_tableInputs {r : Reg} (h : r.clearsTable = false) (v : Word) (g : Regs) :
    (storeFields r v g).hTotal = g.hTotal ∧ (storeFields r v g).vTotal = g.vTotal ∧
      (storeFields r v g).vsyncHz = g.vsyncHz ∧ (storeFields r v g).sampleRate = g.sampleRate ∧
        (storeFields r v g).pcmFormat = g.pcmFormat ∧ (storeFields r v g).sampleCount = g.sampleCount ∧
          (storeFields r v g).fmDevPpp = g.fmDevPpp ∧ (storeFields r v g).fmSeed = g.fmSeed := by
  cases r <;> first | exact ⟨rfl, rfl, rfl, rfl, rfl, rfl, rfl, rfl⟩ | cases h

end Sys2Proof.Machine
end

