-- ==== Sys2Proof/Laws/Preint.lean ====
section
/-! SUPPORT. The sequential pass of PREINT (44 R283). -/

namespace Sys2Proof.Machine

theorem preintBegin_pass {s : State} (h : firstFailing (preintChecks s.regs) = none) :
    preintBegin s = s.setCtrl (.preintegrating 0 s.regs.fmSeed) := checked_pass h _ _

theorem preintStep_entry {s : State} {k : Nat} {c : Phase} (h : s.ctrl = .preintegrating k c) (hk : k < s.regs.ns) :
    preintStep s = (storeEntry s k (preintEntry s k c)).setCtrl
      (.preintegrating (k + 1) (nextCum s.regs k (preintEntry s k c))) := by
  simp only [preintStep, h, if_pos hk]

theorem preintStep_commit {s : State} {k : Nat} {c : Phase} (h : s.ctrl = .preintegrating k c) (hk : ¬ k < s.regs.ns) :
    preintStep s = (s.setTableValid true).setCtrl .idle := by
  simp only [preintStep, h, if_neg hk]

/-- A step outside PREINTEGRATING does nothing. -/
theorem preintStep_other {s : State} (h : ∀ k c, s.ctrl ≠ .preintegrating k c) : preintStep s = s := by
  unfold preintStep
  split
  · rename_i k c hc
    exact absurd hc (h k c)
  · rfl

/-- How far the pass that began in `s` has come in `t`: `k` entries stand, and nothing else has changed. -/
structure PreintProgress (s t : State) (k : Nat) : Prop where
  ctrl : t.ctrl = .preintegrating k (cumAt s k)
  rest : t = { s with ctrl := t.ctrl, mem := t.mem }
  built : ∀ j < k, tblEntry t j = preintEntry s j (cumAt s j)
  frame : ∀ x, x < tblBase ∨ tblAddr k ≤ x → t.byte x = s.byte x

theorem preintProgress_inputs {s t : State} {k : Nat} (h : PreintProgress s t k) : SameTableInputs s t := by
  have hr : t.regs = s.regs := (only_ctrl_mem h.rest).1
  constructor <;> first | rw [hr] | skip
  intro o ho
  exact (h.frame _ (Or.inl (by simp only [sramBase, tblBase]; omega))).symm

theorem preintProgress_step {s t : State} {k : Nat} (h : PreintProgress s t k) (hk : k < s.regs.ns) :
    PreintProgress s (preintStep t) (k + 1) := by
  have hi := preintProgress_inputs h
  have hn := ns_lt s.regs
  have hr : t.regs = s.regs := (only_ctrl_mem h.rest).1
  have he : preintEntry t k (cumAt s k) = preintEntry s k (cumAt s k) := (preintEntry_inputs hi (by omega) _).symm
  rw [preintStep_entry h.ctrl (by rw [hr]; exact hk), he]
  refine ⟨?_, ?_, ?_, ?_⟩
  · simp only [setCtrl_ctrl, cumAt, nextCum_inputs hi]
  · refine only_ctrl_mem_of ?_
    have h' := only_ctrl_mem h.rest
    exact h'
  · intro j hj
    rw [setCtrl_tblEntry]
    by_cases hjk : j = k
    · subst hjk
      exact tblEntry_storeEntry_same t j _
    · rw [tblEntry_storeEntry_other t _ hjk]
      exact h.built j (by omega)
  · intro x hx
    rw [setCtrl_byte, byte_storeEntry_outside t _ ?_]
    · exact h.frame x (by simp only [tblAddr, tblBase] at *; omega)
    · simp only [tblAddr, tblBase] at *
      omega

theorem preintProgress_iterate {s : State} (h0 : PreintProgress s (preintBegin s) 0) :
    ∀ {n : Nat}, n ≤ s.regs.ns → PreintProgress s (preintStep^[n] (preintBegin s)) n
  | 0, _ => h0
  | n + 1, hn => by
    rw [Function.iterate_succ_apply']
    exact preintProgress_step (preintProgress_iterate h0 (by omega)) (by omega)

theorem preintProgress_begin {s : State} (h : firstFailing (preintChecks s.regs) = none) :
    PreintProgress s (preintBegin s) 0 := by
  rw [preintBegin_pass h]
  exact ⟨rfl, rfl, fun j hj => absurd hj (Nat.not_lt_zero j), fun x _ => byte_congr rfl rfl x⟩

/-- What PREINT does once its checks pass: the table holds the entries of the pass, TABLE_VALID is set, the block is IDLE,
and no other register, flag or byte has changed. -/
theorem preintRun_spec {s : State} (h : firstFailing (preintChecks s.regs) = none) :
    preintRun s = { s with tableValid := true, ctrl := .idle, mem := (preintRun s).mem } ∧
      (∀ k < s.regs.ns, tblEntry (preintRun s) k = preintEntry s k (cumAt s k)) ∧
        ∀ x, x < tblBase ∨ tblAddr s.regs.ns ≤ x → (preintRun s).byte x = s.byte x := by
  have hp := preintProgress_iterate (preintProgress_begin h) (Nat.le_refl s.regs.ns)
  have hr : (preintStep^[s.regs.ns] (preintBegin s)).regs = s.regs := (only_ctrl_mem hp.rest).1
  have e : preintRun s = ((preintStep^[s.regs.ns] (preintBegin s)).setTableValid true).setCtrl .idle := by
    rw [preintRun, Function.iterate_succ_apply']
    exact preintStep_commit hp.ctrl (by rw [hr]; omega)
  refine ⟨?_, ?_, ?_⟩
  · rw [e]
    have h := only_ctrl_mem hp.rest
    exact State.ext h.1 rfl rfl h.2.2.1 h.2.2.2.1 rfl h.2.2.2.2.1 h.2.2.2.2.2.1 h.2.2.2.2.2.2.1 h.2.2.2.2.2.2.2.1
      h.2.2.2.2.2.2.2.2
  · intro k hk
    rw [e, ← hp.built k hk]
    exact tblEntry_congr rfl rfl k
  · intro x hx
    rw [e, ← hp.frame x hx]
    exact byte_congr rfl rfl x

theorem iterate_fixed {α : Type} {f : α → α} {a : α} (h : f a = a) : ∀ n : Nat, f^[n] a = a
  | 0 => rfl
  | n + 1 => by rw [Function.iterate_succ_apply, h, iterate_fixed h n]

/-- What PREINT does when a check fails. -/
theorem preintRun_config {s : State} {off : Word} (h : firstFailing (preintChecks s.regs) = some off) :
    preintRun s = raiseError .config off 0 s := by
  rw [preintRun, preintBegin, checked_fail h]
  exact iterate_fixed (preintStep_other fun k c hc => by simp at hc) _

end Sys2Proof.Machine
end

