-- ==== Sys2Proof/Laws/Render.lean ====
section
/-! SUPPORT. The partition, the workers, the join and the frame of a RENDER (45 R322 to R331). -/

namespace Sys2Proof.Machine

/-! ## The partition (45 R325, R330) -/

/-- The chunks follow one another without a gap from `a` to `b`. -/
def Contiguous : Nat → List (Nat × Nat) → Nat → Prop
  | a, [], b => a = b
  | a, c :: cs, b => c.1 = a ∧ c.1 ≤ c.2 ∧ Contiguous c.2 cs b

theorem contiguous_append {a b c : Nat} {l m : List (Nat × Nat)} (h : Contiguous a l b) (h' : Contiguous b m c) :
    Contiguous a (l ++ m) c := by
  induction l generalizing a with
  | nil => cases h; exact h'
  | cons x l ih => exact ⟨h.1, h.2.1, ih h.2.2⟩

theorem contiguous_equal (cs n : Nat) :
    Contiguous 0 ((List.range n).map fun j => (j * cs, (j + 1) * cs)) (n * cs) := by
  induction n with
  | zero => simp [Contiguous]
  | succ n ih =>
    rw [List.range_succ, List.map_append]
    exact contiguous_append ih ⟨rfl, Nat.mul_le_mul_right _ (Nat.le_succ n), rfl⟩

theorem partition_contiguous (p t : Nat) : t ≠ 0 → Contiguous 0 (partition p t) p := fun _ => by
  have h := Nat.div_add_mod p t
  refine contiguous_append (contiguous_equal (p / t) t) ?_
  split
  · exact ⟨rfl, Nat.mul_div_le p t, rfl⟩
  · rename_i hm
    have : p % t = 0 := by simpa using hm
    simp only [Contiguous]
    omega

/-! ## The workers (45 R326) -/

@[simp] theorem workerStep_lo (s : State) (w : Worker) : (workerStep s w).lo = w.lo := by
  unfold workerStep
  repeat' split
  all_goals rfl

@[simp] theorem workerStep_hi (s : State) (w : Worker) : (workerStep s w).hi = w.hi := by
  unfold workerStep
  repeat' split
  all_goals rfl

theorem workerStep_reported {s : State} {w : Worker} (h : w.isRunning = false) : workerStep s w = w := by
  unfold workerStep
  cases hr : w.report <;> simp_all [Worker.isRunning]

/-- What one step of a running worker does. -/
theorem workerStep_running {s : State} {w : Worker} (h : w.report = .running) :
    (w.hi ≤ w.lo + w.buf.length ∧ workerStep s w = { w with report := .done }) ∨
      (w.lo + w.buf.length < w.hi ∧
        ((sourceOf s.regs.src = none ∧ workerStep s w = w) ∨
          (∃ g, PixelIs s (w.lo + w.buf.length) (.ok g) ∧ workerStep s w = { w with buf := w.buf ++ [g] }) ∨
            ∃ t k, PixelIs s (w.lo + w.buf.length) (.fail t k) ∧
              workerStep s w = { w with report := .failed t k })) := by
  by_cases hlt : w.lo + w.buf.length < w.hi
  · refine .inr ⟨hlt, ?_⟩
    cases hs : sourceOf s.regs.src with
    | none => exact .inl ⟨rfl, by simp only [workerStep, h, if_pos hlt, hs]⟩
    | some src =>
      right
      cases hp : pixelGray src s (w.lo + w.buf.length) with
      | ok g => exact .inl ⟨g, ⟨src, hs, hp⟩, by simp only [workerStep, h, if_pos hlt, hs, hp]⟩
      | fail t k => exact .inr ⟨t, k, ⟨src, hs, hp⟩, by simp only [workerStep, h, if_pos hlt, hs, hp]⟩
  · exact .inl ⟨by omega, by simp only [workerStep, h, if_neg hlt]⟩

theorem workerStart_ok (s : State) {c : Nat × Nat} (h : c.1 ≤ c.2) : WorkerOk s (Worker.start c) := by
  refine ⟨by simpa [Worker.start] using h, fun i hi => ?_, ?_⟩
  · simp [Worker.start] at hi
  · simp [Worker.start]

/-- A step keeps a worker in order. -/
theorem workerStep_ok {s : State} {w : Worker} (h : WorkerOk s w) : WorkerOk s (workerStep s w) := by
  cases hr : w.report with
  | done => rwa [workerStep_reported (by simp [Worker.isRunning, hr])]
  | failed t k => rwa [workerStep_reported (by simp [Worker.isRunning, hr])]
  | running =>
    obtain ⟨hb, hp, -⟩ := h
    rcases workerStep_running (s := s) hr with ⟨hle, he⟩ | ⟨hlt, ⟨-, he⟩ | ⟨g, hg, he⟩ | ⟨t, k, hg, he⟩⟩
    · rw [he]
      exact ⟨hb, hp, by simp only; omega⟩
    · rw [he]
      exact ⟨hb, hp, by rw [hr]; trivial⟩
    · rw [he]
      refine ⟨by simp only [List.length_append, List.length_cons, List.length_nil]; omega, fun i hi => ?_, ?_⟩
      · by_cases hil : i < w.buf.length
        · simp only [List.getElem_append_left hil]
          exact hp i hil
        · have hie : i = w.buf.length := by
            simp only [List.length_append, List.length_cons, List.length_nil] at hi
            omega
          subst hie
          simpa using hg
      · simp only [hr]
    · rw [he]
      exact ⟨hb, hp, hlt, hg⟩

/-- A worker ends up reporting: one step for each pixel left and one for the report are enough. -/
theorem workerStep_iterate_reported {s : State} (hs : (sourceOf s.regs.src).isSome = true) :
    ∀ (n : Nat) (w : Worker), w.hi < w.lo + w.buf.length + n → ((workerStep s)^[n] w).isRunning = false ∨
      (w.isRunning = true ∧ n = 0)
  | 0, w, _ => by
    cases h : w.isRunning
    · exact .inl h
    · exact .inr ⟨rfl, rfl⟩
  | n + 1, w, hn => by
    left
    rw [Function.iterate_succ_apply]
    cases hr : w.report with
    | done =>
      have h : w.isRunning = false := by simp [Worker.isRunning, hr]
      rw [Function.iterate_fixed (by rw [workerStep_reported h, workerStep_reported h])]
      rwa [workerStep_reported h]
    | failed t k =>
      have h : w.isRunning = false := by simp [Worker.isRunning, hr]
      rw [Function.iterate_fixed (by rw [workerStep_reported h, workerStep_reported h])]
      rwa [workerStep_reported h]
    | running =>
      rcases workerStep_running (s := s) hr with ⟨hle, he⟩ | ⟨hlt, ⟨h0, -⟩ | ⟨g, -, he⟩ | ⟨t, k, -, he⟩⟩
      · rw [he, Function.iterate_fixed (workerStep_reported rfl)]
        rfl
      · rw [h0] at hs
        cases hs
      · rw [he]
        rcases workerStep_iterate_reported hs n { w with buf := w.buf ++ [g] } (by
          simp only [List.length_append, List.length_cons, List.length_nil]; omega) with h | ⟨-, h⟩
        · exact h
        · omega
      · rw [he, Function.iterate_fixed (workerStep_reported rfl)]
        rfl

theorem workerStep_iterate_bounds (s : State) (n : Nat) (w : Worker) :
    ((workerStep s)^[n] w).lo = w.lo ∧ ((workerStep s)^[n] w).hi = w.hi := by
  induction n generalizing w with
  | zero => exact ⟨rfl, rfl⟩
  | succ n ih =>
    rw [Function.iterate_succ_apply]
    have := ih (workerStep s w)
    simpa using this

theorem workerStep_iterate_ok {s : State} (n : Nat) {w : Worker} (h : WorkerOk s w) :
    WorkerOk s ((workerStep s)^[n] w) := by
  induction n generalizing w with
  | zero => exact h
  | succ n ih =>
    rw [Function.iterate_succ_apply]
    exact ih (workerStep_ok h)

/-- A worker run to its report: in order, with its chunk, and no longer running. -/
theorem workerRun_spec {s : State} (hs : (sourceOf s.regs.src).isSome = true) {w : Worker} (h : WorkerOk s w) :
    WorkerOk s (workerRun s w) ∧ (workerRun s w).lo = w.lo ∧ (workerRun s w).hi = w.hi ∧
      (workerRun s w).isRunning = false := by
  refine ⟨workerStep_iterate_ok _ h, (workerStep_iterate_bounds s _ w).1, (workerStep_iterate_bounds s _ w).2, ?_⟩
  rcases workerStep_iterate_reported hs (w.hi - w.lo + 1) w (by omega) with hr | ⟨-, hr⟩
  · exact hr
  · omega

theorem workerOk_same {s t : State} (h : SameSnapshot s t) {w : Worker} (hw : WorkerOk s w) : WorkerOk t w := by
  obtain ⟨h1, h2, h3⟩ := hw
  refine ⟨h1, fun i hi => pixelIs_same h (h2 i hi), ?_⟩
  cases hr : w.report with
  | running => trivial
  | done => rw [hr] at h3; exact h3
  | failed t k =>
    rw [hr] at h3
    exact ⟨h3.1, pixelIs_same h h3.2⟩

theorem workersOk_same {s t : State} (h : SameSnapshot s t) {ws : List Worker} (hw : WorkersOk s ws) : WorkersOk t ws :=
  ⟨by rw [← h.1]; exact hw.1, fun w hm => workerOk_same h (hw.2 w hm)⟩

/-! ## The join (45 R327) -/

/-- If no worker of a contiguous run has failed, their buffers are the pixels of the run. -/
theorem buffers_of_done {s : State} {a b : Nat} {ws : List Worker}
    (hc : Contiguous a (ws.map fun w => (w.lo, w.hi)) b) (hw : ∀ w ∈ ws, WorkerOk s w)
    (hr : ∀ w ∈ ws, w.isRunning = false) (hf : ws.findSome? Worker.failure = none) :
    a + (ws.map Worker.buf).flatten.length = b ∧
      ∀ v (h : v < (ws.map Worker.buf).flatten.length), PixelIs s (a + v) (.ok (ws.map Worker.buf).flatten[v]) := by
  induction ws generalizing a with
  | nil =>
    simp only [List.map_nil, Contiguous] at hc
    exact ⟨by simpa using hc, fun v h => by simp at h⟩
  | cons w ws ih =>
    simp only [List.map_cons, Contiguous] at hc
    rw [List.findSome?_cons] at hf
    have hwf : w.failure = none := by
      cases hx : w.failure <;> simp_all
    rw [hwf] at hf
    obtain ⟨h1, h2, h3⟩ := hw w (by simp)
    have hd : w.report = .done := by
      have hrw := hr w (by simp)
      cases hx : w.report <;> simp_all [Worker.isRunning, Worker.failure]
    rw [hd] at h3
    obtain ⟨i1, i2⟩ := ih hc.2.2 (fun x hx => hw x (by simp [hx])) (fun x hx => hr x (by simp [hx])) hf
    simp only [List.map_cons, List.flatten_cons, List.length_append]
    refine ⟨by omega, fun v hv => ?_⟩
    by_cases hvl : v < w.buf.length
    · rw [List.getElem_append_left hvl, ← hc.1]
      exact h2 v hvl
    · rw [List.getElem_append_right (by omega)]
      have := i2 (v - w.buf.length) (by omega)
      rwa [show w.hi + (v - w.buf.length) = a + v by omega] at this

/-- If a worker of a contiguous run has failed, the failure of the lowest ordinal is that of the lowest failing index. -/
theorem failure_is_lowest {s : State} {a b t k : Nat} {ws : List Worker}
    (hc : Contiguous a (ws.map fun w => (w.lo, w.hi)) b) (hw : ∀ w ∈ ws, WorkerOk s w)
    (hr : ∀ w ∈ ws, w.isRunning = false) (hf : ws.findSome? Worker.failure = some (t, k)) :
    ∃ v0, a ≤ v0 ∧ v0 < b ∧ PixelIs s v0 (.fail t k) ∧ ∀ v, a ≤ v → v < v0 → ∃ g, PixelIs s v (.ok g) := by
  induction ws generalizing a with
  | nil => simp at hf
  | cons w ws ih =>
    simp only [List.map_cons, Contiguous] at hc
    obtain ⟨h1, h2, h3⟩ := hw w (by simp)
    have hrw := hr w (by simp)
    have hle : ∀ {l : List (Nat × Nat)} {x : Nat}, Contiguous x l b → x ≤ b := by
      intro l
      induction l with
      | nil => intro x hx; exact Nat.le_of_eq hx
      | cons c l il => intro x hx; have := il hx.2.2; have := hx.1; have := hx.2.1; omega
    rw [List.findSome?_cons] at hf
    cases hx : w.report with
    | running => simp [Worker.isRunning, hx] at hrw
    | failed t' k' =>
      have he : w.failure = some (t', k') := by simp [Worker.failure, hx]
      rw [he] at hf
      cases hf
      rw [hx] at h3
      have := hle hc.2.2
      refine ⟨w.lo + w.buf.length, by omega, by omega, h3.2, fun v hv1 hv2 => ?_⟩
      have := h2 (v - w.lo) (by omega)
      rw [show w.lo + (v - w.lo) = v by omega] at this
      exact ⟨_, this⟩
    | done =>
      have he : w.failure = none := by simp [Worker.failure, hx]
      rw [he] at hf
      rw [hx] at h3
      obtain ⟨v0, i1, i2, i3, i4⟩ := ih hc.2.2 (fun x hx => hw x (by simp [hx])) (fun x hx => hr x (by simp [hx])) hf
      refine ⟨v0, by omega, i2, i3, fun v hv1 hv2 => ?_⟩
      by_cases hvl : v < w.hi
      · have := h2 (v - w.lo) (by omega)
        rw [show w.lo + (v - w.lo) = v by omega] at this
        exact ⟨_, this⟩
      · exact i4 v (by omega) hv2

/-! ## The frame buffer (45 R328) -/

theorem pixelBytes_length (gs : List Byte) : (gs.flatMap pixelBytes).length = 4 * gs.length := by
  induction gs with
  | nil => rfl
  | cons g gs ih =>
    simp only [List.flatMap_cons, List.length_append, ih, List.length_cons]
    simp [pixelBytes]
    omega

theorem pixelBytes_getElem? (gs : List Byte) (v : Nat) (hv : v < gs.length) (i : Nat) (hi : i < 4) :
    (gs.flatMap pixelBytes)[4 * v + i]? = (pixelBytes gs[v])[i]? := by
  induction gs generalizing v with
  | nil => simp at hv
  | cons g gs ih =>
    have hlen : (pixelBytes g).length = 4 := rfl
    rw [List.flatMap_cons]
    cases v with
    | zero =>
      rw [List.getElem?_append_left (by omega), Nat.mul_zero, Nat.zero_add]
      rfl
    | succ v =>
      rw [List.getElem?_append_right (by omega), show 4 * (v + 1) + i - (pixelBytes g).length = 4 * v + i by omega]
      exact ih v (by simpa using hv)

/-- Frame-buffer word `v` after the frame has been written. -/
theorem word_of_frame (s : State) (gs : List Byte) (v : Nat) (hv : v < gs.length) :
    (s.storeBytes fbBase (gs.flatMap pixelBytes)).word (fbBase + 4 * v) = pixelWord gs[v] := by
  have hl := pixelBytes_length gs
  rw [word_storeBytes_inside s (i := 4 * v) (by omega)]
  have hb : ∀ i (hi : i < 4), (gs.flatMap pixelBytes)[4 * v + i]'(by omega) = (pixelBytes gs[v])[i]'hi := fun i hi => by
    have h := pixelBytes_getElem? gs v hv i hi
    rw [List.getElem?_eq_getElem (by omega), List.getElem?_eq_getElem hi] at h
    exact Option.some.inj h
  have h0 := hb 0 (by omega)
  simp only [Nat.add_zero] at h0
  rw [h0, hb 1 (by omega), hb 2 (by omega), hb 3 (by omega)]
  rfl

/-! ## The whole command (45 R322, R331) -/

theorem sourceOf_of_checks {s : State} (h : firstFailing (renderAllChecks s.regs) = none) :
    (sourceOf s.regs.src).isSome = true :=
  (sourceOf_isSome_iff _).2 ((renderAllChecks_none_iff _).1 h).2.1.2

theorem renderBegin_config {s : State} {off : Word} (h : firstFailing (renderAllChecks s.regs) = some off) :
    renderBegin s = raiseError .config off 0 s := checked_fail h _ _

theorem renderBegin_seq {s : State} (h : firstFailing (renderAllChecks s.regs) = none)
    (hf : sourceOf s.regs.src = some .fm) (ht : s.tableValid = false) :
    renderBegin s = raiseError .seq (encode .render) 0 s := by
  rw [renderBegin, checked_pass h, renderSequence, if_pos ⟨hf, ht⟩]

theorem renderBegin_accepted {s : State} (h : RenderAccepted s) : renderBegin s = s.setCtrl .dispatching := by
  rw [renderBegin, checked_pass h.1, renderSequence, if_neg]
  rintro ⟨hf, ht⟩
  rw [h.2 hf] at ht
  cases ht

/-- The later phases leave a block alone that is in HALTED. -/
theorem render_phases_halted {s : State} (h : s.ctrl = .halted) :
    composeStep (collectStep (workersRun (dispatchStep s))) = s := by
  have h1 : dispatchStep s = s := by simp [dispatchStep, h]
  have h2 : workersRun s = s := by simp [workersRun, h]
  have h3 : collectStep s = s := by simp [collectStep, h]
  have h4 : composeStep s = s := by simp [composeStep, h]
  rw [h1, h2, h3, h4]

theorem collectStep_reported {s : State} {ws : List Worker} (h : s.ctrl = .collecting ws)
    (hr : ∀ w ∈ ws, w.isRunning = false) :
    (∃ t k, ws.findSome? Worker.failure = some (t, k) ∧ collectStep s = raiseRange t k s) ∨
      (ws.findSome? Worker.failure = none ∧ collectStep s = s.setCtrl (.composing (ws.map Worker.buf))) := by
  have hany : ws.any Worker.isRunning = false := by
    rw [List.any_eq_false]
    intro w hw
    simp [hr w hw]
  cases hf : ws.findSome? Worker.failure with
  | none => exact .inr ⟨rfl, by simp [collectStep, h, hany, hf]⟩
  | some p => exact .inl ⟨p.1, p.2, rfl, by simp [collectStep, h, hany, hf]⟩

/-- The workers after they have all run are in order and have reported. -/
theorem workers_after_run {s : State} (ha : RenderAccepted s) :
    WorkersOk s (((partition s.regs.visiblePixels s.regs.threads.toNat).map Worker.start).map (workerRun s)) ∧
      ∀ w ∈ ((partition s.regs.visiblePixels s.regs.threads.toNat).map Worker.start).map (workerRun s),
        w.isRunning = false := by
  have hs := sourceOf_of_checks ha.1
  have ht : s.regs.threads.toNat ≠ 0 := by
    have := ((renderAllChecks_none_iff _).1 ha.1).2.1.1.1
    omega
  have hle : ∀ {l : List (Nat × Nat)} {a b : Nat}, Contiguous a l b → ∀ c ∈ l, c.1 ≤ c.2 := by
    intro l
    induction l with
    | nil => intro a b _ c hc; cases hc
    | cons x l ih =>
      intro a b h c hc
      rcases List.mem_cons.1 hc with rfl | hc
      · exact h.2.1
      · exact ih h.2.2 c hc
  have hspec : ∀ c ∈ partition s.regs.visiblePixels s.regs.threads.toNat,
      WorkerOk s (workerRun s (Worker.start c)) ∧ (workerRun s (Worker.start c)).lo = c.1 ∧
        (workerRun s (Worker.start c)).hi = c.2 ∧ (workerRun s (Worker.start c)).isRunning = false :=
    fun c hc => workerRun_spec hs (workerStart_ok s (hle (partition_contiguous _ _ ht) c hc))
  refine ⟨⟨?_, ?_⟩, ?_⟩
  · simp only [List.map_map]
    refine (List.map_congr_left fun c hc => ?_).trans (List.map_id _)
    have := hspec c hc
    simp [this.2.1, this.2.2.1]
  · intro w hw
    simp only [List.map_map, List.mem_map] at hw
    obtain ⟨c, hc, rfl⟩ := hw
    exact (hspec c hc).1
  · intro w hw
    simp only [List.map_map, List.mem_map] at hw
    obtain ⟨c, hc, rfl⟩ := hw
    exact (hspec c hc).2.2.2

/-- What RENDER does once its checks pass: either the lowest failing visible index gives a RANGE error and nothing else
changes, or every pixel has a value and the frame buffer holds them (45 R331). -/
theorem renderRun_spec {s : State} (ha : RenderAccepted s) :
    (∃ v0 t k, v0 < s.regs.visiblePixels ∧ PixelIs s v0 (.fail t k) ∧ (∀ v < v0, ∃ g, PixelIs s v (.ok g)) ∧
        renderRun s = raiseRange t k s) ∨
      ∃ gs, FrameIs s gs ∧ renderRun s = (s.storeBytes fbBase (gs.flatMap pixelBytes)).setCtrl .idle := by
  have ht : s.regs.threads.toNat ≠ 0 := by
    have := ((renderAllChecks_none_iff _).1 ha.1).2.1.1.1
    omega
  obtain ⟨hok, hrep⟩ := workers_after_run ha
  have hw : workersRun (dispatchStep (renderBegin s)) = s.setCtrl
      (.collecting (((partition s.regs.visiblePixels s.regs.threads.toNat).map Worker.start).map (workerRun s))) := by
    rw [renderBegin_accepted ha]
    have hcong : ∀ w, workerRun ((s.setCtrl .dispatching).setCtrl
        (.collecting ((partition s.regs.visiblePixels s.regs.threads.toNat).map Worker.start))) w = workerRun s w := by
      intro w
      have : workerStep ((s.setCtrl .dispatching).setCtrl
          (.collecting ((partition s.regs.visiblePixels s.regs.threads.toNat).map Worker.start))) = workerStep s := by
        funext x
        have hsame : SameSnapshot ((s.setCtrl .dispatching).setCtrl
          (.collecting ((partition s.regs.visiblePixels s.regs.threads.toNat).map Worker.start))) s :=
          sameSnapshot_of_mem rfl rfl rfl
        simp only [workerStep, pixelGray_same hsame, hsame.1]
      simp only [workerRun, this]
    simp only [dispatchStep, setCtrl_ctrl, setCtrl_regs, workersRun]
    rw [List.map_congr_left fun w _ => hcong w]
    rfl
  have hcont := hok.1 ▸ partition_contiguous s.regs.visiblePixels s.regs.threads.toNat ht
  rw [renderRun, hw]
  rcases collectStep_reported (s := s.setCtrl (.collecting
      (((partition s.regs.visiblePixels s.regs.threads.toNat).map Worker.start).map (workerRun s)))) rfl hrep with
    ⟨t, k, hf, he⟩ | ⟨hf, he⟩
  · left
    obtain ⟨v0, -, h1, h2, h3⟩ := failure_is_lowest hcont hok.2 hrep hf
    refine ⟨v0, t, k, h1, h2, fun v hv => h3 v (Nat.zero_le v) hv, ?_⟩
    rw [he, composeStep]
    rfl
  · right
    obtain ⟨h1, h2⟩ := buffers_of_done hcont hok.2 hrep hf
    refine ⟨_, ⟨by rw [← h1, Nat.zero_add], fun v hv => by have := h2 v hv; rwa [Nat.zero_add] at this⟩, ?_⟩
    rw [he]
    rfl

end Sys2Proof.Machine
end

