-- ==== Sys2Proof/Laws/Agents.lean ====
section
/-! SUPPORT. What a move of an agent, and a step of the machine, can do. -/

namespace Sys2Proof.Machine

/-- What each meaning does: dropped, or run from IDLE. -/
theorem exec_cases (i : Instr) (s : State) :
    (s.ctrl ≠ .idle ∧ exec i s = .next { s with cmdReject := true }) ∨
      (s.ctrl = .idle ∧ exec i s = .next (match i with
        | .nop => s
        | .preint => preintRun s
        | .render => renderRun s
        | .advance => advanceRun s)) := by
  by_cases h : s.ctrl = .idle
  · refine .inr ⟨h, ?_⟩
    cases i <;> simp [exec, execNop, execPreint, execRender, execAdvance, accept_idle h, nopBegin]
  · refine .inl ⟨h, ?_⟩
    cases i <;> simp [exec, execNop, execPreint, execRender, execAdvance, accept_dropped h]

/-- A command that is only begun: dropped, or in its first state. -/
theorem beginCommand_cases (i : Instr) (s : State) :
    (s.ctrl ≠ .idle ∧ beginCommand i s = { s with cmdReject := true }) ∨
      (s.ctrl = .idle ∧ beginCommand i s = match i with
        | .nop => s
        | .preint => preintBegin s
        | .render => renderBegin s
        | .advance => advanceBegin s) := by
  by_cases h : s.ctrl = .idle
  · refine .inr ⟨h, ?_⟩
    cases i <;> simp [beginCommand, accept_idle h, nopBegin]
  · refine .inl ⟨h, ?_⟩
    cases i <;> simp [beginCommand, accept_dropped h]

/-- What a write to CMD leads to. -/
theorem commandWrite_cases (whole : Bool) (w : Word) (s : State) :
    (∃ i, decode w = .ok i ∧ whole = true ∧ commandWrite whole w s = exec i s) ∨
      (∃ i, decode w = .ok i ∧ whole = false ∧ commandWrite whole w s = .next (beginCommand i s)) ∨
        ∃ e, decode w = .error e ∧ commandWrite whole w s = .next (illegalCommand w s) := by
  unfold commandWrite
  cases h : decode w with
  | error e => exact .inr (.inr ⟨e, rfl, rfl⟩)
  | ok i => cases whole <;> simp

/-- What the host's next operation is and does. -/
theorem hostStep_cases (whole : Bool) (s : State) :
    (s.ops = [] ∧ hostStep whole s = .next s) ∨
      (∃ a rest, s.ops = .read a :: rest ∧ hostStep whole s =
        .next (answer (busRead a { s with ops := rest }).1 (busRead a { s with ops := rest }).2)) ∨
        (∃ rest, s.ops = .wait :: rest ∧ hostStep whole s = .next (waitRead rest s)) ∨
        (∃ rest, s.ops = .stopIfHalted :: rest ∧ hostStep whole s = .next (stopRead rest s)) ∨
          (∃ a v rest, s.ops = .write a v :: rest ∧ targetOf s.regs a = .reg .cmd ∧
            hostStep whole s = commandWrite whole v (answer .ok { s with ops := rest })) ∨
            ∃ a v rest, s.ops = .write a v :: rest ∧ targetOf s.regs a ≠ .reg .cmd ∧ hostStep whole s =
              .next (answer (busWrite a v { s with ops := rest }).1 (busWrite a v { s with ops := rest }).2) := by
  unfold hostStep
  cases h : s.ops with
  | nil => exact .inl ⟨rfl, rfl⟩
  | cons op rest =>
    cases op with
    | read a => exact .inr (.inl ⟨a, rest, rfl, rfl⟩)
    | wait => exact .inr (.inr (.inl ⟨rest, rfl, rfl⟩))
    | stopIfHalted => exact .inr (.inr (.inr (.inl ⟨rest, rfl, rfl⟩)))
    | write a v =>
      by_cases ht : targetOf s.regs a = .reg .cmd
      · exact .inr (.inr (.inr (.inr (.inl ⟨a, v, rest, rfl, ht, by simp only [if_pos ht]⟩))))
      · exact .inr (.inr (.inr (.inr (.inr ⟨a, v, rest, rfl, ht, by simp only [if_neg ht]⟩))))

/-- What a step is: a move laid down, the default move, or nothing. -/
theorem step_cases (s : State) :
    (∃ m rest, s.moves = m :: rest ∧ step s = agentMove m { s with moves := rest }) ∨
      (s.moves = [] ∧ ∃ m, defaultMove s = some m ∧ step s = agentMove m s) ∨
        (s.moves = [] ∧ defaultMove s = none ∧ step s = .next s) := by
  unfold step machineStep
  cases h : s.moves with
  | cons m rest => exact .inl ⟨m, rest, rfl, rfl⟩
  | nil =>
    cases hd : defaultMove s with
    | some m => exact .inr (.inl ⟨rfl, m, rfl, rfl⟩)
    | none => exact .inr (.inr ⟨rfl, rfl, rfl⟩)

/-- What a step of the controller is, by the state it is in. -/
theorem controllerStep_cases (s : State) :
    ((s.ctrl = .idle ∨ s.ctrl = .halted) ∧ controllerStep s = s) ∨
      (s.ctrl = .dispatching ∧ controllerStep s = dispatchStep s) ∨
        ((∃ ws, s.ctrl = .collecting ws) ∧ controllerStep s = collectStep s) ∨
          ((∃ bufs, s.ctrl = .composing bufs) ∧ controllerStep s = composeStep s) ∨
            ((∃ k c, s.ctrl = .preintegrating k c) ∧ controllerStep s = preintStep s) ∨
              (s.ctrl = .advancing ∧ controllerStep s = advanceStep s) := by
  cases h : s.ctrl <;> simp [controllerStep, h]

end Sys2Proof.Machine
end

