-- ==== Sys2Proof/Laws/ExactReal.lean ====
section
/-! SUPPORT. What the operations on exact reals give, and the rules' forms of those that use them (00 R12; 40 R163, R168; 42 R220;
45 R324). -/

namespace Sys2Proof.Machine

theorem realFloor_eq (x : ℝ) : realFloor x = ⌊x⌋ := (valueOf (· = ⌊x⌋)).property

@[simp] theorem ExactReal.val_ofRat (q : ℚ) : (ExactReal.ofRat q).val = q := rfl
@[simp] theorem ExactReal.val_ofReal (x : ℝ) : (ExactReal.ofReal x).val = x := rfl

@[simp] theorem ExactReal.val_mul (a b : ExactReal) : (a.mul b).val = a.val * b.val := by
  cases a <;> cases b <;> simp [ExactReal.mul]

@[simp] theorem ExactReal.val_affine (m c : ℚ) (a : ExactReal) : (a.affine m c).val = m * a.val + c := by
  cases a <;> simp [ExactReal.affine]

theorem ExactReal.floor_eq (a : ExactReal) : a.floor = ⌊a.val⌋ := by
  cases a
  · simp [ExactReal.floor]
  · exact realFloor_eq _

/-- FROM_FRACTION as the rule writes it (40 R163). -/
theorem fromFraction_eq (f : ExactReal) : fromFraction f = BitVec.ofInt 32 ⌊f.val * 2 ^ 32 + 1 / 2⌋ := by
  rw [fromFraction, ExactReal.floor_eq, ExactReal.val_affine, mul_comm]
  norm_num

/-- FROM_FRACTION depends on the real number alone. -/
theorem fromFraction_congr {f g : ExactReal} (h : f.val = g.val) : fromFraction f = fromFraction g := by
  rw [fromFraction_eq, fromFraction_eq, h]

/-- The host's conversion as the rule writes it (40 R168). -/
theorem hostPpp_eq (f : ExactReal) (dc : Nat) : hostPpp f dc = BitVec.ofInt 32 ⌊f.val / dc * 2 ^ 32 + 1 / 2⌋ := by
  have : ((1 / (dc : ℚ) : ℚ) : ℝ) * f.val + ((0 : ℚ) : ℝ) = f.val / dc := by
    push_cast
    ring
  rw [hostPpp, fromFraction_eq, ExactReal.val_affine, this]

/-- GRAY as the rule writes it (45 R324). -/
theorem gray_eq (a : ExactReal) : gray a = BitVec.ofInt 8 ⌊255 / 2 * a.val + 128⌋ := by
  simp [gray, ExactReal.floor_eq]

/-- NORMALIZE as the rule writes it (42 R220). -/
theorem normalize_val (a : ExactReal) : (normalize a).val = (a.val + 1) / 2 := by
  rw [normalize, ExactReal.val_affine]
  push_cast
  ring

end Sys2Proof.Machine
end

