-- ==== Sys2Proof/Laws/HostErrors.lean ====
section
/-! SUPPORT. Errors of the host's loader: the host stops, and the block has nothing that stands for them (43 R258, 60 R390). -/

namespace Sys2Proof.Machine

/-! ## The host -/

/-- If there is no usable file, every window fails to load (43 R258). -/
@[simp] theorem loadWindow_none (f : PcmFormat) (ns n m : Nat) : loadWindow none f ns n m = .error .configuration := rfl

/-- A window that loads is full: no shorter one is ever rendered (43 R258). -/
theorem loadWindow_full {file : Option (List Byte)} {f : PcmFormat} {ns n m : Nat} {w : List Byte}
    (h : loadWindow file f ns n m = .ok w) : w.length = ns * sampleBytes f := by
  unfold loadWindow at h
  split at h
  · cases h
  · dsimp only at h
    split at h
    · rename_i hl
      cases h
      exact hl
    · cases h

/-- If the window of frame `m + k + 1` cannot be loaded, no round after that of frame `m + k` is in the loop, and that one ends
with its ADVANCE: the host issues no other RENDER (60 R390; log 19). -/
theorem frameLoop_stops {g : Regs} {load : Nat → Except HostError (List Byte)} {e : HostError} (k : Nat) :
    ∀ {m n : Nat}, windowFor g load (m + k + 1) = .error e → k < n → frameLoop g load m n = frameLoop g load m (k + 1) := by
  induction k with
  | zero =>
    intro m n h hn
    obtain ⟨n, rfl⟩ := Nat.exists_eq_succ_of_ne_zero (Nat.ne_of_gt hn)
    simp only [frameLoop]
    rw [show m + 1 = m + 0 + 1 from rfl, h]
  | succ k ih =>
    intro m n h hn
    obtain ⟨n, rfl⟩ := Nat.exists_eq_succ_of_ne_zero (Nat.ne_of_gt (Nat.zero_lt_of_lt hn))
    simp only [frameLoop]
    rw [ih (m := m + 1) (n := n) (by rw [← h]; congr 1; omega) (by omega)]
    rfl

/-- The last round before a window that cannot be loaded ends with its ADVANCE. -/
theorem frameLoop_last {g : Regs} {load : Nat → Except HostError (List Byte)} {e : HostError} {m n : Nat}
    (h : windowFor g load (m + 1) = .error e) : frameLoop g load m (n + 1) = frameRender g := by
  simp only [frameLoop, h, List.append_nil]

/-- An error at startup aborts it: the host issues nothing (60 R390; log 19). -/
theorem hostProgram_aborts {target : State} {load : Nat → Except HostError (List Byte)} {e : HostError} (n : Nat)
    (h : windowFor target.regs load 0 = .error e) : hostProgram target load n = [] := by
  simp only [hostProgram, h]

/-! ## The block -/

/-- STATUS has no bit but those of R33: 6, 7 and 10 to 31 read 0 in every state (43 R258). -/
theorem statusWord_unused (s : State) {i : Nat} (h : i = 6 ∨ i = 7 ∨ 10 ≤ i) : (statusWord s).getLsbD i = false := by
  by_cases hi : i < 32
  · have key : ∀ (a b c d e : Bool) (w : BitVec 3), ∀ j < 32, (j = 6 ∨ j = 7 ∨ 10 ≤ j) →
        (0#22 ++ BitVec.ofBool a ++ BitVec.ofBool b ++ 0#2 ++ BitVec.ofBool c ++ BitVec.ofBool d ++ w
          ++ BitVec.ofBool e).getLsbD j = false := by decide +kernel
    exact key _ _ _ _ _ _ i hi h
  · exact BitVec.getLsbD_of_ge _ _ (by omega)

/-- The code of an error that the block raises is 1 to 4, and each is one of the block's own four causes (60 R380, R390). -/
theorem errorCode_toBits (e : ErrorCode) :
    e.toBits = match e with | .cmd => 1 | .config => 2 | .seq => 3 | .range => 4 := by cases e <;> rfl

end Sys2Proof.Machine
end

