-- ==== Sys2Proof/Laws/PerInstr.lean ====
section
/-! SUPPORT. One lemma per command: it is well formed, its word is a legal command word, and the decoder reads it back from
that word (30 R121, R122). -/

namespace Sys2Proof.Laws.ReadBack

/-- The command's word is legal and decodes to the command. -/
def Statement (i : Sys2Proof.Instr) : Prop :=
  i.wellFormed = true ∧ commandWordOk (encode i) = true ∧ decode (encode i) = .ok i ∧
    decodeTableWord 32 (encode i).toNat = some i

theorem nop : Statement .nop := by unfold Statement; decide

theorem preint : Statement .preint := by unfold Statement; decide

theorem render : Statement .render := by unfold Statement; decide

theorem advance : Statement .advance := by unfold Statement; decide

end Sys2Proof.Laws.ReadBack
end

