-- ==== Sys2Proof/Laws/Step.lean ====
section
/-! SUPPORT. All that one step can do, said once. -/

namespace Sys2Proof.Machine

/-- What an accepted command does: run whole, or begun. -/
def commandEffect (whole : Bool) (i : Instr) (s : State) : State :=
  match i, whole with
  | .nop, _ => s
  | .preint, true => preintRun s
  | .preint, false => preintBegin s
  | .render, true => renderRun s
  | .render, false => renderBegin s
  | .advance, true => advanceRun s
  | .advance, false => advanceBegin s

/-- What a step other than a reset does to the state, the schedule's head already taken off. -/
inductive StepEffect (s : State) : State → Prop where
  | nothing : StepEffect s s
  | controller : StepEffect s (controllerStep s)
  | worker (n : Nat) : StepEffect s (workerMove n s)
  | read (a : Word) (rest : List HostOp) (ho : s.ops = .read a :: rest) :
    StepEffect s (answer (busRead a { s with ops := rest }).1 (busRead a { s with ops := rest }).2)
  | wait (rest : List HostOp) (ho : s.ops = .wait :: rest) : StepEffect s (waitRead rest s)
  | stop (rest : List HostOp) (ho : s.ops = .stopIfHalted :: rest) : StepEffect s (stopRead rest s)
  | write (a v : Word) (rest : List HostOp) (ho : s.ops = .write a v :: rest) (ha : a ≠ 0#32) :
    StepEffect s (answer (busWrite a v { s with ops := rest }).1 (busWrite a v { s with ops := rest }).2)
  | dropped (w : Word) (rest : List HostOp) (ho : s.ops = .write 0#32 w :: rest) (hc : s.ctrl ≠ .idle) :
    StepEffect s { answer .ok { s with ops := rest } with cmdReject := true }
  | illegal (w : Word) (e : DecodeError) (rest : List HostOp) (ho : s.ops = .write 0#32 w :: rest)
    (hc : s.ctrl = .idle) (hd : decode w = .error e) :
    StepEffect s (raiseError .cmd w 0 (answer .ok { s with ops := rest }))
  | command (whole : Bool) (i : Instr) (rest : List HostOp) (ho : s.ops = .write 0#32 (encode i) :: rest)
    (hc : s.ctrl = .idle) : StepEffect s (commandEffect whole i (answer .ok { s with ops := rest }))

/-- The word of a decoded command is its encoding. -/
theorem eq_encode_of_decode {w : Word} {i : Instr} (h : decode w = .ok i) : w = encode i := by
  have hs : w = w.extractLsb' 8 24 ++ w.extractLsb' 0 8 := by
    apply BitVec.eq_of_toNat_eq
    rw [BitVec.toNat_append, Nat.shiftLeft_eq, mul_comm, ← Nat.two_pow_add_eq_or_of_lt (BitVec.isLt _)]
    simp only [BitVec.extractLsb'_toNat, Nat.shiftRight_eq_div_pow]
    omega
  unfold decode at h
  split at h
  · cases h
  · rename_i hr
    simp only [ne_eq, not_not] at hr
    split at h
    · rename_i j hj
      cases h
      rw [hs, hr, encode]
      congr 1
      unfold decodeOpcode at hj
      apply BitVec.eq_of_toNat_eq
      split at hj <;> first | (cases hj; assumption) | cases hj
    · cases h

/-- The address of CMD is 0. -/
theorem targetOf_cmd_iff (g : Regs) (a : Word) : targetOf g a = .reg .cmd ↔ a = 0#32 := by
  constructor
  · intro h
    have := targetOf_spec g a
    rw [h] at this
    exact BitVec.eq_of_toNat_eq this
  · rintro rfl
    exact targetOf_offset g .cmd

theorem exec_accepted {s : State} (h : s.ctrl = .idle) (i : Instr) : exec i s = .next (commandEffect true i s) := by
  rcases exec_cases i s with ⟨h', -⟩ | ⟨-, h'⟩
  · exact absurd h h'
  · rw [h']; cases i <;> rfl

theorem exec_dropped {s : State} (h : s.ctrl ≠ .idle) (i : Instr) : exec i s = .next { s with cmdReject := true } := by
  rcases exec_cases i s with ⟨-, h'⟩ | ⟨h', -⟩
  · exact h'
  · exact absurd h' h

theorem beginCommand_accepted {s : State} (h : s.ctrl = .idle) (i : Instr) :
    beginCommand i s = commandEffect false i s := by
  rcases beginCommand_cases i s with ⟨h', -⟩ | ⟨-, h'⟩
  · exact absurd h h'
  · rw [h']; cases i <;> rfl

theorem beginCommand_dropped {s : State} (h : s.ctrl ≠ .idle) (i : Instr) :
    beginCommand i s = { s with cmdReject := true } := by
  rcases beginCommand_cases i s with ⟨-, h'⟩ | ⟨h', -⟩
  · exact h'
  · exact absurd h' h

/-- A move of the host has one of the host's effects. -/
theorem hostStep_effect {whole : Bool} {s t : State} (h : hostStep whole s = .next t) : StepEffect s t := by
  rcases hostStep_cases whole s with ⟨-, h'⟩ | ⟨a, rest, ho, h'⟩ | ⟨rest, ho, h'⟩ | ⟨rest, ho, h'⟩ | ⟨a, v, rest, ho, ha, h'⟩ |
      ⟨a, v, rest, ho, ha, h'⟩
  · rw [h] at h'; cases h'; exact .nothing
  · rw [h] at h'; cases h'; exact .read a rest ho
  · rw [h] at h'; cases h'; exact .wait rest ho
  · rw [h] at h'; cases h'; exact .stop rest ho
  · rw [h] at h'
    obtain rfl := (targetOf_cmd_iff _ _).1 ha
    by_cases hc : s.ctrl = .idle
    · have hc' : (answer .ok { s with ops := rest }).ctrl = .idle := hc
      rcases commandWrite_cases whole v (answer .ok { s with ops := rest }) with
          ⟨i, hd, rfl, hw⟩ | ⟨i, hd, rfl, hw⟩ | ⟨e, hd, hw⟩
      · rw [hw, exec_accepted hc'] at h'
        cases h'
        exact .command true i rest (eq_encode_of_decode hd ▸ ho) hc
      · rw [hw, beginCommand_accepted hc'] at h'
        cases h'
        exact .command false i rest (eq_encode_of_decode hd ▸ ho) hc
      · rw [hw, illegalCommand, accept_idle hc'] at h'
        cases h'
        exact .illegal v e rest ho hc hd
    · have hc' : (answer .ok { s with ops := rest }).ctrl ≠ .idle := hc
      have : commandWrite whole v (answer .ok { s with ops := rest }) =
          .next { answer .ok { s with ops := rest } with cmdReject := true } := by
        rcases commandWrite_cases whole v (answer .ok { s with ops := rest }) with
            ⟨i, hd, rfl, hw⟩ | ⟨i, hd, rfl, hw⟩ | ⟨e, hd, hw⟩
        · rw [hw, exec_dropped hc']
        · rw [hw, beginCommand_dropped hc']
        · rw [hw, illegalCommand, accept_dropped hc']
      rw [this] at h'
      cases h'
      exact .dropped v rest ho hc
  · rw [h] at h'; cases h'
    exact .write a v rest ho fun h0 => ha ((targetOf_cmd_iff _ _).2 h0)

theorem agentMove_effect {m : Move} {s t : State} (h : agentMove m s = .next t) :
    (m = .reset ∧ t = resetBlock s) ∨ StepEffect s t := by
  cases m with
  | host => exact .inr (hostStep_effect h)
  | hostRun => exact .inr (hostStep_effect h)
  | controller => simp only [agentMove] at h; cases h; exact .inr .controller
  | worker n => simp only [agentMove] at h; cases h; exact .inr (.worker n)
  | reset => simp only [agentMove] at h; cases h; exact .inl ⟨rfl, rfl⟩

/-- What a step can do: a reset that was laid down, or one effect, the schedule's head taken off. -/
theorem step_effect {s t : State} (h : step s = .next t) :
    (∃ ms, s.moves = .reset :: ms ∧ t = resetBlock { s with moves := ms }) ∨
      ∃ ms, StepEffect { s with moves := ms } t := by
  rcases step_cases s with ⟨m, rest, hm, h'⟩ | ⟨hm, m, hd, h'⟩ | ⟨hm, -, h'⟩
  · rw [h] at h'
    rcases agentMove_effect h'.symm with ⟨rfl, ht⟩ | ht
    · exact .inl ⟨rest, hm, ht⟩
    · exact .inr ⟨rest, ht⟩
  · rw [h] at h'
    rcases agentMove_effect h'.symm with ⟨rfl, -⟩ | ht
    · unfold defaultMove at hd
      split at hd
      · split at hd <;> cases hd
      all_goals first | cases hd | (split at hd <;> cases hd)
    · exact .inr ⟨s.moves, ht⟩
  · rw [h] at h'; cases h'; exact .inr ⟨s.moves, .nothing⟩

end Sys2Proof.Machine
end

