-- ==== Sys2Proof/Laws/Safe.lean ====
section
/-! SUPPORT. What the invariant depends on, and the plainest updates that keep it. -/

namespace Sys2Proof.Machine

/-- The table's truth does not depend on the controller state. -/
theorem tableBuilt_setCtrl {s : State} {n : Nat} (hn : n ≤ 2 ^ 17) (h : TableBuilt s n) (c : Ctrl) :
    TableBuilt (s.setCtrl c) n :=
  tableBuilt_inputs (s := s) (t := s.setCtrl c)
    (sameTableInputs_of_snapshot (sameSnapshot_of_mem rfl rfl rfl)) hn (fun _ _ => rfl) h

section Congruence

variable {s t : State} (hr : s.regs = t.regs) (hm : s.mem = t.mem) (hz : s.resets = t.resets)
  (hv : s.tableValid = t.tableValid)
include hr hm hz hv

theorem tableOk_congr (h : TableOk s) : TableOk t := fun ht => by
  obtain ⟨h1, h2⟩ := h (hv.trans ht)
  exact ⟨hr ▸ h1, hr ▸ tableBuilt_inputs (sameTableInputs_of_snapshot (sameSnapshot_of_mem hr hm hz))
    (Nat.le_of_lt (ns_lt _)) (fun k _ => tblEntry_congr hm hz k) h2⟩

theorem ctrlOk_congr (hc : s.ctrl = t.ctrl) (h : CtrlOk s) : CtrlOk t := by
  have hs : SameSnapshot s t := sameSnapshot_of_mem hr hm hz
  have hra : RenderAccepted s → RenderAccepted t := fun h => by
    unfold RenderAccepted at *
    rwa [← hr, ← hv]
  have hns := ns_lt s.regs
  unfold CtrlOk at *
  rw [← hc]
  split at h
  · trivial
  · trivial
  · obtain ⟨h1, h2, h3, h4⟩ := h
    refine ⟨hr ▸ h1, hr ▸ h2, ?_, ?_⟩
    · rw [h3]
      exact cumAt_inputs (sameTableInputs_of_snapshot hs) (by omega)
    · exact tableBuilt_inputs (sameTableInputs_of_snapshot hs) (by omega) (fun k _ => tblEntry_congr hm hz k) h4
  · exact hra h
  · exact ⟨hra h.1, workersOk_same hs h.2⟩
  · obtain ⟨ha, h1, h2⟩ := h
    exact ⟨hra ha, hr ▸ h1, fun v hv => pixelIs_same hs (h2 v hv)⟩
  · exact hr ▸ h

/-- The invariant is about the registers, the flags of the table, the memories and the controller only. -/
theorem safe_congr (hc : s.ctrl = t.ctrl) (h : Safe s) : Safe t where
  params := hr ▸ h.params
  memory := by
    have := h.memory
    unfold MemoryOk at *
    rwa [← hr, ← hm]
  errors := by
    have := h.errors
    unfold ErrorsOk at *
    rwa [← hr, ← hc]
  table := tableOk_congr hr hm hz hv h.table
  ctrl := ctrlOk_congr hr hm hz hv hc h.ctrl

end Congruence

/-- Entering HALTED keeps the invariant. -/
theorem safe_raiseError {s : State} (h : Safe s) (e : ErrorCode) (i x : Word) : Safe (raiseError e i x s) where
  params := h.params
  memory := h.memory
  errors := by
    simp only [ErrorsOk, raiseError_ctrl, raiseError_regs, if_true]
    cases e <;> decide
  table := fun ht => by
    obtain ⟨h1, h2⟩ := h.table ht
    refine ⟨h1, tableBuilt_inputs (s := s) ?_ (Nat.le_of_lt (ns_lt _)) (fun k _ => rfl) h2⟩
    constructor <;> first | rfl | (intros; rfl)
  ctrl := trivial

/-- Changing the controller state keeps the invariant if the new state's own part of it holds. -/
theorem safe_setCtrl {s : State} (h : Safe s) {c : Ctrl} (h1 : s.ctrl ≠ .halted) (h2 : c ≠ .halted)
    (hc : CtrlOk (s.setCtrl c)) : Safe (s.setCtrl c) where
  params := h.params
  memory := h.memory
  errors := by
    have := h.errors
    simp only [ErrorsOk, h1, h2, if_false, setCtrl_ctrl, setCtrl_regs] at *
    exact this
  table := tableOk_congr (s := s) rfl rfl rfl rfl h.table
  ctrl := hc

end Sys2Proof.Machine
end

