-- ==== Sys2Proof/Laws/Schedule.lean ====
section
/-! SUPPORT. What the block's own steps do not look at, what the host's moves can do while a command is in progress, and runs
under a schedule, one move at a time. -/

namespace Sys2Proof.Machine

/-! ## The host's side of the state -/

/-- `s` with what the host's transactions may leave while a command is in progress taken from `h`: BUSY_WRITE, CMD_REJECT and
the model's own fields for the host. -/
def State.setHost (h s : State) : State :=
  { s with busyWrite := h.busyWrite, cmdReject := h.cmdReject, draws := h.draws, ops := h.ops, replies := h.replies,
           moves := h.moves }

@[simp] theorem setHost_self (s : State) : s.setHost s = s := rfl
@[simp] theorem setHost_setHost (g h s : State) : g.setHost (h.setHost s) = g.setHost s := rfl
@[simp] theorem setHost_regs (h s : State) : (h.setHost s).regs = s.regs := rfl
@[simp] theorem setHost_ctrl (h s : State) : (h.setHost s).ctrl = s.ctrl := rfl
@[simp] theorem setHost_tableValid (h s : State) : (h.setHost s).tableValid = s.tableValid := rfl
@[simp] theorem setHost_mem (h s : State) : (h.setHost s).mem = s.mem := rfl
@[simp] theorem setHost_resets (h s : State) : (h.setHost s).resets = s.resets := rfl
@[simp] theorem setHost_moves (h s : State) : (h.setHost s).moves = h.moves := rfl

theorem setHost_snapshot (h s : State) : SameSnapshot (h.setHost s) s := sameSnapshot_of_mem rfl rfl rfl

/-- The function neither looks at the host's side nor changes it. -/
def Blind (f : State → State) : Prop := ∀ h s : State, f (h.setHost s) = h.setHost (f s)

theorem Blind.comp {f g : State → State} (hf : Blind f) (hg : Blind g) : Blind (fun s => f (g s)) := fun h s =>
  (congrArg f (hg h s)).trans (hf h (g s))

theorem Blind.iterate {f : State → State} (hf : Blind f) : ∀ n, Blind f^[n]
  | 0 => fun _ _ => rfl
  | n + 1 => fun h s => by rw [Function.iterate_succ_apply, Function.iterate_succ_apply, hf, hf.iterate n]

/-- A blind function leaves the host's side alone. -/
theorem Blind.host {f : State → State} (hf : Blind f) (s : State) : f s = s.setHost (f s) := hf s s

/-- Whatever schedule is laid down, a blind function does the same. -/
theorem Blind.moves {f : State → State} (hf : Blind f) (ms : List Move) (s : State) :
    f { s with moves := ms } = { f s with moves := ms } := by
  rw [hf.host s]
  exact hf { s with moves := ms } s

theorem blind_setCtrl (c : Ctrl) : Blind (State.setCtrl c) := fun _ _ => rfl
theorem blind_raiseError (e : ErrorCode) (i x : Word) : Blind (raiseError e i x) := fun _ _ => rfl

theorem blind_preintStep : Blind preintStep := fun h s => by
  cases hc : s.ctrl with
  | preintegrating k c =>
    by_cases hk : k < s.regs.ns
    · rw [preintStep_entry (s := s) hc hk, preintStep_entry (s := h.setHost s) hc hk]
      rfl
    · rw [preintStep_commit (s := s) hc hk, preintStep_commit (s := h.setHost s) hc hk]
      rfl
  | _ =>
    rw [preintStep_other (s := s) (by simp [hc]), preintStep_other (s := h.setHost s) (by simp [hc])]

theorem blind_workerStep (h s : State) (w : Worker) : workerStep (h.setHost s) w = workerStep s w := by
  unfold workerStep
  simp only [pixelGray_same (setHost_snapshot h s), setHost_regs]

theorem blind_workerRun (h s : State) (w : Worker) : workerRun (h.setHost s) w = workerRun s w := by
  unfold workerRun
  rw [show workerStep (h.setHost s) = workerStep s from funext (blind_workerStep h s)]

theorem blind_workerMove (n : Nat) : Blind (workerMove n) := fun h s => by
  unfold workerMove
  rw [show workerStep (h.setHost s) = workerStep s from funext (blind_workerStep h s)]
  simp only [setHost_ctrl]
  split <;> rfl

theorem blind_workersRun : Blind workersRun := fun h s => by
  unfold workersRun
  rw [show workerRun (h.setHost s) = workerRun s from funext (blind_workerRun h s)]
  simp only [setHost_ctrl]
  split <;> rfl

theorem blind_dispatchStep : Blind dispatchStep := fun h s => by
  unfold dispatchStep
  simp only [setHost_ctrl, setHost_regs]
  split <;> rfl

theorem blind_collectStep : Blind collectStep := fun h s => by
  unfold collectStep
  simp only [setHost_ctrl]
  split
  · split
    · rfl
    · split <;> rfl
  · rfl

theorem blind_composeStep : Blind composeStep := fun h s => by
  unfold composeStep
  simp only [setHost_ctrl]
  split <;> rfl

theorem blind_advanceStep : Blind advanceStep := fun h s => by
  unfold advanceStep
  rw [advanceSeed_same (setHost_snapshot h s) rfl]
  simp only [setHost_ctrl]
  split
  · split <;> rfl
  · rfl

theorem blind_controllerStep : Blind controllerStep := fun h s => by
  unfold controllerStep
  rw [blind_dispatchStep, blind_collectStep, blind_composeStep, blind_preintStep, blind_advanceStep]
  simp only [setHost_ctrl]
  split <;> rfl

theorem blind_renderSequence : Blind renderSequence := fun h s => by
  unfold renderSequence
  rw [apply_ite (State.setHost h)]
  rfl

theorem blind_checked (cs : List Check) {go : State → State} (hg : Blind go) : Blind (checked cs go) := fun h s => by
  unfold checked
  split
  · rfl
  · exact hg h s

theorem blind_renderBegin : Blind renderBegin := fun h s => blind_checked _ blind_renderSequence h s

theorem blind_preintBegin : Blind preintBegin := fun h s => by
  unfold preintBegin checked
  simp only [setHost_regs]
  split <;> rfl

theorem blind_advanceBegin : Blind advanceBegin := fun h s => blind_checked _ (blind_setCtrl _) h s

/-- What an accepted command does, run whole or begun, neither looks at the host's side nor changes it. -/
theorem blind_commandEffect (whole : Bool) (i : Instr) : Blind (commandEffect whole i) := by
  have hr : Blind renderRun := blind_composeStep.comp (blind_collectStep.comp (blind_workersRun.comp
    (blind_dispatchStep.comp blind_renderBegin)))
  have hp : Blind preintRun := fun h s => by
    simp only [preintRun, setHost_regs]
    rw [blind_preintBegin, blind_preintStep.iterate]
  have ha : Blind advanceRun := blind_advanceStep.comp blind_advanceBegin
  cases i <;> cases whole
  · exact fun _ _ => rfl
  · exact fun _ _ => rfl
  · exact blind_preintBegin
  · exact hp
  · exact blind_renderBegin
  · exact hr
  · exact blind_advanceBegin
  · exact ha

/-! ## The host while a command is in progress -/

/-- While a command is in progress a write leaves the host's side changed at most: the write is dropped, or clears flags of
STATUS (20 R90, 10 R34). -/
theorem busWrite_busy {s : State} (hb : s.ctrl.busy = true) (a v : Word) :
    (busWrite a v s).2 = (busWrite a v s).2.setHost s := by
  rcases busWrite_cases a v s with h | ⟨r, -, h⟩ | ⟨o, -, h⟩
  · rw [h]; rfl
  · rw [h]
    rcases writeReg_cases r v s with ⟨-, -, h'⟩ | ⟨-, h', -⟩ | ⟨-, h'⟩ | ⟨-, h'⟩
    · rw [h']; rfl
    · rw [hb] at h'; cases h'
    · rw [h']; rfl
    · rw [h']; rfl
  · rw [h]
    rcases writeSram_cases o v s with ⟨-, h'⟩ | ⟨h', -⟩
    · rw [h']; rfl
    · rw [hb] at h'; cases h'

/-- A read leaves the host's side changed at most (20 R89). -/
theorem busRead_host (a : Word) (s : State) : (busRead a s).2 = (busRead a s).2.setHost s := by
  rcases busRead_state a s with h | h <;> rw [h] <;> rfl

/-- A word written to CMD while a command is in progress is dropped (45 R320). -/
theorem commandWrite_busy {s : State} (hb : s.ctrl.busy = true) (whole : Bool) (w : Word) :
    commandWrite whole w s = .next { s with cmdReject := true } := by
  have hi : s.ctrl ≠ .idle := ((ctrl_busy_iff _).1 hb).1
  rcases commandWrite_cases whole w s with ⟨i, -, -, h⟩ | ⟨i, -, -, h⟩ | ⟨e, -, h⟩ <;> rw [h]
  · exact exec_dropped hi i
  · rw [beginCommand_dropped hi]
  · rw [illegalCommand, accept_dropped hi]

/-- While a command is in progress a move of the host changes its own side at most (20 R90, R91; 45 R320), and of its
operations it takes the first or, waiting, none. -/
theorem hostStep_busy {s : State} (hb : s.ctrl.busy = true) (whole : Bool) :
    ∃ t, hostStep whole s = .next t ∧ t = t.setHost s ∧ (∀ rest, s.ops = .wait :: rest → t.ops = s.ops) := by
  rcases hostStep_cases whole s with ⟨ho, h⟩ | ⟨a, rest, ho, h⟩ | ⟨rest, ho, h⟩ | ⟨rest, ho, h⟩ | ⟨a, v, rest, ho, -, h⟩ |
      ⟨a, v, rest, ho, -, h⟩
  · exact ⟨_, h, rfl, fun _ _ => rfl⟩
  · refine ⟨_, h, ?_, fun r hr => by rw [ho] at hr; cases hr⟩
    have := busRead_host a { s with ops := rest }
    rw [this]
    rfl
  · exact ⟨_, h, rfl, fun r hr => by simp [hb]⟩
  · exact ⟨_, h, rfl, fun r hr => by rw [ho] at hr; cases hr⟩
  · refine ⟨_, h.trans (commandWrite_busy (s := answer .ok { s with ops := rest }) hb whole v), rfl, fun r hr => by rw [ho] at hr; cases hr⟩
  · refine ⟨_, h, ?_, fun r hr => by rw [ho] at hr; cases hr⟩
    have := busWrite_busy (s := { s with ops := rest }) hb a v
    rw [this]
    rfl

/-! ## Moves and the schedule -/

theorem busRead_moves (a : Word) (ms : List Move) (s : State) :
    busRead a { s with moves := ms } = ((busRead a s).1, { (busRead a s).2 with moves := ms }) := by
  unfold busRead
  dsimp only
  cases targetOf s.regs a with
  | reg r => cases r <;> rfl
  | tbl k f => cases h : s.ctrl.preintegratingNow <;> rfl
  | fb v => cases h : s.ctrl.rendering <;> rfl
  | _ => rfl

theorem busWrite_moves (a v : Word) (ms : List Move) (s : State) :
    busWrite a v { s with moves := ms } = ((busWrite a v s).1, { (busWrite a v s).2 with moves := ms }) := by
  unfold busWrite
  dsimp only
  cases targetOf s.regs a with
  | reg r => cases r <;> simp only [writeReg, Reg.access] <;> cases h : s.ctrl.busy <;> rfl
  | sram o => simp only [writeSram]; cases h : s.ctrl.busy <;> rfl
  | _ => rfl

theorem commandWrite_moves (whole : Bool) (w : Word) (ms : List Move) (s : State) :
    ∃ t, t.moves = s.moves ∧ commandWrite whole w s = .next t ∧
      commandWrite whole w { s with moves := ms } = .next { t with moves := ms } := by
  unfold commandWrite
  by_cases hi : s.ctrl = .idle
  · cases decode w with
    | error e => exact ⟨raiseError .cmd w 0 s, rfl, by simp only [illegalCommand, accept_idle hi],
        by rw [illegalCommand, accept_idle (s := { s with moves := ms }) hi]; rfl⟩
    | ok i =>
      have hb := blind_commandEffect whole i
      refine ⟨commandEffect whole i s, by rw [hb.host s]; rfl, ?_, ?_⟩
      · cases whole
        · simp [beginCommand_accepted hi]
        · simp [exec_accepted hi]
      · rw [← hb.moves]
        cases whole
        · simp [beginCommand_accepted (s := { s with moves := ms }) hi]
        · simp [exec_accepted (s := { s with moves := ms }) hi]
  · refine ⟨{ s with cmdReject := true }, rfl, ?_, ?_⟩ <;> cases decode w <;> cases whole <;>
      simp [illegalCommand, accept_dropped (s := s) hi, accept_dropped (s := { s with moves := ms }) hi,
        beginCommand_dropped (s := s) hi, beginCommand_dropped (s := { s with moves := ms }) hi,
        exec_dropped (s := s) hi, exec_dropped (s := { s with moves := ms }) hi]

/-- With a move laid down, a step is that move. -/
theorem step_move (m : Move) (ms : List Move) (s : State) :
    step { s with moves := m :: ms } = agentMove m { s with moves := ms } := rfl

/-- A move answers a next state, leaves the schedule as it is, and does the same under any other. -/
theorem agentMove_moves (m : Move) (ms : List Move) (s : State) :
    ∃ t, t.moves = s.moves ∧ agentMove m s = .next t ∧ agentMove m { s with moves := ms } = .next { t with moves := ms } := by
  have hh : ∀ whole, ∃ t, t.moves = s.moves ∧ hostStep whole s = .next t ∧
      hostStep whole { s with moves := ms } = .next { t with moves := ms } := fun whole => by
    cases ho : s.ops with
    | nil => exact ⟨s, rfl, by simp only [hostStep, ho], by simp only [hostStep, ho]⟩
    | cons op rest =>
      cases op with
      | read a =>
        refine ⟨answer (busRead a { s with ops := rest }).1 (busRead a { s with ops := rest }).2, ?_,
          by simp only [hostStep, ho], ?_⟩
        · have : ∀ u : State, (busRead a u).2.moves = u.moves := fun u =>
            congrArg (fun p => p.2.moves) (busRead_moves a u.moves u)
          rw [answer_moves, this]
        · simp only [hostStep]
          rw [show busRead a { s with ops := rest, moves := ms } = _ from busRead_moves a ms { s with ops := rest }]
          rfl
      | wait => exact ⟨waitRead rest s, rfl, by simp only [hostStep, ho],
        by simp only [hostStep, ho, waitRead, statusRead]; rfl⟩
      | stopIfHalted => exact ⟨stopRead rest s, rfl, by simp only [hostStep, ho],
        by simp only [hostStep, stopRead, statusRead]; rfl⟩
      | write a v =>
        by_cases ht : targetOf s.regs a = .reg .cmd
        · simp only [hostStep, ho, if_pos ht]
          exact commandWrite_moves whole v ms (answer .ok { s with ops := rest })
        · refine ⟨answer (busWrite a v { s with ops := rest }).1 (busWrite a v { s with ops := rest }).2, ?_,
            by simp only [hostStep, ho, if_neg ht], ?_⟩
          · have : ∀ u : State, (busWrite a v u).2.moves = u.moves := fun u =>
              congrArg (fun p => p.2.moves) (busWrite_moves a v u.moves u)
            rw [answer_moves, this]
          · simp only [hostStep, if_neg ht]
            rw [show busWrite a v { s with ops := rest, moves := ms } = _ from busWrite_moves a v ms { s with ops := rest }]
            rfl
  cases m with
  | host => exact hh false
  | hostRun => exact hh true
  | controller => exact ⟨controllerStep s, by rw [blind_controllerStep.host s]; rfl, rfl,
      by rw [← blind_controllerStep.moves]; rfl⟩
  | worker n => exact ⟨workerMove n s, by rw [(blind_workerMove n).host s]; rfl, rfl,
      by rw [← (blind_workerMove n).moves]; rfl⟩
  | reset => exact ⟨resetBlock s, rfl, rfl, rfl⟩

theorem run_next (M : Host.Core) {k : Nat} {s t : M.State} (h : M.step s = .next t) : M.run (k + 1) s = M.run k t := by
  show (match M.step s with
    | .next s' => M.run k s'
    | .fault r => .fault r
    | .refused r => .refused r) = _
  rw [h]

theorem run_step {k : Nat} {s t : State} (h : step s = .next t) :
    Host.Core.run core (k + 1) s = Host.Core.run core k t := run_next core h

/-- A run of the moves laid down takes them one after the other. -/
theorem run_append (ms : List Move) : ∀ s : State, ∃ t : State, t.moves = [] ∧ ∀ rest,
    Host.Core.run core ms.length { s with moves := ms ++ rest } = .next { t with moves := rest } := by
  induction ms with
  | nil => exact fun s => ⟨{ s with moves := [] }, rfl, fun rest => rfl⟩
  | cons m ms ih =>
    intro s
    obtain ⟨u, -, -, hu⟩ := agentMove_moves m [] s
    obtain ⟨t, ht, hr⟩ := ih u
    refine ⟨t, ht, fun rest => ?_⟩
    rw [← hr rest]
    have : agentMove m { s with moves := ms ++ rest } = .next { u with moves := ms ++ rest } := by
      obtain ⟨v, -, hv, hv'⟩ := agentMove_moves m (ms ++ rest) { s with moves := [] }
      rw [hu] at hv
      cases hv
      exact hv'
    exact run_step (k := ms.length) (s := { s with moves := m :: ms ++ rest }) this

/-- A run under a schedule always answers a next state, with nothing left laid down. -/
theorem runUnder_next (σ : Nat → Move) (s : State) (n : Nat) : ∃ t, runUnder σ s n = .next t ∧ t.moves = [] := by
  obtain ⟨t, ht, hr⟩ := run_append ((List.range n).map σ) s
  refine ⟨t, ?_, ht⟩
  have h := hr []
  rw [List.append_nil, List.length_map, List.length_range] at h
  rw [runUnder, h, ← ht]
  rfl

theorem run_add (M : Host.Core) (a b : Nat) : ∀ {s t : M.State}, M.run a s = .next t → M.run (a + b) s = M.run b t := by
  induction a with
  | zero =>
    intro s t h
    obtain rfl : s = t := Host.Outcome.next.inj h
    rw [Nat.zero_add]
  | succ a ih =>
    intro s t h
    rw [Nat.succ_add]
    cases hs : M.step s with
    | next u => rw [run_next M hs] at h ⊢; exact ih h
    | fault r =>
      have : M.run (a + 1) s = .fault r := by
        show (match M.step s with
          | .next s' => M.run a s'
          | .fault r => .fault r
          | .refused r => .refused r) = _
        rw [hs]
      rw [this] at h
      cases h
    | refused r =>
      have : M.run (a + 1) s = .refused r := by
        show (match M.step s with
          | .next s' => M.run a s'
          | .fault r => .fault r
          | .refused r => .refused r) = _
        rw [hs]
      rw [this] at h
      cases h

/-- One more step under the schedule is its next move. -/
theorem runUnder_succ {σ : Nat → Move} {s t : State} {n : Nat} (h : runUnder σ s n = .next t) :
    runUnder σ s (n + 1) = agentMove (σ n) t := by
  obtain ⟨u, hu, hr⟩ := run_append ((List.range n).map σ) s
  simp only [List.length_map, List.length_range] at hr
  have ht : t = u := by
    have h' := hr []
    rw [List.append_nil] at h'
    rw [runUnder, h'] at h
    have e : { u with moves := [] } = t := Host.Outcome.next.inj h
    rw [← e, ← hu]
  subst ht
  rw [runUnder, List.range_succ, List.map_append, List.map_singleton, run_add core n 1 (hr [σ n])]
  obtain ⟨v, -, hv, -⟩ := agentMove_moves (σ n) [] t
  rw [hv]
  refine (run_step (k := 0) (s := { t with moves := [σ n] }) (t := v) ?_).trans rfl
  rw [step_move, ← hv, ← hu]

end Sys2Proof.Machine
end

