-- ==== Sys2Proof/Laws/Sine.lean ====
section
/-! SUPPORT. The true sine, its tolerance, and what holds of every sine the model admits (41 R191). -/

namespace Sys2Proof.Machine

theorem sinTol_eq : sinTol = if 0 < Config.sineTolerance then Config.sineTolerance else 1 / 2 ^ 20 :=
  (valueOf (· = if 0 < Config.sineTolerance then Config.sineTolerance else 1 / 2 ^ 20)).property

theorem trueSine_eq (p : Phase) : trueSine p = Real.sin (2 * Real.pi * (p.toNat : ℝ) / 2 ^ 32) :=
  (valueOf (· = Real.sin (2 * Real.pi * (p.toNat : ℝ) / 2 ^ 32))).property

theorem trueSine_mem (p : Phase) : -1 ≤ trueSine p ∧ trueSine p ≤ 1 := by
  rw [trueSine_eq]
  exact ⟨Real.neg_one_le_sin _, Real.sin_le_one _⟩

/-! ## The quadrant points -/

/-- The phases at which S2 fixes the sine. -/
def quadrants : List Phase := [0x00000000#32, 0x40000000#32, 0x80000000#32, 0xC0000000#32]

theorem trueSine_0 : trueSine 0x00000000#32 = 0 := by
  rw [trueSine_eq]
  simp

theorem trueSine_quarter : trueSine 0x40000000#32 = 1 := by
  rw [trueSine_eq, show ((0x40000000#32).toNat : ℝ) = 2 ^ 30 by norm_num, ← Real.sin_pi_div_two]
  congr 1
  ring

theorem trueSine_half : trueSine 0x80000000#32 = 0 := by
  rw [trueSine_eq, show ((0x80000000#32).toNat : ℝ) = 2 ^ 31 by norm_num, ← Real.sin_pi]
  congr 1
  ring

theorem trueSine_threeQuarters : trueSine 0xC0000000#32 = -1 := by
  rw [trueSine_eq, show ((0xC0000000#32).toNat : ℝ) = 3 * 2 ^ 30 by norm_num, ← Real.sin_pi_div_two, ← Real.sin_sub_two_pi,
    ← Real.sin_neg]
  congr 1
  ring

/-! ## Holding a value within bounds -/

theorem clampTo_mem {lo hi : ℝ} (h : lo ≤ hi) (x : ℝ) : lo ≤ clampTo lo hi x ∧ clampTo lo hi x ≤ hi :=
  ⟨le_max_left _ _, max_le h (min_le_left _ _)⟩

theorem clampTo_of_mem {lo hi x : ℝ} (h1 : lo ≤ x) (h2 : x ≤ hi) : clampTo lo hi x = x := by
  rw [clampTo, min_eq_right h2, max_eq_right h1]

/-- Holding a value within bounds brings it no farther from a point between them. -/
theorem clampTo_close {lo hi y : ℝ} (h1 : lo ≤ y) (h2 : y ≤ hi) (x : ℝ) : |clampTo lo hi x - y| ≤ |x - y| := by
  unfold clampTo
  rcases le_total hi x with h | h
  · rw [min_eq_left h, max_eq_right (h1.trans h2), abs_of_nonneg (by linarith), abs_of_nonneg (by linarith)]
    linarith
  · rw [min_eq_right h]
    rcases le_total lo x with h' | h'
    · rw [max_eq_right h']
    · rw [max_eq_left h', abs_of_nonpos (by linarith), abs_of_nonpos (by linarith)]
      linarith

/-- What the sine is at any phase: the true one at the quadrant points, and elsewhere the true one with the held error. -/
theorem sineOf_val (tol : ℝ) (err : Phase → ℝ) (p : Phase) :
    (p ∈ quadrants ∧ (sineOf tol err p).val = trueSine p) ∨
      (p ∉ quadrants ∧ (sineOf tol err p).val = clampTo (-1) 1 (trueSine p + clampTo (-tol) tol (err p))) := by
  unfold sineOf quadrants
  split
  · subst p; simp [trueSine_0]
  split
  · subst p; simp [trueSine_quarter]
  split
  · subst p; simp [trueSine_half]
  split
  · subst p; simp [trueSine_threeQuarters]
  · exact .inr ⟨by simp [*], rfl⟩

end Sys2Proof.Machine
end

