-- ==== Sys2Proof/Tests/Slice0.lean ====
section
/-! SUPPORT. The model's own tests: what the checks of WellFormed refuse, words decoded, the spec's vectors (95), and for
every statement with hypotheses a state that meets them. -/

open Sys2Proof Sys2Proof.Machine

namespace Sys2Proof.Tests

set_option Elab.async false

/-! ## States -/

/-- The valid configuration of 95 L2-7: a 4 by 2 frame with no blanking, one lane, the carrier, 4 samples at rate 4. -/
def base : Regs :=
  { Regs.reset Config.defaults with
    hTotal := 4, vTotal := 2, hDisplay := 4, vDisplay := 2, vsyncHz := 1, threads := 1
    sampleRate := 4, sampleCount := 4 }

/-- The machine after reset with these registers. -/
def at' (g : Regs) : State := { State.reset with regs := g }

/-- The machine a step or a command leaves. -/
def after (o : Host.Outcome State Fault Refusal) : State :=
  match o with
  | .next t => t
  | .fault _ | .refused _ => State.reset

/-- A square carrier over the geometry of 95 L1-1, 3 lanes (95 L3-1). -/
def carrier : State :=
  at' { Regs.reset Config.defaults with
    hTotal := 6, vTotal := 3, hDisplay := 4, vDisplay := 2, vsyncHz := 1, threads := 3
    osc0 := { wave := 1, ppp := 0x2AAAAAAB, start := 0 } }

/-- The window of 95 L1-7 and L3-3: three S16LE samples, FM with deviation 0x1000_0000 and scale 8, a square carrier. -/
def fm : State :=
  (at' { Regs.reset Config.defaults with
    hTotal := 4, vTotal := 2, hDisplay := 3, vDisplay := 2, vsyncHz := 1, threads := 1, src := 4
    osc0 := { wave := 1, ppp := 0, start := 0 }
    sampleRate := 3, pcmFormat := 1, sampleCount := 3, fmDevPpp := 0x10000000, fmDevScale := 8 }).storeBytes sramBase
    [0x00, 0x40, 0x00, 0xC0, 0xFF, 0x7F]

/-- The same with its table built. -/
def fmBuilt : State := after (exec .preint fm)

/-- PCM with two U8 samples, of the four that the frame needs (95 L3-5). -/
def short : State := at' { base with src := 2, sampleCount := 2 }

/-- A halted block. -/
def dead : State := haltedWith (at' base) 2 0x28 0

/-- The host is about to write a word to CMD. -/
def cmd (w : Word) (m : Move) (s : State) : State := { s with ops := [.write 0x00000000#32 w], moves := [m] }

/-! ## WellFormed: an ill-formed term for each check -/

theorem test_reserved_bits_refused : reservedClear 0x00000100#32 = false ∧ commandWordOk 0x00000100#32 = false := by decide

theorem test_reserved_opcode_refused : opcodeKnown 0x00000004#32 = false ∧ commandWordOk 0x00000004#32 = false := by decide

theorem test_params_refused :
    paramsOk { Config.defaults with tableDepth := 65537 } = false ∧
    paramsOk { Config.defaults with tableDepth := 524289 } = false ∧
    paramsOk { Config.defaults with maxPixels := 4194305 } = false ∧ paramsOk Config.defaults = true := by decide

theorem test_commands_wellFormed : ∀ i ∈ [Instr.nop, .preint, .render, .advance], i.wellFormed = true := by decide

/-! ## Decoding: the four words of 30 R121, and one of each illegal kind -/

theorem test_decode_words :
    decode 0b00000000000000000000000000000000#32 = .ok .nop ∧
    decode 0b00000000000000000000000000000001#32 = .ok .preint ∧
    decode 0b00000000000000000000000000000010#32 = .ok .render ∧
    decode 0b00000000000000000000000000000011#32 = .ok .advance ∧
    decode 0x000000FF#32 = .error .reservedOpcode ∧ decode 0x80000002#32 = .error .reservedBits := by decide

theorem test_table_words :
    decodeTableWord 32 2 = some .render ∧ decodeTableWord 8 0x103 = some .advance ∧ decodeTableWord 32 0x103 = none := by
  decide

/-! ## The commands, one step each -/

/-- 95 L2-7. -/
theorem test_nop : (after (step (cmd 0 .hostRun (at' base)))).regs = base ∧
    (after (step (cmd 0 .hostRun (at' base)))).replies = [.ok] := by decide

/-- 95 L1-7: the table, and IPCM against the slow path's sums. -/
theorem test_preint_table :
    tblEntry fmBuilt 0 = { raw := 0x4000, inc := 0x08000000, cum := 0x00000000, start := 0 } ∧
    tblEntry fmBuilt 1 = { raw := 0xC000, inc := 0xF8000000, cum := 0x18000000, start := 3 } ∧
    tblEntry fmBuilt 2 = { raw := 0x7FFF, inc := 0x0FFFE000, cum := 0x00000000, start := 6 } ∧
    ipcm fmBuilt 5 = .ok 0x08000000 ∧ ipcm fmBuilt 7 = .ok 0x0FFFE000 ∧ fmBuilt.tableValid = true := by decide +kernel

/-- 44 R283: with `NS = 0` no entry is written and TABLE_VALID is set. -/
theorem test_preint_empty :
    (after (exec .preint (at' { base with sampleCount := 0 }))) =
      { at' { base with sampleCount := 0 } with tableValid := true } := by decide +kernel

/-- 95 L3-1, frame 0. -/
theorem test_render_carrier :
    ((List.range 8).map fun v => (after (exec .render carrier)).word (fbBase + 4 * v)) =
      [ 0xFFFFFFFF, 0xFFFFFFFF, 0xFFFFFFFF, 0xFF000000, 0xFFFFFFFF, 0xFFFFFFFF, 0xFFFFFFFF, 0xFF000000 ] := by
  decide +kernel

/-- 95 L3-5: RANGE at total index 4, sample 2. -/
theorem test_render_range : after (exec .render short) = haltedWith short 4 4 2 := by decide +kernel

/-- 95 L1-8. -/
theorem test_advance_oscillator : (after (exec .advance carrier)).regs.osc0.start = 0x00000006 ∧
    (after (exec .advance { carrier with regs.osc0.start := 0xFFFFFFFF })).regs.osc0.start = 0x00000005 := by
  decide +kernel

/-- 95 L3-3: the carry, and TABLE_VALID cleared. -/
theorem test_advance_carry : (after (exec .advance fmBuilt)).regs.fmSeed = 0x1FFFC000 ∧
    (after (exec .advance fmBuilt)).tableValid = false := by decide +kernel

/-- `withFetchWord` places the word that the next step runs. -/
theorem test_fetch_render :
    (after (step (carrier.withFetchWord 32 2))).byte fbBase = 0xFF ∧
    (after (step (State.reset.withFetchWord 32 0x104))).regs.errIndex = 0x00000104 := by decide +kernel

/-! ## The datapath (95 L2) -/

/-- 95 L2-1. -/
theorem test_phase : padd 0xFFFFFFFF 2 = 1 ∧ pscale 0x028F5C29 100000 = 0x00000FA0 ∧ pscale 0x12345678 0x9ABCDEF0 = 0x242D2080 ∧
    pscale 0x12345678 (-1) = 0xEDCBA988 ∧ fromFraction (.ofRat (1 / 3)) = 0x55555555 ∧ fromFraction (.ofRat (-1 / 4)) = 0xC0000000 ∧
    fromFraction (.ofRat (1 / 2 ^ 33)) = 1 ∧ fromFraction (.ofRat (-1 / 2 ^ 33)) = 0 ∧ fromFraction (.ofRat (1 - 1 / 2 ^ 33)) = 0 ∧
    fromFraction (.ofRat (-1000 / 25200000)) = 0xFFFD663D := by decide +kernel

/-- 40 R163 at an irrational number of turns: `floor(sqrt(2)/2 * 2^32 + 1/2) = floor(3037000500.4…)`. -/
theorem test_real_turns : fromFraction (.ofReal (Real.sqrt 2 / 2)) = 0xB504F334 := by
  have h1 : (3037000500 - 1 / 2) / 2 ^ 31 ≤ Real.sqrt 2 := Real.le_sqrt_of_sq_le (by norm_num)
  have h2 : Real.sqrt 2 < (3037000501 - 1 / 2) / 2 ^ 31 := by
    rw [Real.sqrt_lt' (by norm_num)]
    norm_num
  have : ⌊Real.sqrt 2 / 2 * 2 ^ 32 + 1 / 2⌋ = 3037000500 := by
    rw [Int.floor_eq_iff]
    push_cast
    constructor <;> linarith
  rw [fromFraction_eq, ExactReal.val_ofReal, this]
  rfl

/-- 95 L2-2. -/
theorem test_waveforms : square 0x7FFFFFFF = 1 ∧ square 0x80000000 = -1 ∧ sine 0x40000000 = .ofRat 1 ∧
    sine 0xC0000000 = .ofRat (-1) ∧
    oscSampleDev { wave := 1, ppp := 0, start := 0x7FFFFFFF } 0 1 = .ofRat (-1) ∧
    oscSampleDev { wave := 1, ppp := 0, start := 0x80000000 } 0 0x80000000 = .ofRat 1 :=
  ⟨by decide, by decide, rfl, rfl, rfl, rfl⟩

/-- 10 R38, R39: WAVE 0 is the sine, 0 at phase 0, and WAVE 1 the square, 1 there; SRC 0 renders oscillator 0 and SRC 1
oscillator 1. -/
theorem test_source_and_wave_codes :
    (let g := { carrier.regs with osc0 := { wave := 0, ppp := 0, start := 0 }, osc1 := { wave := 1, ppp := 0, start := 0 } }
     (after (exec .render (at' { g with src := 0 }))).word fbBase = 0xFF808080 ∧
     (after (exec .render (at' { g with src := 1 }))).word fbBase = 0xFFFFFFFF) := by decide +kernel

/-- 95 L1-7 through the table window: RAW, INC, CUM and START of entry 1. -/
theorem test_table_window : ([0x00200010, 0x00200014, 0x00200018, 0x0020001C].map fun a => (busRead a fmBuilt).1) =
    [.data 0x0000C000, .data 0xF8000000, .data 0x18000000, .data 3] := by decide +kernel

/-- 45 R324 at an irrational amplitude: `floor(127.5*sqrt(2)/2 + 128) = floor(218.15…)`. -/
theorem test_real_amplitudes : gray (.ofReal (Real.sqrt 2 / 2)) = 218 := by
  have h1 : (1.414 : ℝ) < Real.sqrt 2 := Real.lt_sqrt_of_sq_lt (by norm_num)
  have h2 : Real.sqrt 2 < 1.415 := by
    rw [Real.sqrt_lt' (by norm_num)]
    norm_num
  have : ⌊255 / 2 * (Real.sqrt 2 / 2) + 128⌋ = 218 := by
    rw [Int.floor_eq_iff]
    push_cast
    constructor <;> linarith
  rw [gray_eq, ExactReal.val_ofReal, this]
  rfl

/-- 95 L2-3: AM from a square oscillator 1 with a quarter-turn step: amplitudes 1, 1, 0, 0. -/
theorem test_am : ((List.range 4).map fun t => (signal .am (at' { base with
      osc0 := { wave := 1, ppp := 0, start := 0 }, osc1 := { wave := 1, ppp := 0x40000000, start := 0 } }) t).map ExactReal.floor) =
    [.ok 1, .ok 1, .ok 0, .ok 0] := by decide +kernel

/-- 95 L2-4. -/
theorem test_pcm : ampU8 0x40 = -1 / 2 ∧ ampU8 0xFF = 127 / 128 ∧ ampOf .s16le 0x8000 = -1 ∧ ampOf .s16le 0xFFFF = -1 / 32768 ∧
    ampOf .s16le 0xC000 = -1 / 2 := by decide +kernel

/-- 95 L2-5: sample indices and start times at `DC = 8`, `SR = 3`. -/
theorem test_samples : ((List.range 8).map (sampleIndex fm.regs)) = [0, 0, 0, 1, 1, 1, 2, 2] ∧
    ((List.range 4).map (startTime fm.regs)) = [0, 3, 6, 8] := by decide +kernel

/-- 95 L2-5: INC, ties upward. -/
theorem test_increments : incOf .u8 0x40 1 = 0 ∧ incOf .u8 0xC0 1 = 1 ∧ incOf .u8 0x00 1 = 0xFFFFFFFF ∧
    incOf .s16le 0x7FFF 0xFFFFFFFF = 0xFFFDFFFF ∧ incOf .s16le 0xFFFF 0xFFFFFFFF = 0xFFFE0000 := by decide +kernel

/-- 95 L2-6. -/
theorem test_gray : gray (.ofRat (-1 / 2)) = 64 ∧ gray (.ofRat (2 / 255)) = 129 ∧ gray (.ofRat (127 / 128)) = 254 ∧
    gray (.ofRat (255 / 256)) = 255 := by decide +kernel

/-- 95 L1-1 and L1-4. -/
theorem test_layout : ((List.range 8).map (v2t carrier.regs)) = [0, 1, 2, 3, 6, 7, 8, 9] ∧
    partition 10 3 = [(0, 3), (3, 6), (6, 9), (9, 10)] ∧ partition 2 4 = [(0, 0), (0, 0), (0, 0), (0, 0), (0, 2)] ∧
    partition 7 1 = [(0, 7)] := by decide

/-- 95 L1-10: the windows of 43 R254 and the frequencies of 40 R168. -/
theorem test_host : windowLength 22050 60 = 368 ∧ windowLength 44100 72 = 613 ∧
    minWindow { base with hTotal := 800, vTotal := 525, vsyncHz := 60, sampleRate := 8000 } = 134 ∧
    hostPpp (.ofRat 1000000) 25200000 = 0x0A28A28A ∧ hostPppInt 37500 25200000 = 0x00618618 := by decide +kernel

/-- The words of 95 L3-3's window, the boot of that program up to them, and a round of 70 R425 without and with FM. -/
theorem test_boot : windowWrites 0 [0x00, 0x40, 0x00, 0xC0, 0xFF, 0x7F] =
      [.write 0x00100000 0xC0004000, .write 0x00100004 0x00007FFF] ∧
    (bootOps fm true []).getLast? = some .wait ∧ (bootOps fm true []).head? = some (.write 0x00000008 4) ∧
    frameRound { carrier.regs with hDisplay := 1 } [] =
      [.write 0x00000000 2, .wait, .stopIfHalted, .read 0x01000000, .read 0x01000004,
        .write 0x00000000 3, .wait, .stopIfHalted] ∧
    (frameRound fm.regs [1]).drop 12 = [.write 0x00100000 1, .write 0x00000000 1, .wait] := by decide

/-- 43 R258, 60 R390: a file of 7 bytes has one window of three S16LE samples; the host renders the one frame, loads no second
window and stops. Without a file it issues nothing; with two windows in it, it renders twice. -/
theorem test_host_errors :
    (let file := [0x00, 0x40, 0x00, 0xC0, 0xFF, 0x7F, 0x01]
     hostProgram fm (loadWindow (some file) .s16le 3 3) 5 = bootOps fm true (file.take 6) ++ frameRender fm.regs) ∧
    hostProgram fm (loadWindow none .s16le 3 3) 5 = [] ∧
    (hostProgram fm (loadWindow (some (List.replicate 12 0)) .s16le 3 3) 5).count (HostOp.cmd .render) = 2 := by decide

/-- 70 R425, 60 R387: a host that sees HALTED stops; one that does not goes on. -/
theorem test_stop : (after (step { dead with ops := [.stopIfHalted, .read 0], moves := [.host] })).ops = [] ∧
    (after (step { carrier with ops := [.stopIfHalted, .read 0], moves := [.host] })).ops = [.read 0] := by decide

/-- 95 L2-8. -/
theorem test_registers :
    (busRead 0x1C (at' { base with hTotal := 0xFFFF, vTotal := 0xFFFF, vsyncHz := 0xFFFF })).1 = .data 0x0002FFFF ∧
    (busRead 0x20 (at' { base with hTotal := 0xFFFF, vTotal := 0xFFFF, vsyncHz := 0xFFFF })).1 = .data 0x0000FFFD ∧
    (busRead 0x28 (busWrite 0x28 0x1FF (at' base)).2).1 = .data 0xFF ∧
    (busRead 0x50 (busWrite 0x50 0xFFFFFFFF (at' base)).2).1 = .data 0x1FFFF ∧
    (busRead 0x06 (at' base)).1 = .busErr ∧ (busRead 0x00300000 (at' base)).1 = .busErr ∧
    (busWrite 0x01000000 1 (at' base)).1 = .busErr ∧ (busRead 0x100 (at' base)).1 = .data 0 ∧
    (busRead 0x04 (after (exec .advance { short with tableValid := true }))).1 = .data 0x0000003E := by decide +kernel

/-! ## Witnesses: for each statement with hypotheses, terms that meet them all -/

/-- A block in COLLECTING, with one worker that has begun. -/
def busy : State := { carrier with ctrl := .collecting [Worker.start (0, 8)] }

/-- A block in PREINTEGRATING with one entry left. -/
def building : State := { fm with ctrl := .preintegrating 2 0 }

theorem test_witness_StepRunsTheDecodedCommand :
    (cmd 2 .hostRun carrier).ops = [.write 0x00000000#32 2] ∧ decode 2 = .ok .render ∧
    (cmd 2 .hostRun carrier).moves = [.hostRun] ∧ (cmd 2 .host carrier).moves = [.host] ∧
    { cmd 2 .host carrier with moves := [] }.ctrl.busy = false ∧ 2 < 2 ^ 32 ∧ carrier.ctrl = .idle ∧
    configError fm.regs False True = none ∧ configError carrier.regs True (ReadsPcm carrier.regs) = none ∧
    configError carrier.regs False False = none ∧ configError { base with threads := 17 } True (ReadsPcm base) = some 0x028 ∧
    (fm.regs.src = 4#3 ∧ fm.tableValid = false) := by decide

theorem test_witness_IllegalWordIsACommandError :
    ((4 : Word).toNat / 2 ^ 8 ≠ 0 ∨ 4 ≤ (4 : Word).toNat % 2 ^ 8) ∧ (cmd 4 .hostRun (at' base)).ctrl = .idle ∧
    ((0x100 : Word).toNat / 2 ^ 8 ≠ 0 ∨ 4 ≤ (0x100 : Word).toNat % 2 ^ 8) ∧ (cmd 0x100 .host dead).ctrl ≠ .idle ∧
    HostToMove (cmd 4 .hostRun (at' base)) [] ∧ HostToMove (cmd 0x100 .host dead) [] ∧
    HostToMove { cmd 4 .host (at' base) with moves := [] } [] ∧ HostToMove { cmd 4 .host dead with moves := [] } [] := by
  unfold HostToMove
  decide

theorem test_witness_HostStepIsOneTransaction :
    HostToMove { carrier with ops := [.wait], moves := [.host] } [] ∧ (0x100000 : Word) ≠ 0x00000000#32 ∧
    HostToMove { carrier with ops := [.write 0x100000 1], moves := [.hostRun] } [] ∧
    HostToMove { dead with ops := [.stopIfHalted, .read 4], moves := [] } [] ∧
    HostToMove { busy with ops := [.read 4], moves := [.host] } [] := by
  unfold HostToMove
  decide

theorem test_witness_NopChangesNothing : (at' base).ctrl = .idle ∧ busy.ctrl.busy = true := by decide

theorem test_witness_CommandDroppedUnlessIdle :
    dead.ctrl ≠ .idle ∧ (cmd 2 .host busy).ctrl ≠ .idle ∧ HostToMove (cmd 2 .host busy) [] ∧
    HostToMove { cmd 2 .host dead with moves := [] } [] := by
  unfold HostToMove
  decide

theorem test_witness_PreintBuildsTheTable :
    fm.ctrl = .idle ∧ configError fm.regs False True = none ∧ 2 < fm.regs.sampleCount.toNat := by decide

/-- 95 L2-7's rows: each check fails for some configuration. -/
theorem test_witness_ConfigErrorAtFirstFailingCheck :
    configError { base with hTotal := 0, threads := 0 } True (ReadsPcm base) = some 0x008 ∧
    configError { base with vTotal := 0 } False False = some 0x00C ∧
    configError { base with hDisplay := 5 } False True = some 0x010 ∧
    configError { base with vDisplay := 0 } False False = some 0x014 ∧
    configError { base with vsyncHz := 0 } False False = some 0x018 ∧
    configError { base with hTotal := 4096, hDisplay := 4096, vTotal := 2048, vDisplay := 2048 } False False = some 0x014 ∧
    configError { base with threads := 17 } True (ReadsPcm base) = some 0x028 ∧
    configError { base with src := 5 } True (ReadsPcm { base with src := 5 }) = some 0x02C ∧
    configError { base with src := 2, sampleRate := 0 } True (ReadsPcm { base with src := 2, sampleRate := 0 }) = some 0x048 ∧
    configError { base with sampleCount := 65537 } False True = some 0x050 := by decide

theorem test_witness_RenderWritesTheFrame :
    fmBuilt.ctrl = .idle ∧ configError fmBuilt.regs True (ReadsPcm fmBuilt.regs) = none ∧
    (fmBuilt.regs.src = 4#3 → fmBuilt.tableValid = true) ∧ fmBuilt.regs.visiblePixels = 6 ∧
    ∀ v < 6, sampleIndex fmBuilt.regs (v2t fmBuilt.regs v) < fmBuilt.regs.ns := by decide +kernel

theorem test_witness_RenderRangeError :
    short.ctrl = .idle ∧ configError short.regs True (ReadsPcm short.regs) = none ∧
    (short.regs.src = 4#3 → short.tableValid = true) ∧ ReadsPcm short.regs ∧ 4 < short.regs.visiblePixels ∧
    short.regs.ns ≤ sampleIndex short.regs (v2t short.regs 4) ∧
    ∀ v < 4, sampleIndex short.regs (v2t short.regs v) < short.regs.ns := by decide +kernel

theorem test_witness_RenderSequenceError :
    fm.ctrl = .idle ∧ configError fm.regs True (ReadsPcm fm.regs) = none ∧ fm.regs.src = 4#3 ∧
    fm.tableValid = false := by decide

theorem test_witness_RenderIsRepeatable :
    carrier.ctrl = .idle ∧ exec .render carrier = .next (renderRun carrier) ∧ (renderRun carrier).ctrl = .idle :=
  ⟨rfl, rfl, by decide +kernel⟩

theorem test_witness_ThreadsAreUnobservable :
    carrier.ctrl = .idle ∧ 1 ≤ carrier.regs.threads.toNat ∧ carrier.regs.threads.toNat ≤ carrier.regs.maxLanes ∧
    1 ≤ (16 : BitVec 8).toNat ∧ (16 : BitVec 8).toNat ≤ carrier.regs.maxLanes ∧
    exec .render carrier = .next (renderRun carrier) := ⟨rfl, by decide, by decide, by decide, by decide, rfl⟩

theorem test_witness_VisibleIndexLayout :
    1 ≤ carrier.regs.hDisplay.toNat ∧ carrier.regs.hDisplay.toNat ≤ carrier.regs.hTotal.toNat ∧
    1 ≤ carrier.regs.vDisplay.toNat ∧ carrier.regs.vDisplay.toNat ≤ carrier.regs.vTotal.toNat ∧
    base.hDisplay = base.hTotal ∧ 7 < carrier.regs.visiblePixels := by decide

theorem test_witness_PartitionCoversOnce : 1 ≤ 3 ∧ 9 < 10 ∧ (9, 10) ∈ partition 10 3 := by decide

theorem test_witness_AdvanceCommitsTheCarry :
    fmBuilt.ctrl = .idle ∧ configError fmBuilt.regs False False = none ∧ fmBuilt.tableValid = true ∧
    8 = fmBuilt.regs.hTotal.toNat * fmBuilt.regs.vTotal.toNat ∧
    2 = (8 - 1) * fmBuilt.regs.sampleRate.toNat / fmBuilt.regs.dotClock ∧ 2 < fmBuilt.regs.sampleCount.toNat := by
  decide +kernel

theorem test_witness_AdvanceKeepsSeedWithoutTable :
    carrier.ctrl = .idle ∧ configError carrier.regs False False = none ∧ carrier.tableValid = false ∧
    18 = carrier.regs.hTotal.toNat * carrier.regs.vTotal.toNat := by decide

/-- 95 L2-5: `END_PHASE = Fail(7, 3)`. -/
theorem test_witness_AdvanceRangeError :
    { at' { base with sampleCount := 3 } with tableValid := true }.ctrl = .idle ∧
    configError { base with sampleCount := 3 } False False = none ∧
    8 = base.hTotal.toNat * base.vTotal.toNat ∧ 3 = (8 - 1) * base.sampleRate.toNat / base.dotClock ∧
    { base with sampleCount := 3 }.sampleCount.toNat ≤ 3 := by decide

theorem test_witness_RwRegisterReadsBackItsField :
    base = (at' base).regs ∧ Reg.access .mode = .rw ∧ (at' base).ctrl.busy = false ∧ dead.ctrl.busy = false ∧
    Reg.threads ≠ .mode ∧ Reg.threads ∉ [Reg.status, .dotclockLo, .dotclockHi, .framePixels] := by decide

/-- 10 R33, R38, R41: MODE takes SRC from bits 2 to 0 and AM_INFO from bit 3; OSC0_PPP and OSC0_START stand at 0x034 and 0x038;
ERR_INDEX and ERR_SAMPLE read at 0x064 and 0x068. -/
theorem test_register_fields :
    (let g := (busWrite 0x2C 0xFFFFFFFB (at' base)).2.regs; g.src = 3 ∧ g.amInfo = 1) ∧
    (busWrite 0x2C 4 (at' base)).2.regs.amInfo = 0 ∧ (busWrite 0x34 7 (at' base)).2.regs.osc0.ppp = 7 ∧
    (busWrite 0x38 7 (at' base)).2.regs.osc0.start = 7 ∧
    (let s := at' { base with errIndex := 5, errSample := 6 }
     (busRead 0x64 s).1 = .data 5 ∧ (busRead 0x68 s).1 = .data 6) := by decide

theorem test_witness_ReadOnlyAndReservedIgnoreWrites :
    Reg.access .errCode = .ro ∧ (0x078 : Word).toNat % 4 = 0 ∧ 0x078 ≤ (0x078 : Word).toNat ∧
    (0xFFC : Word).toNat % 4 = 0 ∧ (0xFFC : Word).toNat < 0x1000 := by decide

theorem test_witness_BusyDropsWrites :
    busy.ctrl.busy = true ∧ Reg.access .hTotal = .rw ∧ (0x0011FFFC : Word).toNat % 4 = 0 ∧
    0x00100000 ≤ (0x0011FFFC : Word).toNat ∧ (0x0011FFFC : Word).toNat + 4 ≤ 0x00100000 + 2 * busy.regs.tableDepth := by decide

theorem test_witness_AcceptedWriteClearsTableValid :
    fmBuilt.ctrl.busy = false ∧ Reg.fmSeed ∈ [Reg.hTotal, .fmSeed] ∧
    Reg.osc0Ppp ∉ [Reg.hTotal, .vTotal, .vsyncHz, .sampleRate, .pcmFormat, .sampleCount, .fmDevPpp, .fmSeed] ∧
    0x00100000 ≤ (0x00100000 : Word).toNat ∧
    (0x00100000 : Word).toNat + 4 ≤ 0x00100000 + 2 * fmBuilt.regs.tableDepth := by decide +kernel

theorem test_witness_StatusWordLayout : (6 = 6 ∨ 6 = 7 ∨ 10 ≤ 6) ∧ (10 = 6 ∨ 10 = 7 ∨ 10 ≤ 10) := by decide

theorem test_witness_SramWordReadsBack :
    (at' base).ctrl.busy = false ∧ (0x0011FFFC : Word).toNat % 4 = 0 ∧ 0x00100000 ≤ (0x0011FFFC : Word).toNat ∧
    (0x0011FFFC : Word).toNat + 4 ≤ 0x00100000 + 2 * (at' base).regs.tableDepth := by decide

/-- The edges of the regions: the last word of each and the first address past it. -/
theorem test_witness_BusErrorsChangeNothing :
    paramsOk base.cfg = true ∧ (0x6 : Word).toNat % 4 ≠ 0 ∧
    (0x1000 ≤ 0x1000 ∧ ¬ InMemories base 0x1000) ∧ ¬ InMemories base 0x00120000 ∧ ¬ InMemories base 0x00300000 ∧
    ¬ InMemories base 0x02000000 ∧ 0x002FFFFC < 0x00200000 + 16 * base.tableDepth ∧
    0x01FFFFFC < 0x01000000 + 4 * base.maxPixels := by
  unfold InMemories
  decide

theorem test_witness_MemoryWindowsReadTheirBytes :
    paramsOk (at' base).regs.cfg = true ∧ 0x1FFFC % 4 = 0 ∧ 0x1FFFC + 4 ≤ 2 * (at' base).regs.tableDepth ∧
    65535 < (at' base).regs.tableDepth ∧ (at' base).ctrl.preintegratingNow = false ∧
    4194303 < (at' base).regs.maxPixels ∧ (at' base).ctrl.rendering = false := by decide

theorem test_witness_ReadsLeaveTheBlockAlone :
    paramsOk busy.regs.cfg = true ∧ busy.ctrl.rendering = true ∧ building.ctrl.preintegratingNow = true := by decide

theorem test_witness_ResetClearsTheBlock : { busy with moves := [.reset] }.moves = .reset :: [] := rfl

theorem test_witness_OnlyResetLeavesHalted :
    (cmd 2 .hostRun dead).ctrl = .halted ∧
    step (cmd 2 .hostRun dead) = .next (after (step (cmd 2 .hostRun dead))) := ⟨rfl, rfl⟩

theorem test_witness_NothingCommittedOnError :
    (cmd 4 .hostRun (at' base)).ctrl ≠ .halted ∧ step (cmd 4 .hostRun (at' base)) =
      .next (after (step (cmd 4 .hostRun (at' base)))) ∧
    (after (step (cmd 4 .hostRun (at' base)))).ctrl = .halted := ⟨by decide, rfl, by decide⟩

theorem test_witness_ErrorRegistersWrittenOnlyOnEntry : step dead = .next dead := rfl

theorem test_witness_OnlyPreintValidatesTheTable :
    step { building with ctrl := .preintegrating 3 0 } =
      .next (after (step { building with ctrl := .preintegrating 3 0 })) ∧
    building.tableValid = false ∧ (after (step { building with ctrl := .preintegrating 3 0 })).tableValid = true :=
  ⟨rfl, rfl, rfl⟩

/-- The same for a PREINT run whole, laid down or by default; one that is only begun leaves TABLE_VALID 0. -/
theorem test_witness_OnlyPreintValidatesTheTable_whole :
    (∀ s ∈ [cmd 1 .hostRun fm, { cmd 1 .host fm with moves := [] }], s.tableValid = false ∧
      step s = .next (after (step s)) ∧ (after (step s)).tableValid = true ∧ (after (step s)).ctrl = .idle) ∧
    (after (step (cmd 1 .host fm))).tableValid = false := by
  refine ⟨fun s hs => ?_, by decide +kernel⟩
  simp only [List.mem_cons, List.not_mem_nil, or_false] at hs
  rcases hs with rfl | rfl <;> exact ⟨rfl, rfl, by decide +kernel, by decide +kernel⟩

/-- One step for each memory: a host write, an entry of PREINT, and the frame of a RENDER, over bytes stored before. -/
def sramWrite : State := { fm with ops := [.write 0x00100000 0xFFFFFFFF], moves := [.host] }
def tableWrite : State := { fmBuilt with ctrl := .preintegrating 0 5, moves := [.controller] }
def frameWrite : State := { renderRun carrier with ctrl := .composing [[7]], moves := [.controller] }

theorem test_witness_OnlyTheirWritersChangeTheMemories :
    (∀ s ∈ [sramWrite, tableWrite, frameWrite], paramsOk s.regs.cfg = true ∧ step s = .next (after (step s)) ∧
      s.moves.head? ≠ some .reset) ∧
    (after (step sramWrite)).byte 0x00100000 ≠ sramWrite.byte 0x00100000 ∧
    (after (step tableWrite)).byte 0x00200008 ≠ tableWrite.byte 0x00200008 ∧
    (after (step frameWrite)).byte 0x01000000 ≠ frameWrite.byte 0x01000000 := by
  refine ⟨fun s hs => ?_, by decide +kernel, by decide +kernel, by decide +kernel⟩
  simp only [List.mem_cons, List.not_mem_nil, or_false] at hs
  rcases hs with rfl | rfl | rfl
  · exact ⟨by decide +kernel, rfl, by decide +kernel⟩
  · exact ⟨by decide +kernel, rfl, by decide +kernel⟩
  · exact ⟨by decide +kernel, rfl, by decide +kernel⟩

theorem test_witness_SnapshotConstantWhileBusy :
    busy.ctrl.busy = true ∧ step busy = .next (after (step busy)) ∧ (after (step busy)).ctrl.busy = true ∧
    busy.ctrl.preintegratingNow = false := ⟨rfl, rfl, rfl, rfl⟩

/-- ADVANCE begun, and a write and a command of the host that fall before its one controller step. -/
def raced : State :=
  { beginCommand .advance { carrier with ops := [.write 0x38 5, .write 0 2] } with moves := [.host, .hostRun, .controller] }

theorem test_witness_ScheduleDoesNotMatter :
    carrier.ctrl = .idle ∧ (∀ m ∈ [Move.controller], m.ofBlock) ∧
    (∃ t, Host.Core.run core 1 { beginCommand .advance carrier with moves := [.controller] } = .next t ∧
      t.ctrl.busy = false) ∧
    (∀ m ∈ raced.moves, m ≠ .reset) ∧
    (∀ k < 3, ∃ u, Host.Core.run core k raced = .next u ∧ u.ctrl.busy = true) ∧
    ∃ t, Host.Core.run core 3 raced = .next t ∧ t.ctrl.busy = false ∧ t.busyWrite = true ∧ t.cmdReject = true ∧
      t.regs.osc0.start = 6 := by
  refine ⟨rfl, by simp [Move.ofBlock], ⟨_, rfl, by decide +kernel⟩, by decide, fun k hk => ?_,
    _, rfl, by decide +kernel, by decide +kernel, by decide +kernel, by decide +kernel⟩
  obtain rfl | rfl | rfl : k = 0 ∨ k = 1 ∨ k = 2 := by omega
  · exact ⟨_, rfl, by decide +kernel⟩
  · exact ⟨_, rfl, by decide +kernel⟩
  · exact ⟨_, rfl, by decide +kernel⟩

/-- A schedule that gives every agent a move again and again: the controller, the host, and the worker that a pairing of the
naturals picks. -/
def fair (n : Nat) : Move := if n % 3 = 0 then .controller else if n % 3 = 1 then .host else .worker (n / 3).unpair.1

theorem fair_worker (w n : Nat) : ∃ m, n ≤ m ∧ fair m = .worker w := by
  refine ⟨3 * Nat.pair w n + 2, by have := Nat.right_le_pair w n; omega, ?_⟩
  have h1 : (3 * Nat.pair w n + 2) % 3 = 2 := by omega
  have h2 : (3 * Nat.pair w n + 2) / 3 = Nat.pair w n := by omega
  simp [fair, h1, h2]

theorem fair_fair (s : State) : FairToBlock fair s ∧ FairToHost fair s := by
  refine ⟨⟨fun n => ?_, fun n u a _ ha _ => ?_⟩, fun n u _ _ => ⟨3 * n + 1, by omega, .inl (by simp [fair, Nat.add_mod])⟩⟩
  · unfold fair
    split
    · exact Move.noConfusion
    · split <;> exact Move.noConfusion
  · rcases ha with rfl | ⟨w, rfl⟩
    · exact ⟨3 * n, by omega, by simp [fair]⟩
    · exact fair_worker w n

/-- The controller alone is fair to a PREINT, which no worker has a part in. -/
theorem controller_fair_to_preint : FairToBlock (fun _ => .controller) (beginCommand .preint fm) := by
  have key : ∀ n u, runUnder (fun _ => .controller) (beginCommand .preint fm) n = .next u →
      u.ctrl = .idle ∨ ∃ k c, u.ctrl = .preintegrating k c := fun n => by
    induction n with
    | zero =>
      intro u hu
      cases hu
      exact .inr ⟨0, 0, by decide +kernel⟩
    | succ n ih =>
      intro u hu
      obtain ⟨t, ht, -⟩ := runUnder_next (fun _ => .controller) (beginCommand .preint fm) n
      rw [runUnder_succ ht] at hu
      cases hu
      rcases ih t ht with h | ⟨k, c, h⟩
      · exact .inl (by simp only [controllerStep, h])
      · simp only [controllerStep, h]
        by_cases hk : k < t.regs.ns
        · rw [preintStep_entry h hk]
          exact .inr ⟨_, _, rfl⟩
        · rw [preintStep_commit h hk]
          exact .inl rfl
  refine ⟨fun _ => Move.noConfusion, fun n u a hu ha he => ?_⟩
  rcases ha with rfl | ⟨w, rfl⟩
  · exact ⟨n, le_rfl, rfl⟩
  · obtain ⟨ws, x, hc, -⟩ := he
    rcases key n u hu with h | ⟨k, c, h⟩ <;> rw [h] at hc <;> cases hc

/-- An ADVANCE in progress, and a host that waits for it. -/
def waiting : State := { carrier with ctrl := .advancing, ops := [.wait, .read 0x38] }

theorem test_witness_AcceptedCommandsFinish :
    carrier.ctrl = .idle ∧ FairToBlock fair (beginCommand .render carrier) ∧
    fm.ctrl = .idle ∧ FairToBlock (fun _ => .controller) (beginCommand .preint fm) ∧
    Safe waiting ∧ waiting.ops = .wait :: [.read 0x38] ∧ FairToBlock fair waiting ∧ FairToHost fair waiting := by
  refine ⟨rfl, (fair_fair _).1, rfl, controller_fair_to_preint, ⟨by decide, ⟨List.Pairwise.nil, fun c hc => ?_⟩, ?_,
    fun h => ?_, ?_⟩, rfl, fair_fair _⟩
  · cases hc
  · simp [ErrorsOk, waiting, carrier, at', Regs.reset]
  · cases h
  · show firstFailing (advanceChecks waiting.regs) = none
    decide

/-- A RENDER begun right after reset: a CONFIG error. -/
theorem test_witness_SafeIsKept :
    Safe (cmd 2 .host State.reset) ∧ step (cmd 2 .host State.reset) = .next (after (step (cmd 2 .host State.reset))) ∧
    (after (step (cmd 2 .host State.reset))).ctrl = .halted := by
  refine ⟨⟨by decide, ⟨List.Pairwise.nil, fun c hc => ?_⟩, ?_, fun h => ?_, trivial⟩, rfl, by decide⟩
  · cases hc
  · simp [ErrorsOk, cmd, State.reset, Regs.reset]
  · cases h

theorem test_witness_PhasePeriodicity :
    ({ wave := 1, ppp := 0x028F5C29, start := 0 } : Osc).ppp = 0x028F5C29 ∧ ((107 : Nat) : Int) = (7 : Nat) + (1 : Int) * (100 : Nat) := by decide

theorem test_witness_FractionConversions :
    1 ≤ 25200000 ∧ (ExactReal.ofReal (-3)).val = (-3 : Int) ∧ (ExactReal.ofReal 2).val = (ExactReal.ofReal 5).val + (-3 : Int) ∧
    (∀ p, (ExactReal.ofRat (toFraction p)).val = toFraction p) ∧
    (ExactReal.ofReal (Real.sqrt 2 / (25200000 : Nat))).val = (ExactReal.ofReal (Real.sqrt 2)).val / (25200000 : Nat) := by
  refine ⟨by decide, ?_, ?_, fun p => rfl, rfl⟩ <;> simp only [ExactReal.val_ofReal] <;> norm_num

/-- Two frames, with a change of waveform and a RENDER between the two ADVANCE commands. -/
theorem test_witness_OscillatorsAreContinuous :
    (∃ pre post : Nat → State, pre 0 = carrier ∧ ∀ i < 2, (pre i).ctrl = .idle ∧ exec .advance (pre i) = .next (post i) ∧
      (post i).ctrl = .idle ∧ SamePhases (post i).regs (pre (i + 1)).regs) ∧
    exec .render carrier = .next (accept renderRun carrier) := by
  let between : State := { renderRun (advanceRun carrier) with regs.osc0.wave := 0 }
  let pre : Nat → State := fun i => if i = 0 then carrier else if i = 1 then between else accept advanceRun between
  refine ⟨⟨pre, fun i => accept advanceRun (pre i), rfl, fun i hi => ?_⟩, rfl⟩
  obtain rfl | rfl : i = 0 ∨ i = 1 := by omega
  · exact ⟨rfl, rfl, by decide +kernel, by constructor <;> decide +kernel⟩
  · exact ⟨by decide +kernel, rfl, by decide +kernel, by constructor <;> rfl⟩

theorem test_witness_EveryAdmissibleSineIsModelled :
    ∃ (tol : ℝ) (f : Phase → ℝ), 0 < tol ∧ (∀ p, -1 ≤ f p ∧ f p ≤ 1) ∧
      f 0x00000000 = 0 ∧ f 0x40000000 = 1 ∧ f 0x80000000 = 0 ∧ f 0xC0000000 = -1 ∧
      ∀ p, |f p - Real.sin (2 * Real.pi * (p.toNat : ℝ) / 2 ^ 32)| ≤ tol :=
  ⟨1, trueSine, one_pos, trueSine_mem, trueSine_0, trueSine_quarter, trueSine_half, trueSine_threeQuarters, fun p => by
    rw [trueSine_eq, sub_self, abs_zero]; exact zero_le_one⟩

/-- PCM with `NS = 2`: total index 3 is in the window, 4 is past it. -/
theorem test_witness_SignalOfEachSource :
    short.regs.ns ≤ sampleIndex short.regs 4 ∧ sampleIndex short.regs 3 < short.regs.ns ∧
    short.regs.amInfo = 0#1 ∧ { short.regs with amInfo := 1 }.amInfo = 1#1 := by decide +kernel

theorem test_witness_SignalStaysInRange :
    signal .carrier carrier 3 = .ok (.ofRat (-1)) ∧ -1 ≤ (ExactReal.ofRat (1 / 2)).val ∧ (ExactReal.ofReal 1).val ≤ 1 := by
  refine ⟨rfl, ?_, le_refl _⟩
  rw [ExactReal.val_ofRat]
  norm_num

/-- Each corner value is some amplitude's, and so is an irrational value within the bounds. -/
theorem test_witness_GrayIsExactAndBounded :
    (∀ x ∈ [(-1 : ℝ), 0, 1, 2 / 255, -1 / 255, 1 / 4], ∃ a : ExactReal, a.val = x ∧ -1 ≤ x ∧ x ≤ 1) ∧
    -1 ≤ (ExactReal.ofReal (Real.sqrt 2 / 2)).val ∧ (ExactReal.ofReal (Real.sqrt 2 / 2)).val ≤ 1 := by
  refine ⟨fun x hx => ⟨.ofReal x, rfl, ?_⟩, ?_, ?_⟩
  · simp only [List.mem_cons, List.not_mem_nil, or_false] at hx
    rcases hx with rfl | rfl | rfl | rfl | rfl | rfl <;> norm_num
  · have := Real.sqrt_nonneg 2
    rw [ExactReal.val_ofReal]
    linarith
  · have : Real.sqrt 2 < 2 := by
      rw [Real.sqrt_lt' (by norm_num)]
      norm_num
    rw [ExactReal.val_ofReal]
    linarith

theorem test_witness_SamplesAndIncrements : fm.regs.pcmFormat = 1#1 ∧ (at' base).regs.pcmFormat = 0#1 := by decide

theorem test_witness_SampleWindow : 1 ≤ fm.regs.dotClock ∧ 1 ≤ fm.regs.sr := by decide

theorem test_witness_MinimumWindow : 1 ≤ 60 ∧ configError fm.regs False True = none ∧ fm.regs.sr < fm.regs.dotClock := by decide

theorem test_witness_LookupEqualsSequentialSum :
    fm.ctrl = .idle ∧ configError fm.regs False True = none ∧ exec .preint fm = .next fmBuilt ∧
    sampleIndex fmBuilt.regs 7 < fmBuilt.regs.ns := ⟨rfl, by decide, rfl, by decide +kernel⟩

/-- Two frames of 95 L3-3: the second window is loaded, and the seed is the first frame's carry. Between PREINT and ADVANCE there is
a RENDER, and the host reads a word and writes THREADS. -/
theorem test_witness_CarryIsContinuous :
    ∃ pre post mid done : Nat → State,
      (∀ m ≤ 1, (pre m).ctrl = .idle ∧ configError (pre m).regs False True = none ∧
        exec .preint (pre m) = .next (post m) ∧ SameCarry (post m) (mid m) ∧
        exec .advance (mid m) = .next (done m) ∧ (done m).ctrl = .idle) ∧
      (∀ m < 1, (pre (m + 1)).regs.fmSeed = (done m).regs.fmSeed) ∧ mid 0 ≠ post 0 ∧
      SameCarry (post 1) (mid 1) ∧ sampleIndex (mid 1).regs 5 < (mid 1).regs.ns ∧ 0 < (mid 1).regs.ns := by
  let second : State :=
    { fm.storeBytes sramBase [0x00, 0x00, 0x00, 0x80, 0x00, 0x20] with regs.fmSeed := 0x1FFFC000 }
  let pre : Nat → State := fun m => if m = 0 then fm else second
  let mid : Nat → State := fun m =>
    { accept renderRun (accept preintRun (pre m)) with regs.threads := 2, replies := [.ok, .data 0] }
  have key : ∀ m ≤ 1, SameCarry (accept preintRun (pre m)) (mid m) := fun m hm => by
    obtain rfl | rfl : m = 0 ∨ m = 1 := by omega
    · constructor <;> decide +kernel
    · constructor <;> decide +kernel
  refine ⟨pre, fun m => accept preintRun (pre m), mid, fun m => accept advanceRun (mid m), fun m hm => ?_, fun m hm => ?_,
    by decide +kernel, key 1 (by omega), by decide +kernel, by decide +kernel⟩
  · have hk := key m hm
    obtain rfl | rfl : m = 0 ∨ m = 1 := by omega
    · exact ⟨rfl, by decide +kernel, rfl, hk, rfl, by decide +kernel⟩
    · exact ⟨rfl, by decide +kernel, rfl, hk, rfl, by decide +kernel⟩
  · obtain rfl : m = 0 := by omega
    decide +kernel

end Sys2Proof.Tests
end

section
/-! PROOFS. The register block as the host sees it: what its words hold, what a transaction at a register's offset does, and
the statements of 10 R33 to R37. -/

namespace Sys2Proof.Machine

/-! ## Words put together from fields -/

/-- The number that two fields side by side are. -/
theorem toNat_append_eq_add {m n : Nat} (x : BitVec m) (y : BitVec n) : (x ++ y).toNat = x.toNat * 2 ^ n + y.toNat := by
  rw [BitVec.toNat_append, ← Nat.shiftLeft_add_eq_or_of_lt y.isLt, Nat.shiftLeft_eq]

/-- Zeros above a field widen it. -/
theorem zero_append_eq_setWidth {n : Nat} (m : Nat) (x : BitVec n) : 0#m ++ x = x.setWidth (m + n) := by
  apply BitVec.eq_of_toNat_eq
  rw [toNat_append_eq_add, BitVec.toNat_setWidth_of_le (Nat.le_add_left n m)]
  simp

/-- Widening a field keeps its number. -/
theorem toNat_widen {n : Nat} (h : n ≤ 32) (x : BitVec n) : (x.setWidth 32).toNat = x.toNat :=
  BitVec.toNat_setWidth_of_le h

/-- The low bits of a word are what a narrower field keeps of it. -/
theorem extractLow_eq_setWidth (v : Word) {n : Nat} (h : n ≤ 32) : v.extractLsb' 0 n = v.setWidth n :=
  (BitVec.setWidth_eq_extractLsb' h).symm

/-- Keeping the low `n` bits of a word is masking the others off. -/
theorem keepLow_eq_and (v : Word) {n : Nat} (h : n ≤ 32) :
    (v.setWidth n).setWidth 32 = v &&& BitVec.ofNat 32 (2 ^ n - 1) := by
  have hmask : 2 ^ n - 1 < 2 ^ 32 := by
    have := Nat.pow_le_pow_right (n := 2) (by decide) h
    omega
  apply BitVec.eq_of_toNat_eq
  rw [toNat_widen h, BitVec.toNat_setWidth, BitVec.toNat_and, BitVec.toNat_ofNat, Nat.mod_eq_of_lt hmask,
    Nat.and_two_pow_sub_one_eq_mod]

/-- AM_INFO above SRC is the low four bits of the word written to MODE (10 R33). -/
theorem mode_fields (v : Word) : v.extractLsb' 3 1 ++ v.extractLsb' 0 3 = v.setWidth 4 := by
  rw [BitVec.extractLsb'_append_extractLsb'_eq_extractLsb' (by decide)]
  exact extractLow_eq_setWidth v (by decide)

/-! ## Transactions at a register's offset (20 R82, R87) -/

theorem busRead_offset (s : State) (r : Reg) : busRead (BitVec.ofNat 32 r.offset) s = (.data (readReg r s), s) := by
  simp only [busRead, targetOf_offset]

theorem busWrite_offset (s : State) (r : Reg) (v : Word) :
    busWrite (BitVec.ofNat 32 r.offset) v s = (.ok, writeReg r v s) := by
  simp only [busWrite, targetOf_offset]

/-- An accepted write to an RW register stores its fields (20 R90). -/
theorem writeReg_accepted {s : State} {r : Reg} (hr : r.access = .rw) (hb : s.ctrl.busy = false) (v : Word) :
    writeReg r v s = { s with regs := storeFields r v s.regs, tableValid := s.tableValid && !r.clearsTable } := by
  simp [writeReg, hr, hb]

/-- A write to a read-only register is ignored (10 R34). -/
theorem writeReg_readOnly {r : Reg} (hr : r.access = .ro) (v : Word) (s : State) : writeReg r v s = s := by
  simp [writeReg, hr]

/-- An aligned offset of the register block past the last register is reserved (10 R33). -/
theorem targetOf_reserved (g : Regs) {a : Word} (h : a.toNat % 4 = 0) (h1 : 0x078 ≤ a.toNat) (h2 : a.toNat < 0x1000) :
    targetOf g a = .reserved := by
  have hlast : ∀ r : Reg, r.offset < 0x078 := fun r => by cases r <;> decide
  have hnone : Reg.ofOffset a.toNat = none := by
    cases hr : Reg.ofOffset a.toNat with
    | none => rfl
    | some r =>
      have := reg_ofOffset_some hr
      have := hlast r
      omega
  simp [targetOf, h, h2, hnone]

/-! ## What a register reads after a store to it or to another -/

/-- A register reads back the bits of its fields. -/
theorem readReg_store_same {r : Reg} (hr : r.access = .rw) (v : Word) (s : State) (b : Bool) :
    readReg r { s with regs := storeFields r v s.regs, tableValid := b } = v &&& r.fieldMask := by
  have hword : v = v &&& 0xFFFFFFFF := BitVec.and_allOnes.symm
  cases r with
  | hTotal | vTotal | hDisplay | vDisplay | vsyncHz => exact keepLow_eq_and v (n := 16) (by decide)
  | threads => exact keepLow_eq_and v (n := 8) (by decide)
  | mode => exact (congrArg (BitVec.setWidth 32) (mode_fields v)).trans (keepLow_eq_and v (by decide))
  | osc0Ctrl | osc1Ctrl | pcmFormat => exact keepLow_eq_and v (n := 1) (by decide)
  | sampleCount => exact keepLow_eq_and v (n := 17) (by decide)
  | osc0Ppp | osc0Start | osc1Ppp | osc1Start | sampleRate | fmDevPpp | fmDevScale | fmSeed => exact hword
  | _ => cases hr

/-- A store to one register leaves what every other one reads, but for STATUS and those computed from the geometry. -/
theorem readReg_store_other {q r : Reg} (hq : q ≠ r) (hd : q ∉ [.status, .dotclockLo, .dotclockHi, .framePixels]) (v : Word)
    (s : State) (b : Bool) :
    readReg q { s with regs := storeFields r v s.regs, tableValid := b } = readReg q s := by
  cases q with
  | status | dotclockLo | dotclockHi | framePixels => exact absurd (by decide) hd
  | _ => cases r <;> first | rfl | exact absurd rfl hq

/-- A row of 10 R33 for an RW register: its offset, the register fields after a store of `v`, and what it reads. -/
def rwRow (s : State) (v : Word) (r : Reg) : Word × Regs × Word :=
  (BitVec.ofNat 32 r.offset, storeFields r v s.regs, readReg r s)

/-- Settles O21: a register's offset names it in every state, and the rest is the table read off the definitions. -/
theorem registerMapIsTheTable : Obligations.RegisterMapIsTheTable :=
  ⟨busRead_offset, rfl⟩

/-- Settles O22: first by the lemmas on a store and a read, then row by row as `rwRow` of the RW registers. -/
theorem rwRegisterReadsBackItsField : Obligations.RwRegisterReadsBackItsField := by
  refine ⟨fun s r v hr hb => ⟨writeReg r v s, busWrite_offset s r v, ?_⟩, fun s g v hg => ?_⟩
  · rw [writeReg_accepted hr hb, busRead_offset, readReg_store_same hr]
    exact ⟨rfl, rfl, fun q hq hd => readReg_store_other hq hd v s _⟩
  · subst hg
    simp only [extractLow_eq_setWidth v (n := 16) (by decide), extractLow_eq_setWidth v (n := 8) (by decide),
      extractLow_eq_setWidth v (n := 1) (by decide), extractLow_eq_setWidth v (n := 17) (by decide),
      zero_append_eq_setWidth]
    -- With every field cut and widened by `setWidth`, as the model does it, the rows are those of `rwRow`.
    change ∀ row ∈ (Reg.all.filter fun r => r.access == .rw).map (rwRow s v), _
    refine List.forall_mem_map.2 fun r hr => ⟨busRead_offset s r, fun hb => ⟨_, busWrite_offset s r v, ?_⟩⟩
    rw [writeReg_accepted (by simpa using (List.mem_filter.1 hr).2) hb]
    rfl

/-- Settles O23, from what an offset names: a read-only register, a reserved offset, or CMD. -/
theorem readOnlyAndReservedIgnoreWrites : Obligations.ReadOnlyAndReservedIgnoreWrites := by
  refine ⟨fun s r v hr => ?_, fun s => ⟨?_, busRead_offset s .errIndex, busRead_offset s .errSample,
    busRead_offset s .cfgTableDepth, busRead_offset s .cfgMaxPixels, busRead_offset s .cfgMaxLanes⟩, fun s a v h h1 h2 => ?_,
    fun s => busRead_offset s .cmd⟩
  · rw [busWrite_offset, writeReg_readOnly hr]
  · rw [zero_append_eq_setWidth]
    exact busRead_offset s .errCode
  · simp only [busWrite, busRead, targetOf_reserved s.regs h h1 h2, and_self]

/-! ## STATUS (10 R32, R37) -/

/-- A flag of STATUS clears on a 1 (10 R34). -/
theorem clearOnOne (f : Bool) (v : Word) (i : Nat) :
    (f && !v.getLsbD i) = if v.toNat / 2 ^ i % 2 = 1 then false else f := by
  rw [BitVec.getLsbD, Nat.testBit_eq_decide_div_mod_eq]
  split <;> simp [*]

/-- Settles O25: a flag is kept by masking it with the complement of its bit. -/
theorem statusFlagsClearOnOne : Obligations.StatusFlagsClearOnOne := fun s v => by
  rw [← clearOnOne, ← clearOnOne]
  exact busWrite_offset s .status v

/-- STATUS as a number, its fields at their bits (10 R33). -/
theorem statusWord_toNat (s : State) :
    (statusWord s).toNat = s.ctrl.busy.toNat + 2 * s.ctrl.code.toNat + 16 * s.tableValid.toNat
      + 32 * s.ctrl.isHalted.toNat + 256 * s.busyWrite.toNat + 512 * s.cmdReject.toNat := by
  simp only [statusWord, toNat_append_eq_add, BitVec.toNat_ofBool, BitVec.toNat_ofNat]
  omega

/-- The predicates on the controller are those of its code (10 R32, R37; 20 R91). -/
theorem ctrl_predicates_of_code (c : Ctrl) :
    (c.busy = true ↔ 1 ≤ c.code.toNat ∧ c.code.toNat ≤ 5) ∧ (c.isHalted = true ↔ c.code.toNat = 7) ∧ c.code.toNat ≠ 6 ∧
      (c.preintegratingNow = true ↔ c.code.toNat = 4) ∧
      (c.rendering = true ↔ 1 ≤ c.code.toNat ∧ c.code.toNat ≤ 3) := by
  cases c <;> simp [Ctrl.busy, Ctrl.isHalted, Ctrl.code, Ctrl.preintegratingNow, Ctrl.rendering]

/-- Settles O27: the word is the sum of its fields, and every predicate on the controller is one on its code. -/
theorem statusWordLayout : Obligations.StatusWordLayout := fun s => by
  obtain ⟨hbusy, hhalted, hsix, hpreint, hrender⟩ := ctrl_predicates_of_code s.ctrl
  refine ⟨statusWord s, busRead_offset s .status, statusWord_toNat s, ?_, hbusy, hhalted, hsix, hpreint, hrender,
    fun i hi => statusWord_unused s hi⟩
  cases s.ctrl <;> rfl

/-! ## Derived quantities (10 R36, 00 R14) -/

/-- The DotClock has 48 bits. -/
theorem dotClock_lt (g : Regs) : g.dotClock < 2 ^ 48 :=
  calc g.framePixels * g.vsyncHz.toNat < 2 ^ 32 * 2 ^ 16 :=
        Nat.mul_lt_mul'' (framePixels_lt g) g.vsyncHz.isLt
    _ = 2 ^ 48 := by norm_num

/-- The three registers computed from the geometry hold it exactly (10 R36). -/
theorem derived_registers_toNat (s : State) :
    (readReg .framePixels s).toNat = s.regs.framePixels ∧ (readReg .dotclockLo s).toNat = s.regs.dotClock % 2 ^ 32 ∧
      (readReg .dotclockHi s).toNat = s.regs.dotClock / 2 ^ 32 := by
  have hdc := dotClock_lt s.regs
  refine ⟨?_, BitVec.toNat_ofNat _ _, ?_⟩
  · exact Nat.mod_eq_of_lt (framePixels_lt s.regs)
  · exact Nat.mod_eq_of_lt (by omega)

/-- Settles O28: the products fit their 32 and 48 bits, so no register that reads them loses any. -/
theorem derivedRegistersAreExact : Obligations.DerivedRegistersAreExact := fun s => by
  have hdc := dotClock_lt s.regs
  obtain ⟨hf, hlo, hhi⟩ := derived_registers_toNat s
  have hht : (readReg .hTotal s).toNat = s.regs.hTotal.toNat := toNat_widen (by decide) _
  have hvt : (readReg .vTotal s).toNat = s.regs.vTotal.toNat := toNat_widen (by decide) _
  have hhd : (readReg .hDisplay s).toNat = s.regs.hDisplay.toNat := toNat_widen (by decide) _
  have hvd : (readReg .vDisplay s).toNat = s.regs.vDisplay.toNat := toNat_widen (by decide) _
  have hvs : (readReg .vsyncHz s).toNat = s.regs.vsyncHz.toNat := toNat_widen (by decide) _
  have hns : (readReg .sampleCount s).toNat = s.regs.ns := toNat_widen (by decide) _
  refine ⟨readReg .hTotal s, readReg .vTotal s, readReg .hDisplay s, readReg .vDisplay s, readReg .vsyncHz s,
    readReg .sampleRate s, readReg .sampleCount s, readReg .dotclockLo s, readReg .dotclockHi s, readReg .framePixels s,
    busRead_offset s .hTotal, busRead_offset s .vTotal, busRead_offset s .vsyncHz, busRead_offset s .dotclockLo,
    busRead_offset s .dotclockHi, busRead_offset s .framePixels, busRead_offset s .hDisplay, busRead_offset s .vDisplay,
    busRead_offset s .sampleRate, busRead_offset s .sampleCount, ?_⟩
  rw [hf, hlo, hhi, hht, hvt, hhd, hvd, hvs, hns]
  exact ⟨rfl, Nat.mod_add_div _ _, by omega, rfl, rfl, rfl, rfl, rfl, rfl, rfl, rfl⟩

end Sys2Proof.Machine
end

section
/-! PROOFS. What each signal source gives (42 R221 to R223, 43 R253, 44 R284). -/

namespace Sys2Proof.Machine

/-- PSCALE is multiplication in the ring mod 2^32 (40 R162). -/
theorem pscale_eq_mul (p : Phase) (n : Int) : pscale p n = p * BitVec.ofInt 32 n := by
  rw [pscale, BitVec.ofInt_mul, BitVec.ofInt_natCast, BitVec.ofNat_toNat, BitVec.setWidth_eq]

/-- The line that an entry begins, in the ring mod 2^32 (44 R284). -/
theorem entryPhase_eq (e : TblEntry) (t : Nat) : entryPhase e t = e.cum + e.inc * (BitVec.ofNat 32 t - e.start) := by
  rw [entryPhase, padd, pscale_eq_mul, Int.sub_eq_add_neg, BitVec.ofInt_add, BitVec.ofInt_neg, BitVec.ofInt_natCast,
    BitVec.ofInt_natCast, BitVec.ofNat_toNat, BitVec.setWidth_eq, BitVec.sub_eq_add_neg]

/-- A lookup past the window fails in every source that makes one (43 R253, 44 R284). -/
theorem lookups_past_window {s : State} {t : Nat} (h : s.regs.ns ≤ sampleIndex s.regs t) :
    pcmAmp s t = .fail t (sampleIndex s.regs t) ∧ ipcm s t = .fail t (sampleIndex s.regs t) := by
  simp only [pcmAmp, ipcm, if_pos h, and_self]

theorem lookups_in_window {s : State} {t : Nat} (h : sampleIndex s.regs t < s.regs.ns) :
    pcmAmp s t = .ok (.ofRat (ampSample s (sampleIndex s.regs t))) ∧
      ipcm s t = .ok (entryPhase (tblEntry s (sampleIndex s.regs t)) t) := by
  simp only [pcmAmp, ipcm, if_neg (Nat.not_le.2 h), and_self]

/-- AM is half of the information plus one, times the carrier; a failure of the information is its own (42 R220, R221). -/
theorem amSignal_of_information {s : State} {t : Nat} {a : ExactReal} (h : amInformation s t = .ok a) :
    (amSignal s t).map ExactReal.val = .ok ((a.val + 1) / 2 * (oscSample s.regs.osc0 t).val) := by
  simp only [amSignal, h, Lookup.map, ExactReal.val_mul, normalize_val]

theorem amInformation_osc1 {s : State} (h : s.regs.amInfo = 0#1) (t : Nat) :
    amInformation s t = .ok (oscSample s.regs.osc1 t) := if_pos h

theorem amInformation_pcm {s : State} (h : s.regs.amInfo = 1#1) (t : Nat) : amInformation s t = pcmAmp s t :=
  if_neg (by rw [h]; decide)

/-- FM is the carrier with the scaled integrated phase added to its own (42 R222). -/
theorem fmSignal_of_ipcm {s : State} {t : Nat} {ph : Phase} (h : ipcm s t = .ok ph) :
    fmSignal s t = .ok (wave (waveOf s.regs.osc0.wave) (oscPhase s.regs.osc0 t + ph * s.regs.fmDevScale)) := by
  simp only [fmSignal, h, Lookup.map, oscSampleDev, padd, pscale_eq_mul, BitVec.ofInt_natCast, BitVec.ofNat_toNat,
    BitVec.setWidth_eq]

/-- Settles O53, source by source from what the two lookups give, and each lookup by whether its sample is in the window. -/
theorem signalOfEachSource : Obligations.SignalOfEachSource := by
  refine ⟨⟨rfl, rfl, rfl, rfl, rfl, rfl, rfl, rfl⟩, ⟨rfl, rfl⟩, fun p => ⟨rfl, rfl⟩, fun s t => ?_⟩
  refine ⟨sampleIndex s.regs t, _, _, rfl, rfl, rfl, rfl, rfl, fun hk => ?_, fun hk => ?_, fun ha => ?_⟩
  · obtain ⟨hp, hi⟩ := lookups_past_window hk
    refine ⟨hp, hi, ?_, fun ha => ?_⟩
    · simp only [signal, fmSignal, hi, Lookup.map]
    · simp only [signal, amSignal, amInformation_pcm ha, hp, Lookup.map]
  · obtain ⟨hp, hi⟩ := lookups_in_window hk
    refine ⟨?_, fun ha => amSignal_of_information ((amInformation_pcm ha t).trans hp), _, rfl, ?_, ?_⟩
    · simp only [signal, hp, Lookup.map, ExactReal.val_ofRat]
    · rw [hi, entryPhase_eq]
    · simp only [signal, fmSignal_of_ipcm hi, entryPhase_eq, Lookup.map]
  · exact amSignal_of_information (amInformation_osc1 ha t)

end Sys2Proof.Machine
end

section
/-! PROOFS. What one step can do to the block, the host's side left out, and what follows for the error registers, the memories
and the snapshot (10 R43 to R49). -/

namespace Sys2Proof.Machine

/-! ## What a step can do to the block -/

/-- The controller is in PREINTEGRATING, or a PREINT is at the head of the host's queue and the block is IDLE (10 R46). -/
def PreintWrites (s : State) : Prop :=
  s.ctrl.preintegratingNow = true ∨ (s.ctrl = .idle ∧ ∃ rest, s.ops = .write 0#32 1#32 :: rest)

/-- A RENDER is in progress, or one is at the head of the host's queue and the block is IDLE (10 R47). -/
def RenderWrites (s : State) : Prop :=
  s.ctrl.rendering = true ∨ (s.ctrl = .idle ∧ ∃ rest, s.ops = .write 0#32 2#32 :: rest)

/-- What a step other than a reset does to the block, by the part of it that changes. The host's side is left as it is. -/
inductive BlockEffect (s : State) : State → Prop where
  /-- The controller state alone. -/
  | ctrl (c : Ctrl) : BlockEffect s (s.setCtrl c)
  /-- Entry to HALTED (60 R385). -/
  | error (e : ErrorCode) (i x : Word) (hh : s.ctrl ≠ .halted) : BlockEffect s (raiseError e i x s)
  /-- An accepted write of the host to a register (20 R90). -/
  | register (r : Reg) (v : Word) (hb : s.ctrl.busy = false) :
    BlockEffect s { s with regs := storeFields r v s.regs, tableValid := s.tableValid && !r.clearsTable }
  /-- An accepted write of the host to an SRAM word (20 R90). -/
  | sram (a v : Word) (rest : List HostOp) (ho : s.ops = .write a v :: rest) (hb : s.ctrl.busy = false)
    (ha : a.toNat + 4 ≤ sramBase + 2 * s.regs.tableDepth) :
    BlockEffect s ((s.storeBytes a.toNat (wordBytes v)).setTableValid false)
  /-- PREINT's entries and its commit, which ends the command (44 R283). -/
  | table (t : State) (hw : PreintWrites s) (hr : t.regs = s.regs)
    (hv : t.ctrl.busy = true → t.tableValid = s.tableValid)
    (hm : ∀ x, x < tblBase ∨ fbBase ≤ x → t.byte x = s.byte x) : BlockEffect s t
  /-- RENDER's commit (45 R328). -/
  | frame (bs : List Byte) (hw : RenderWrites s) : BlockEffect s ((s.storeBytes fbBase bs).setCtrl .idle)
  /-- ADVANCE's commit (45 R333). -/
  | commit (seed : Phase) : BlockEffect s (advanceCommit seed s)

/-- A block that is left as it is. -/
theorem blockEffect_refl (s : State) : BlockEffect s s := .ctrl s.ctrl

/-- The window of the table that `NS` entries can fill ends below the frame buffer. -/
theorem tblAddr_ns_le (g : Regs) {k : Nat} (h : k ≤ g.ns) : tblBase ≤ tblAddr k ∧ tblAddr k + 16 ≤ fbBase := by
  have := ns_lt g
  simp only [tblAddr, tblBase, fbBase]
  omega

theorem preintStep_blockEffect {s : State} {k : Nat} {c : Phase} (h : s.ctrl = .preintegrating k c) :
    BlockEffect s (preintStep s) := by
  have hw : PreintWrites s := .inl (by rw [h]; rfl)
  by_cases hk : k < s.regs.ns
  · obtain ⟨hlo, hhi⟩ := tblAddr_ns_le s.regs (Nat.le_of_lt hk)
    rw [preintStep_entry h hk]
    refine .table _ hw rfl (fun _ => rfl) fun x hx => ?_
    rw [setCtrl_byte, byte_storeEntry_outside s _ (by omega)]
  · rw [preintStep_commit h hk]
    exact .table _ hw rfl (fun hb => by simp [Ctrl.busy] at hb) fun _ _ => rfl

theorem collectStep_blockEffect {s : State} {ws : List Worker} (h : s.ctrl = .collecting ws) :
    BlockEffect s (collectStep s) := by
  simp only [collectStep, h]
  split
  · exact blockEffect_refl s
  · split
    · exact .error _ _ _ (by simp [h])
    · exact .ctrl _

theorem controllerStep_blockEffect (s : State) : BlockEffect s (controllerStep s) := by
  rcases controllerStep_cases s with ⟨-, he⟩ | ⟨hc, he⟩ | ⟨⟨ws, hc⟩, he⟩ | ⟨⟨bufs, hc⟩, he⟩ | ⟨⟨k, c, hc⟩, he⟩ | ⟨hc, he⟩ <;>
    rw [he]
  · exact blockEffect_refl s
  · simp only [dispatchStep, hc]
    exact .ctrl _
  · exact collectStep_blockEffect hc
  · simp only [composeStep, hc]
    exact .frame _ (.inl (by rw [hc]; rfl))
  · exact preintStep_blockEffect hc
  · rcases advanceStep_cases hc with ⟨t, k, -, he⟩ | ⟨seed, -, he⟩ <;> rw [he]
    · exact .error _ _ _ (by simp [hc])
    · exact .commit seed

theorem workerMove_blockEffect (n : Nat) (s : State) : BlockEffect s (workerMove n s) := by
  unfold workerMove
  split
  · exact .ctrl _
  · exact blockEffect_refl s

/-- Checks that fail raise CONFIG; checks that pass leave what comes after them. -/
theorem checked_blockEffect {s : State} (hc : s.ctrl = .idle) (cs : List Check) {go : State → State}
    (hgo : BlockEffect s (go s)) : BlockEffect s (checked cs go s) := by
  rcases checked_cases cs go s with ⟨off, -, he⟩ | ⟨-, he⟩ <;> rw [he]
  · exact .error _ _ _ (by simp [hc])
  · exact hgo

theorem renderSequence_blockEffect {s : State} (hc : s.ctrl = .idle) : BlockEffect s (renderSequence s) := by
  unfold renderSequence
  split
  · exact .error _ _ _ (by simp [hc])
  · exact .ctrl _

theorem preintRun_blockEffect {s : State} (hc : s.ctrl = .idle) (hw : PreintWrites s) : BlockEffect s (preintRun s) := by
  cases hf : firstFailing (preintChecks s.regs) with
  | some off =>
    rw [preintRun_config hf]
    exact .error _ _ _ (by simp [hc])
  | none =>
    obtain ⟨he, -, hbyte⟩ := preintRun_spec hf
    obtain ⟨-, hhi⟩ := tblAddr_ns_le s.regs (Nat.le_refl _)
    refine .table _ hw (by rw [he]) (fun hb => ?_) fun x hx => hbyte x (by omega)
    rw [he] at hb
    cases hb

/-- What a RENDER can come to: an error of its acceptance, a RANGE error, or the frame. -/
theorem renderRun_blockEffect {s : State} (hc : s.ctrl = .idle) (hw : RenderWrites s) : BlockEffect s (renderRun s) := by
  by_cases ha : RenderAccepted s
  · rcases renderRun_spec ha with ⟨_, t, k, -, -, -, he⟩ | ⟨gs, -, he⟩ <;> rw [he]
    · exact .error _ _ _ (by simp [hc])
    · exact .frame _ hw
  · have hb : ∃ e i, renderBegin s = raiseError e i 0 s := by
      cases hf : firstFailing (renderAllChecks s.regs) with
      | some off => exact ⟨_, _, renderBegin_config hf⟩
      | none =>
        have hseq : ¬(sourceOf s.regs.src = some .fm → s.tableValid = true) := fun h => ha ⟨hf, h⟩
        rw [Classical.not_imp, Bool.not_eq_true] at hseq
        exact ⟨_, _, renderBegin_seq hf hseq.1 hseq.2⟩
    obtain ⟨e, i, he⟩ := hb
    rw [renderRun, he, render_phases_halted rfl]
    exact .error _ _ _ (by simp [hc])

theorem advanceRun_blockEffect {s : State} (hc : s.ctrl = .idle) : BlockEffect s (advanceRun s) := by
  cases hf : firstFailing (advanceChecks s.regs) with
  | some off =>
    rw [advanceRun_config hf]
    exact .error _ _ _ (by simp [hc])
  | none =>
    rcases advanceRun_spec hf with ⟨t, k, -, he⟩ | ⟨seed, -, he⟩ <;> rw [he]
    · exact .error _ _ _ (by simp [hc])
    · exact .commit seed

/-- An accepted command, run whole or begun. -/
theorem commandEffect_blockEffect {s : State} (hc : s.ctrl = .idle) (whole : Bool) {i : Instr} {rest : List HostOp}
    (ho : s.ops = .write 0#32 (encode i) :: rest) : BlockEffect s (commandEffect whole i s) := by
  cases i <;> cases whole
  case nop.false | nop.true => exact blockEffect_refl s
  case preint.false => exact checked_blockEffect hc _ (.ctrl _)
  case preint.true => exact preintRun_blockEffect hc (.inr ⟨hc, rest, ho⟩)
  case render.false => exact checked_blockEffect hc _ (renderSequence_blockEffect hc)
  case render.true => exact renderRun_blockEffect hc (.inr ⟨hc, rest, ho⟩)
  case advance.false => exact checked_blockEffect hc _ (.ctrl _)
  case advance.true => exact advanceRun_blockEffect hc

/-- A write of the host to anything but CMD: its own side at most, or an accepted write to a register or to SRAM. -/
theorem busWrite_blockEffect {s : State} {a v : Word} {rest : List HostOp} (ho : s.ops = .write a v :: rest) :
    ∃ u, BlockEffect s u ∧ (busWrite a v { s with ops := rest }).2 = (busWrite a v { s with ops := rest }).2.setHost u := by
  rcases busWrite_cases a v { s with ops := rest } with he | ⟨r, -, he⟩ | ⟨o, ht, he⟩ <;> rw [he]
  · exact ⟨s, blockEffect_refl s, rfl⟩
  · rcases writeReg_cases r v { s with ops := rest } with ⟨-, -, h⟩ | ⟨-, hb, h⟩ | ⟨-, h⟩ | ⟨-, h⟩ <;> rw [h]
    · exact ⟨s, blockEffect_refl s, rfl⟩
    · exact ⟨_, .register r v hb, rfl⟩
    · exact ⟨s, blockEffect_refl s, rfl⟩
    · exact ⟨s, blockEffect_refl s, rfl⟩
  · rcases writeSram_cases o v { s with ops := rest } with ⟨-, h⟩ | ⟨hb, h⟩ <;> rw [h]
    · exact ⟨s, blockEffect_refl s, rfl⟩
    · have hspec := targetOf_spec s.regs a
      rw [ht] at hspec
      obtain ⟨hao, hlen⟩ := hspec
      rw [← hao]
      exact ⟨_, .sram a v rest ho hb (by omega), rfl⟩

/-- What a step other than a reset does to the block; the rest of what it does is on the host's side. -/
theorem stepEffect_blockEffect {s t : State} (h : StepEffect s t) : ∃ u, BlockEffect s u ∧ t = t.setHost u := by
  cases h with
  | nothing => exact ⟨s, blockEffect_refl s, rfl⟩
  | controller => exact ⟨_, controllerStep_blockEffect s, rfl⟩
  | worker n => exact ⟨_, workerMove_blockEffect n s, rfl⟩
  | read a rest ho =>
    refine ⟨s, blockEffect_refl s, ?_⟩
    rw [busRead_host]
    rfl
  | wait rest ho => exact ⟨s, blockEffect_refl s, rfl⟩
  | stop rest ho => exact ⟨s, blockEffect_refl s, rfl⟩
  | write a v rest ho ha =>
    obtain ⟨u, hu, he⟩ := busWrite_blockEffect ho
    refine ⟨u, hu, ?_⟩
    rw [he]
    rfl
  | dropped w rest ho hc => exact ⟨s, blockEffect_refl s, rfl⟩
  | illegal w e rest ho hc hd => exact ⟨_, .error .cmd w 0 (by simp [hc]), rfl⟩
  | command whole i rest ho hc =>
    have hblind := blind_commandEffect whole i (answer .ok { s with ops := rest }) s
    refine ⟨_, commandEffect_blockEffect hc whole ho, ?_⟩
    exact hblind.trans (congrArg (fun t => t.setHost (commandEffect whole i s)) hblind.symm)

/-- What a step can do: a reset that was laid down, or an effect on the block with the host's side changed beside it. -/
theorem step_blockEffect {s t : State} (h : step s = .next t) :
    (∃ ms, s.moves = .reset :: ms ∧ t = resetBlock { s with moves := ms }) ∨
      ∃ ms u, BlockEffect { s with moves := ms } u ∧ t = t.setHost u := by
  rcases step_effect h with hreset | ⟨ms, he⟩
  · exact .inl hreset
  · exact .inr ⟨ms, stepEffect_blockEffect he⟩

/-! ## The error registers and the sizes (10 R43, R44) -/

/-- The size parameters are as before, and so are the error registers, unless the block has entered HALTED. -/
def ErrorsKept (s t : State) : Prop :=
  t.regs.cfg = s.regs.cfg ∧
    ((t.regs.errCode = s.regs.errCode ∧ t.regs.errIndex = s.regs.errIndex ∧ t.regs.errSample = s.regs.errSample) ∨
      (s.ctrl ≠ .halted ∧ t.ctrl = .halted))

theorem errorsKept_of_regs {s t : State} (h : t.regs = s.regs) : ErrorsKept s t := by
  simp only [ErrorsKept, h, and_self, true_or]

theorem errorsKept_of_blockEffect {s u : State} (h : BlockEffect s u) : ErrorsKept s u := by
  cases h with
  | ctrl c => exact errorsKept_of_regs rfl
  | error e i x hh => exact ⟨rfl, .inr ⟨hh, rfl⟩⟩
  | register r v hb =>
    obtain ⟨hcfg, herr⟩ := storeFields_fixed r v s.regs
    exact ⟨hcfg, .inl herr⟩
  | sram a v rest ho hb ha => exact errorsKept_of_regs rfl
  | table u hw hr hv hm => exact errorsKept_of_regs hr
  | frame bs hw => exact errorsKept_of_regs rfl
  | commit seed => exact ⟨rfl, .inl ⟨rfl, rfl, rfl⟩⟩

/-- Settles O37: no effect on the block writes them but an entry to HALTED, and reset leaves them 0. -/
theorem errorRegistersWrittenOnlyOnEntry : Obligations.ErrorRegistersWrittenOnlyOnEntry := fun s t h => by
  rcases step_blockEffect h with ⟨ms, hm, rfl⟩ | ⟨ms, u, hu, ht⟩
  · exact ⟨rfl, .inr (.inr ⟨⟨ms, hm⟩, rfl, rfl, rfl⟩)⟩
  · obtain ⟨hcfg, herr⟩ := errorsKept_of_blockEffect hu
    rw [ht]
    exact ⟨hcfg, herr.imp_right .inl⟩

/-! ## The writers of the memories (10 R45 to R47) -/

/-- Who may have changed the byte at `x` (20 R92). -/
structure WriterOf (s : State) (x : Nat) : Prop where
  sram : x < tblBase → s.ctrl.busy = false ∧ ∃ a v rest, s.ops = .write a v :: rest ∧ a.toNat ≤ x ∧ x < a.toNat + 4
  table : tblBase ≤ x → x < fbBase → PreintWrites s
  frame : fbBase ≤ x → RenderWrites s

theorem writerOf_of_blockEffect {s u : State} {x : Nat} (h : BlockEffect s u) (hp : paramsOk s.regs.cfg = true)
    (hx : u.byte x ≠ s.byte x) : WriterOf s x := by
  cases h with
  | sram a v rest ho hb ha =>
    have hin : a.toNat ≤ x ∧ x < a.toNat + 4 := by
      by_contra hout
      exact hx (byte_storeBytes_outside s (by rw [wordBytes_length]; omega))
    have hlow : x < tblBase := by
      simp only [paramsOk, Bool.and_eq_true, decide_eq_true_eq] at hp
      simp only [sramBase, tblBase, Regs.tableDepth] at *
      omega
    exact ⟨fun _ => ⟨hb, a, v, rest, ho, hin⟩, fun h => absurd hlow (Nat.not_lt.2 h),
      fun h => absurd hlow (by simp only [tblBase, fbBase] at *; omega)⟩
  | table u hw hr hv hm =>
    have hin : ¬(x < tblBase ∨ fbBase ≤ x) := fun hout => hx (hm x hout)
    exact ⟨fun h => absurd (.inl h) hin, fun _ _ => hw, fun h => absurd (.inr h) hin⟩
  | frame bs hw =>
    have hin : fbBase ≤ x := by
      by_contra hout
      exact hx (byte_storeBytes_outside s (.inl (Nat.not_le.1 hout)))
    exact ⟨fun h => absurd h (by simp only [tblBase, fbBase] at *; omega), fun _ h => absurd hin (Nat.not_le.2 h),
      fun _ => hw⟩
  | ctrl c | error e i y hh | register r v hb | commit seed => exact absurd rfl hx

/-- Settles O39: each effect that stores bytes stores them in one memory's window, and carries its writer with it. -/
theorem onlyTheirWritersChangeTheMemories : Obligations.OnlyTheirWritersChangeTheMemories := fun s t x h hp hnr hx => by
  rcases step_blockEffect h with ⟨ms, hm, -⟩ | ⟨ms, u, hu, ht⟩
  · exact absurd hm (hnr ms)
  · rw [ht] at hx
    obtain ⟨hsram, htable, hframe⟩ := writerOf_of_blockEffect (x := x) hu hp hx
    exact ⟨hsram, htable, hframe⟩

/-! ## The snapshot (10 R49) -/

theorem snapshot_of_blockEffect {s u : State} (h : BlockEffect s u) (hs : s.ctrl.busy = true) (hu : u.ctrl.busy = true) :
    u.regs = s.regs ∧ u.tableValid = s.tableValid ∧ (∀ x < tblBase, u.byte x = s.byte x) ∧
      (s.ctrl.preintegratingNow = false → ∀ x, u.byte x = s.byte x) := by
  cases h with
  | ctrl c => exact ⟨rfl, rfl, fun _ _ => rfl, fun _ _ => rfl⟩
  | register r v hb | sram a v rest ho hb ha => simp [hb] at hs
  | error e i x hh | frame bs hw | commit seed => cases hu
  | table u hw hr hv hm =>
    refine ⟨hr, hv hu, fun x hx => hm x (.inl hx), fun hn => ?_⟩
    rcases hw with hp | ⟨hi, -⟩
    · simp [hn] at hp
    · rw [hi] at hs
      cases hs

/-- Settles O40: from BUSY to BUSY an effect changes the controller state alone, or stores an entry of PREINT's table. -/
theorem snapshotConstantWhileBusy : Obligations.SnapshotConstantWhileBusy := fun s t hs h ht => by
  rcases step_blockEffect h with ⟨ms, -, rfl⟩ | ⟨ms, u, hu, he⟩
  · cases ht
  · rw [he] at ht ⊢
    exact snapshot_of_blockEffect (s := { s with moves := ms }) (u := u) hu hs ht

end Sys2Proof.Machine
end

section
/-! PROOFS. What the host's transactions do: which operation of the host a step is, and what a read and a write of the three
memories answer and leave (20 R80 to R91). -/

namespace Sys2Proof.Machine

/-! ## The host's turn (20 R82, R88) -/

/-- When it is the host's turn a step is its next operation, the schedule's head taken off. -/
theorem step_of_hostToMove {s : State} {ms : List Move} (h : HostToMove s ms) :
    ∃ whole, step s = hostStep whole { s with moves := ms } := by
  rcases h with hm | hm | ⟨hm, rfl, hb⟩
  · exact ⟨false, by simp only [step, machineStep, hm, agentMove]⟩
  · exact ⟨true, by simp only [step, machineStep, hm, agentMove]⟩
  · refine ⟨true, ?_⟩
    have hs : { s with moves := [] } = s := by rw [← hm]
    have hd : defaultMove s = if s.ops.isEmpty then none else some .hostRun := by
      unfold defaultMove
      cases hc : s.ctrl <;> simp [hc, Ctrl.busy] at hb <;> rfl
    rw [hs]
    cases ho : s.ops <;> simp [step, machineStep, hm, hd, ho, agentMove, hostStep]

theorem hostStep_read {s : State} {a : Word} {rest : List HostOp} (ho : s.ops = .read a :: rest) (whole : Bool) :
    hostStep whole s = .next (answer (busRead a { s with ops := rest }).1 (busRead a { s with ops := rest }).2) := by
  simp only [hostStep, ho]

theorem hostStep_write {s : State} {a v : Word} {rest : List HostOp} (ho : s.ops = .write a v :: rest) (ha : a ≠ 0#32)
    (whole : Bool) : hostStep whole s =
      .next (answer (busWrite a v { s with ops := rest }).1 (busWrite a v { s with ops := rest }).2) := by
  have ht : targetOf s.regs a ≠ .reg .cmd := fun h => ha ((targetOf_cmd_iff _ _).1 h)
  simp only [hostStep, ho, if_neg ht]

theorem hostStep_wait {s : State} {rest : List HostOp} (ho : s.ops = .wait :: rest) (whole : Bool) :
    hostStep whole s = .next (waitRead rest s) := by
  simp only [hostStep, ho]

theorem hostStep_stopIfHalted {s : State} {rest : List HostOp} (ho : s.ops = .stopIfHalted :: rest) (whole : Bool) :
    hostStep whole s = .next (stopRead rest s) := by
  simp only [hostStep, ho]

/-- A transaction itself answers nothing: the host's step lists its answer. -/
theorem busRead_replies (a : Word) (s : State) : (busRead a s).2.replies = s.replies := by
  rcases busRead_state a s with h | h <;> rw [h]

theorem busWrite_replies (a v : Word) (s : State) : (busWrite a v s).2.replies = s.replies := by
  rcases busWrite_cases a v s with h | ⟨r, -, h⟩ | ⟨o, -, h⟩ <;> rw [h]
  · rcases writeReg_cases r v s with ⟨-, -, h⟩ | ⟨-, -, h⟩ | ⟨-, h⟩ | ⟨-, h⟩ <;> rw [h] <;> rfl
  · rcases writeSram_cases o v s with ⟨-, h⟩ | ⟨-, h⟩ <;> rw [h] <;> rfl

/-- Bit 0 of STATUS is BUSY (10 R33). -/
theorem statusWord_bit0_iff (s : State) : (statusWord s).toNat % 2 = 1 ↔ s.ctrl.busy = true := by
  have hbusy := s.ctrl.busy.toNat_le
  rw [statusWord_toNat, ← Bool.toNat_eq_one]
  omega

/-- Bit 5 of STATUS is HALTED (10 R33). -/
theorem statusWord_bit5_iff (s : State) : (statusWord s).toNat / 2 ^ 5 % 2 = 1 ↔ s.ctrl.isHalted = true := by
  have hbusy := s.ctrl.busy.toNat_le
  have hcode := s.ctrl.code.isLt
  have htable := s.tableValid.toNat_le
  have hhalted := s.ctrl.isHalted.toNat_le
  rw [statusWord_toNat, ← Bool.toNat_eq_one]
  omega

/-- Settles O6: a step of the host is `hostStep`, which has one equation for each of its operations. -/
theorem hostStepIsOneTransaction : Obligations.HostStepIsOneTransaction := fun s rest ms h => by
  obtain ⟨whole, hstep⟩ := step_of_hostToMove h
  refine ⟨fun a ho => ⟨_, rfl, hstep.trans ?_⟩, fun a v ho ha => ⟨_, rfl, hstep.trans ?_⟩, fun ho => hstep.trans ?_,
    fun ho => hstep.trans ?_⟩
  · rw [hostStep_read (s := { s with moves := ms }) ho, answer, busRead_replies]
  · rw [hostStep_write (s := { s with moves := ms }) ho ha, answer, busWrite_replies]
  · simp only [hostStep_wait (s := { s with moves := ms }) ho, readReg, statusWord_bit0_iff]
    rfl
  · simp only [hostStep_stopIfHalted (s := { s with moves := ms }) ho, readReg, statusWord_bit5_iff]
    rfl

/-! ## Where an address lies (20 R80, R83) -/

theorem targetOf_misaligned {a : Word} (h : a.toNat % 4 ≠ 0) (g : Regs) : targetOf g a = .misaligned := by
  simp only [targetOf, if_pos h]

theorem targetOf_unmapped {g : Regs} {a : Word} (h : a.toNat % 4 = 0) (h1 : 0x1000 ≤ a.toNat)
    (h2 : ¬ InMemories g a.toNat) : targetOf g a = .unmapped := by
  have hspec := targetOf_spec g a
  unfold InMemories at h2
  cases ht : targetOf g a <;> simp only [ht] at hspec
  case unmapped => rfl
  case reg r => exact absurd (reg_offset_lt r) (by omega)
  all_goals omega

/-- An address that names a place is aligned. -/
theorem aligned_of_targetOf {g : Regs} {a : Word} {t : Target} (ht : targetOf g a = t) (h : t ≠ .misaligned) :
    a.toNat % 4 = 0 :=
  not_not.1 fun h' => h (ht.symm.trans (targetOf_misaligned h' g))

theorem tblWindow_of_targetOf {g : Regs} {a : Word} {k : Nat} {f : TblField} (ht : targetOf g a = .tbl k f) :
    a.toNat % 4 = 0 ∧ tblBase ≤ a.toNat ∧ a.toNat < tblBase + 16 * g.tableDepth := by
  have hspec := targetOf_spec g a
  rw [ht] at hspec
  obtain ⟨ha, hk, -⟩ := hspec
  exact ⟨aligned_of_targetOf ht nofun, by omega, by omega⟩

theorem fbWindow_of_targetOf {g : Regs} {a : Word} {v : Nat} (ht : targetOf g a = .fb v) :
    a.toNat % 4 = 0 ∧ fbBase ≤ a.toNat ∧ a.toNat < fbBase + 4 * g.maxPixels := by
  have hspec := targetOf_spec g a
  rw [ht] at hspec
  obtain ⟨ha, hv⟩ := hspec
  exact ⟨aligned_of_targetOf ht nofun, by omega, by omega⟩

/-! ## BUSERR (20 R83, R86) -/

theorem bus_misaligned {a : Word} (h : a.toNat % 4 ≠ 0) (v : Word) (s : State) :
    busRead a s = (.busErr, s) ∧ busWrite a v s = (.busErr, s) := by
  simp only [busRead, busWrite, targetOf_misaligned h, and_self]

theorem bus_unmapped {a : Word} {s : State} (h : a.toNat % 4 = 0) (h1 : 0x1000 ≤ a.toNat)
    (h2 : ¬ InMemories s.regs a.toNat) (v : Word) : busRead a s = (.busErr, s) ∧ busWrite a v s = (.busErr, s) := by
  simp only [busRead, busWrite, targetOf_unmapped h h1 h2, and_self]

theorem busWrite_tbl {a : Word} {s : State} (hp : paramsOk s.regs.cfg = true) (h : a.toNat % 4 = 0)
    (h1 : tblBase ≤ a.toNat) (h2 : a.toNat < tblBase + 16 * s.regs.tableDepth) (v : Word) :
    busWrite a v s = (.busErr, s) := by
  simp only [busWrite, targetOf_tbl hp h h1 h2]

theorem busWrite_fb {a : Word} {s : State} (hp : paramsOk s.regs.cfg = true) (h : a.toNat % 4 = 0)
    (h1 : fbBase ≤ a.toNat) (h2 : a.toNat < fbBase + 4 * s.regs.maxPixels) (v : Word) :
    busWrite a v s = (.busErr, s) := by
  simp only [busWrite, targetOf_fb hp h h1 h2]

/-- Settles O30: a misaligned address is an error wherever it lies, and an aligned one by what it names. -/
theorem busErrorsChangeNothing : Obligations.BusErrorsChangeNothing := fun s a v hp => by
  by_cases h : a.toNat % 4 = 0
  · exact ⟨fun hm => absurd h hm, fun h1 h2 => bus_unmapped h h1 h2 v, fun h1 h2 => busWrite_tbl hp h h1 h2 v,
      fun h1 h2 => busWrite_fb hp h h1 h2 v⟩
  · have herr := bus_misaligned h v s
    exact ⟨fun _ => herr, fun _ _ => herr, fun _ _ => herr.2, fun _ _ => herr.2⟩

/-! ## Sample RAM (20 R84, R85, R90) -/

section
variable {s : State} {a : Word} (h : a.toNat % 4 = 0) (h1 : sramBase ≤ a.toNat)
  (h2 : a.toNat + 4 ≤ sramBase + 2 * s.regs.tableDepth)
include h h1 h2

theorem busRead_sram : busRead a s = (.data (s.word a.toNat), s) := by
  simp only [busRead, targetOf_sram h h1 h2, Nat.add_sub_cancel' h1]

theorem busWrite_sram_busy (hb : s.ctrl.busy = true) (v : Word) : busWrite a v s = (.ok, dropWrite s) := by
  simp only [busWrite, targetOf_sram h h1 h2, writeSram, if_pos hb]

theorem busWrite_sram_accepted (hb : s.ctrl.busy = false) (v : Word) :
    busWrite a v s = (.ok, (s.storeBytes a.toNat (wordBytes v)).setTableValid false) := by
  simp only [busWrite, targetOf_sram h h1 h2, writeSram, hb, Nat.add_sub_cancel' h1, Bool.false_eq_true, if_false]

end

/-- A write to an RW register while BUSY is dropped (20 R90). -/
theorem writeReg_dropped {s : State} {r : Reg} (hr : r.access = .rw) (hb : s.ctrl.busy = true) (v : Word) :
    writeReg r v s = dropWrite s := by
  simp only [writeReg, hr, if_pos hb]

/-- Settles O24: a register and an SRAM word drop the write in the same way. -/
theorem busyDropsWrites : Obligations.BusyDropsWrites := fun s v hb =>
  ⟨fun r hr => by rw [busWrite_offset, writeReg_dropped hr hb]; rfl, fun _ h h1 h2 => busWrite_sram_busy h h1 h2 hb v⟩

/-- Byte `i` of a word in address order is its bits from `8 * i` (20 R84). -/
theorem wordBytes_getElem (v : Word) {i : Nat} (hi : i < (wordBytes v).length) :
    (wordBytes v)[i] = v.extractLsb' (8 * i) 8 := by
  rw [wordBytes_length] at hi
  interval_cases i <;> rfl

/-- Settles O29, from what a store of a word's bytes leaves at each address. -/
theorem sramWordReadsBack : Obligations.SramWordReadsBack := fun s a v hb h h1 h2 => by
  refine ⟨_, busWrite_sram_accepted h h1 h2 hb v, rfl, ?_, fun i hi => ?_, fun x hx => ?_⟩
  · rw [busRead_sram (s := (s.storeBytes a.toNat (wordBytes v)).setTableValid false) h h1 h2, setTableValid_word,
      word_storeBytes_word]
  · rw [setTableValid_byte, byte_storeBytes_inside s (by rwa [wordBytes_length]), wordBytes_getElem]
  · rw [setTableValid_byte, byte_storeBytes_outside s hx]

/-! ## Reads of the table window and of the frame buffer (20 R89, R91; 30 R125) -/

/-- A read of the table window gives a field of an entry, and an unspecified value during PREINTEGRATING. -/
theorem busRead_tbl {a : Word} {s : State} {k : Nat} {f : TblField} (ht : targetOf s.regs a = .tbl k f) :
    busRead a s = if s.ctrl.preintegratingNow then unspecifiedRead s else (.data ((tblEntry s k).word f), s) := by
  simp only [busRead, ht]

/-- A read of the frame buffer gives a pixel's word, and an unspecified value during a RENDER. -/
theorem busRead_fb {a : Word} {s : State} {v : Nat} (ht : targetOf s.regs a = .fb v) :
    busRead a s = if s.ctrl.rendering then unspecifiedRead s else (.data (s.word (fbBase + 4 * v)), s) := by
  simp only [busRead, ht]

/-- A read leaves the state as it is unless its value is unspecified (20 R89, R91). -/
theorem busRead_keeps_state {a : Word} {s : State}
    (htbl : ∀ k f, targetOf s.regs a = .tbl k f → s.ctrl.preintegratingNow = false)
    (hfb : ∀ v, targetOf s.regs a = .fb v → s.ctrl.rendering = false) : (busRead a s).2 = s := by
  cases ht : targetOf s.regs a with
  | tbl k f => rw [busRead_tbl ht, htbl k f ht]; rfl
  | fb v => rw [busRead_fb ht, hfb v ht]; rfl
  | misaligned | unmapped | reserved | reg r | sram o => simp only [busRead, ht]

/-- Settles O32: an aligned address in either window names its entry or its pixel, and only such an address does. -/
theorem readsLeaveTheBlockAlone : Obligations.ReadsLeaveTheBlockAlone := fun s a hp => by
  split
  next hdraw =>
    obtain ⟨h, ⟨hc, h1, h2⟩ | ⟨hc, h1, h2⟩⟩ := hdraw
    · rw [busRead_tbl (targetOf_tbl hp h h1 h2), if_pos hc, unspecifiedRead]
    · rw [busRead_fb (targetOf_fb hp h h1 h2), if_pos hc, unspecifiedRead]
  next hkeep =>
    refine busRead_keeps_state (fun k f ht => Bool.eq_false_iff.2 fun hc => hkeep ?_)
      fun v ht => Bool.eq_false_iff.2 fun hc => hkeep ?_
    · obtain ⟨h, hwindow⟩ := tblWindow_of_targetOf ht
      exact ⟨h, .inl ⟨hc, hwindow⟩⟩
    · obtain ⟨h, hwindow⟩ := fbWindow_of_targetOf ht
      exact ⟨h, .inr ⟨hc, hwindow⟩⟩

/-- Byte `i` of the word at an address is the byte at the address plus `i` (20 R84). -/
theorem word_extract_byte (s : State) (a : Nat) {i : Nat} (hi : i < 4) :
    (s.word a).extractLsb' (8 * i) 8 = s.byte (a + i) := by
  have h0 := (s.byte a).isLt
  have h1 := (s.byte (a + 1)).isLt
  have h2 := (s.byte (a + 2)).isLt
  have h3 := (s.byte (a + 3)).isLt
  apply BitVec.eq_of_toNat_eq
  simp only [State.word, BitVec.extractLsb'_toNat, toNat_append_eq_add, Nat.shiftRight_eq_div_pow]
  rcases Nat.eq_zero_or_pos i with rfl | hpos
  · rw [Nat.add_zero a]
    omega
  · interval_cases i <;> omega

/-- The size parameters fit as 00 R7 asks. -/
theorem paramsOk_iff (p : Config.Params) : paramsOk p = true ↔
    2 * p.tableDepth.toNat ≤ 2 ^ 20 ∧ 16 * p.tableDepth.toNat ≤ 2 ^ 20 ∧ 4 * p.maxPixels.toNat ≤ 2 ^ 24 := by
  simp only [paramsOk, Bool.and_eq_true, decide_eq_true_eq, and_assoc]

section
variable {s : State} (hp : paramsOk s.regs.cfg = true)
include hp

/-- The memories end below `2 ^ 32` (20 R80). -/
theorem toNat_memoryAddress {x : Nat} (hx : InMemories s.regs x) : (BitVec.ofNat 32 x).toNat = x := by
  obtain ⟨hsram, htbl, hfb⟩ := (paramsOk_iff _).1 hp
  unfold InMemories Regs.tableDepth Regs.maxPixels sramBase tblBase fbBase at hx
  exact Nat.mod_eq_of_lt (by omega)

/-- A word of SRAM, by its offset. -/
theorem busRead_sramWord {o : Nat} (h : o % 4 = 0) (ho : o + 4 ≤ 2 * s.regs.tableDepth) :
    busRead (BitVec.ofNat 32 (sramBase + o)) s = (.data (s.word (sramBase + o)), s) := by
  have ha := toNat_memoryAddress hp (x := sramBase + o) (.inl (by omega))
  rw [busRead_sram (by rw [ha]; simp only [sramBase]; omega) (by omega) (by omega), ha]

/-- A word of an entry outside PREINTEGRATING, by its offset in the entry. -/
theorem busRead_entry {k j : Nat} (hk : k < s.regs.tableDepth) (hn : s.ctrl.preintegratingNow = false)
    (hj : j % 4 = 0) (hj' : j < 16) :
    busRead (BitVec.ofNat 32 (tblAddr k + j)) s = (.data ((tblEntry s k).word (TblField.ofOffset j)), s) := by
  have ha := toNat_memoryAddress hp (x := tblAddr k + j) (.inr (.inl (by unfold tblAddr; omega)))
  have ht := targetOf_tbl hp (a := BitVec.ofNat 32 (tblAddr k + j)) (by rw [ha]; simp only [tblAddr, tblBase]; omega)
    (by rw [ha]; unfold tblAddr; omega) (by rw [ha]; unfold tblAddr; omega)
  have hentry : (tblAddr k + j - tblBase) / 16 = k ∧ (tblAddr k + j - tblBase) % 16 = j := by unfold tblAddr; omega
  rw [ha, hentry.1, hentry.2] at ht
  rw [busRead_tbl ht, hn]
  rfl

/-- The words of an entry are its fields in the order of 30 R125. -/
theorem busRead_entry_fields {k : Nat} (hk : k < s.regs.tableDepth) (hn : s.ctrl.preintegratingNow = false) :
    busRead (BitVec.ofNat 32 (tblAddr k)) s = (.data ((tblEntry s k).raw.setWidth 32), s) ∧
      busRead (BitVec.ofNat 32 (tblAddr k + 4)) s = (.data (tblEntry s k).inc, s) ∧
      busRead (BitVec.ofNat 32 (tblAddr k + 8)) s = (.data (tblEntry s k).cum, s) ∧
      busRead (BitVec.ofNat 32 (tblAddr k + 12)) s = (.data (tblEntry s k).start, s) :=
  ⟨busRead_entry hp hk hn (j := 0) rfl (by decide), busRead_entry hp hk hn (j := 4) rfl (by decide),
    busRead_entry hp hk hn (j := 8) rfl (by decide), busRead_entry hp hk hn (j := 12) rfl (by decide)⟩

/-- A word of the frame buffer outside a RENDER, by its visible index. -/
theorem busRead_pixel {v : Nat} (hv : v < s.regs.maxPixels) (hn : s.ctrl.rendering = false) :
    busRead (BitVec.ofNat 32 (fbBase + 4 * v)) s = (.data (s.word (fbBase + 4 * v)), s) := by
  have ha := toNat_memoryAddress hp (x := fbBase + 4 * v) (.inr (.inr (by omega)))
  have ht := targetOf_fb hp (a := BitVec.ofNat 32 (fbBase + 4 * v)) (by rw [ha]; simp only [fbBase]; omega)
    (by omega) (by omega)
  have hpixel : (fbBase + 4 * v - fbBase) / 4 = v := by omega
  rw [ha, hpixel] at ht
  rw [busRead_fb ht, hn]
  rfl

end

/-- Settles O31: a read of each window by its offset, and the RAW of an entry widened by zeros. -/
theorem memoryWindowsReadTheirBytes : Obligations.MemoryWindowsReadTheirBytes := by
  refine ⟨⟨rfl, rfl, rfl⟩, paramsOk_iff, fun s hp => ⟨fun a i hi => word_extract_byte s a hi,
    fun o h ho => busRead_sramWord hp h ho, fun k hk hn => ?_, fun k hk hn => ?_, fun v hv hn => busRead_pixel hp hv hn⟩⟩
  · obtain ⟨hraw, hinc, hcum, hstart⟩ := busRead_entry_fields hp hk hn
    rw [BitVec.append_assoc, BitVec.cast_eq, zero_append_eq_setWidth]
    refine ⟨hraw, ?_⟩
    rintro j (rfl | rfl | rfl)
    · exact hinc
    · exact hcum
    · exact hstart
  · rw [zero_append_eq_setWidth]
    exact busRead_entry_fields hp hk hn

end Sys2Proof.Machine
end

section
/-! Command words (30 R121, R122, R129): the decoder by the two fields of a word, and that it inverts the encoder. -/

namespace Sys2Proof

/-! ## The fields of a command word (30 R121) -/

theorem toNat_reservedField (w : Word) : (w.extractLsb' 8 24).toNat = w.toNat / 2 ^ 8 := by
  rw [BitVec.extractLsb'_toNat, Nat.shiftRight_eq_div_pow]
  omega

theorem toNat_opcodeField (w : Word) : (w.extractLsb' 0 8).toNat = w.toNat % 2 ^ 8 := by
  rw [BitVec.extractLsb'_toNat, Nat.shiftRight_zero]

/-- RSVD is 0 exactly if bits 31 to 8 are. -/
theorem reservedField_eq_zero_iff (w : Word) : w.extractLsb' 8 24 = 0#24 ↔ w.toNat / 2 ^ 8 = 0 := by
  rw [← BitVec.toNat_inj, toNat_reservedField, BitVec.toNat_zero]

/-! ## The decoder, check by check (30 R122) -/

/-- No command has an opcode from 4 up, and every opcode below 4 selects one. -/
theorem decodeOpcode_eq_none_iff (op : BitVec 8) : decodeOpcode op = none ↔ 4 ≤ op.toNat := by
  unfold decodeOpcode
  split
  case h_5 h0 h1 h2 h3 =>
    have hge : 4 ≤ op.toNat := by
      rw [imp_false] at h0 h1 h2 h3
      omega
    exact iff_of_true rfl hge
  all_goals
    have hlt : ¬4 ≤ op.toNat := by omega
    exact iff_of_false nofun hlt

theorem decode_of_reservedField_ne_zero {w : Word} (h : w.extractLsb' 8 24 ≠ 0#24) :
    decode w = .error .reservedBits := if_pos h

/-- Once RSVD is 0, OPCODE alone decides. -/
theorem decode_of_reservedField_eq_zero {w : Word} (h : w.extractLsb' 8 24 = 0#24) :
    decode w = (decodeOpcode (w.extractLsb' 0 8)).elim (.error .reservedOpcode) .ok := by
  rw [decode, if_neg (not_not.2 h)]
  cases decodeOpcode (w.extractLsb' 0 8) <;> rfl

theorem decode_eq_reservedBits_iff (w : Word) : decode w = .error .reservedBits ↔ w.toNat / 2 ^ 8 ≠ 0 := by
  rw [ne_eq, ← reservedField_eq_zero_iff]
  by_cases h : w.extractLsb' 8 24 = 0#24
  · rw [decode_of_reservedField_eq_zero h]
    cases decodeOpcode (w.extractLsb' 0 8) <;> simp [h]
  · exact iff_of_true (decode_of_reservedField_ne_zero h) h

theorem decode_eq_reservedOpcode_iff (w : Word) :
    decode w = .error .reservedOpcode ↔ w.toNat / 2 ^ 8 = 0 ∧ 4 ≤ w.toNat % 2 ^ 8 := by
  rw [← reservedField_eq_zero_iff, ← toNat_opcodeField, ← decodeOpcode_eq_none_iff]
  by_cases h : w.extractLsb' 8 24 = 0#24
  · rw [decode_of_reservedField_eq_zero h]
    cases decodeOpcode (w.extractLsb' 0 8) <;> simp [h]
  · simp [decode_of_reservedField_ne_zero h, h]

/-! ## The decoder and the encoder -/

/-- Every command is read back from its word (30 R121). -/
theorem decode_encode (i : Instr) : decode (encode i) = .ok i := by
  have hback : Laws.ReadBack.Statement i := by
    cases i with
    | nop => exact Laws.ReadBack.nop
    | preint => exact Laws.ReadBack.preint
    | render => exact Laws.ReadBack.render
    | advance => exact Laws.ReadBack.advance
  obtain ⟨-, -, hdecode, -⟩ := hback
  exact hdecode

theorem decode_eq_ok_iff (w : Word) (i : Instr) : decode w = .ok i ↔ w = encode i :=
  ⟨Machine.eq_encode_of_decode, fun h => h ▸ decode_encode i⟩

/-- Settles O1: the decoder and the encoder are inverse, and each error is the first check of R122 that fails. -/
theorem decodeAcceptsExactlyTheEncodings : Obligations.DecodeAcceptsExactlyTheEncodings := fun w =>
  ⟨decode_eq_ok_iff w, decode_eq_reservedBits_iff w, decode_eq_reservedOpcode_iff w⟩

/-- Settles O2: the legal words are the encodings, and the others fail the check that their bits name. -/
theorem knownCommandWordsDecode : Obligations.KnownCommandWordsDecode :=
  ⟨decode_encode .nop, decode_encode .preint, decode_encode .render, decode_encode .advance,
    (decode_eq_reservedOpcode_iff _).2 (by decide), (decode_eq_reservedOpcode_iff _).2 (by decide),
    (decode_eq_reservedBits_iff _).2 (by decide), (decode_eq_reservedBits_iff _).2 (by decide)⟩

end Sys2Proof
end

section
/-! PROOFS. The ring of PhaseValues, the conversions to and from turns, the phase accumulators, and their phases over frames
(40 R160 to R169; 41 R195, R196). -/

namespace Sys2Proof.Machine

/-! ## PADD and PSCALE (40 R161, R162, R165) -/

/-- An integer that is wrapped to 32 bits is its residue mod 2^32. -/
theorem toNat_ofInt_phase (n : Int) : ((BitVec.ofInt 32 n).toNat : Int) = n % 2 ^ 32 := by
  rw [BitVec.toNat_ofInt, Int.toNat_of_nonneg (Int.emod_nonneg n (by decide))]
  rfl

theorem pscale_toNat (p : Phase) (n : Int) : ((pscale p n).toNat : Int) = (p.toNat : Int) * n % 2 ^ 32 :=
  toNat_ofInt_phase _

/-- Whole multiples of 2^32 do not matter to an integer that is wrapped. -/
theorem ofInt_add_mul_two_pow (n m : Int) : BitVec.ofInt 32 (n + m * 2 ^ 32) = BitVec.ofInt 32 n := by
  have hturn : BitVec.ofInt 32 (2 ^ 32) = 0#32 := by decide
  rw [BitVec.ofInt_add, BitVec.ofInt_mul, hturn, BitVec.mul_zero, BitVec.add_zero]

theorem pscale_emod (p : Phase) (n : Int) : pscale p (n % 2 ^ 32) = pscale p n := by
  have hsplit : n = n % 2 ^ 32 + n / 2 ^ 32 * 2 ^ 32 := (Int.emod_add_ediv_mul n _).symm
  rw [pscale_eq_mul, pscale_eq_mul, ← ofInt_add_mul_two_pow _ (n / 2 ^ 32), ← hsplit]

theorem pscale_add (p : Phase) (m n : Int) : pscale p (m + n) = padd (pscale p m) (pscale p n) := by
  simp only [pscale_eq_mul, padd, BitVec.ofInt_add, BitVec.mul_add]

theorem pscale_pscale (p : Phase) (m n : Int) : pscale (pscale p m) n = pscale p (m * n) := by
  simp only [pscale_eq_mul, BitVec.ofInt_mul, BitVec.mul_assoc]

@[simp] theorem pscale_zero (p : Phase) : pscale p 0 = 0 := by
  rw [pscale_eq_mul]
  exact BitVec.mul_zero

/-- A PhaseValue times a natural number wraps to 0 iff 2^32 divides the exact product. -/
theorem pscale_natCast_eq_zero_iff (p : Phase) (n : Nat) : pscale p n = 0 ↔ 2 ^ 32 ∣ p.toNat * n := by
  have hmod : (pscale p n).toNat = p.toNat * n % 2 ^ 32 := by exact_mod_cast pscale_toNat p n
  rw [← BitVec.toNat_inj, hmod]
  exact (Nat.dvd_iff_mod_eq_zero).symm

theorem padd_assoc (a b c : Phase) : padd (padd a b) c = padd a (padd b c) := BitVec.add_assoc a b c

theorem padd_eq_left_iff (a b : Phase) : padd a b = a ↔ b = 0 := BitVec.add_right_eq_self

/-- Settles O45: PADD and PSCALE are the addition and the multiplication of the ring. -/
theorem phaseRingLaws : Obligations.PhaseRingLaws :=
  ⟨BitVec.toNat_add, pscale_toNat, fun p n => (pscale_emod p n).symm, padd_assoc, BitVec.add_comm, BitVec.add_zero,
    pscale_add, pscale_pscale⟩

/-! ## FROM_FRACTION and TO_FRACTION (40 R163, R164, R168) -/

theorem fromFraction_toNat (f : ExactReal) : ((fromFraction f).toNat : Int) = ⌊f.val * 2 ^ 32 + 1 / 2⌋ % 2 ^ 32 := by
  rw [fromFraction_eq, toNat_ofInt_phase]

/-- Whole turns do not matter: they come out of the floor as multiples of 2^32. -/
theorem fromFraction_add_turns {f g : ExactReal} {m : Int} (h : g.val = f.val + m) : fromFraction g = fromFraction f := by
  have hturns : g.val * 2 ^ 32 + 1 / 2 = (f.val * 2 ^ 32 + 1 / 2) + ((m * 2 ^ 32 : Int) : ℝ) := by
    rw [h]
    push_cast
    ring
  rw [fromFraction_eq, fromFraction_eq, hturns, Int.floor_add_intCast, ofInt_add_mul_two_pow]

theorem toFraction_mem (p : Phase) : 0 ≤ toFraction p ∧ toFraction p < 1 := by
  have hp : (p.toNat : ℚ) < 2 ^ 32 := by exact_mod_cast p.isLt
  exact ⟨by unfold toFraction; positivity, (div_lt_one (by norm_num)).2 hp⟩

theorem toFraction_mul_two_pow (p : Phase) : toFraction p * 2 ^ 32 = p.toNat := div_mul_cancel₀ _ (by norm_num)

/-- The nearest integer to an integer is that integer, so nothing is lost on the way back. -/
theorem fromFraction_toFraction {f : ExactReal} {p : Phase} (h : f.val = toFraction p) : fromFraction f = p := by
  have hscaled : f.val * 2 ^ 32 = ((p.toNat : Int) : ℝ) := by
    rw [h]
    exact_mod_cast toFraction_mul_two_pow p
  have hfloor : ⌊((p.toNat : Int) : ℝ) + 1 / 2⌋ = p.toNat := by
    rw [Int.floor_intCast_add]
    norm_num
  rw [fromFraction_eq, hscaled, hfloor, BitVec.ofInt_natCast, BitVec.ofNat_toNat, BitVec.setWidth_eq]

theorem hostPpp_eq_fromFraction {f g : ExactReal} {dc : Nat} (h : g.val = f.val / dc) : hostPpp f dc = fromFraction g := by
  rw [hostPpp_eq, fromFraction_eq, h]

/-- The rounding of `n/DC` turns, brought over one denominator, is a division of integers. -/
theorem floor_round_div (n : Int) {dc : Nat} (hdc : 1 ≤ dc) :
    ⌊(n : ℝ) / dc * 2 ^ 32 + 1 / 2⌋ = (2 * n * 2 ^ 32 + dc) / (2 * dc) := by
  have hne : (dc : ℝ) ≠ 0 := Nat.cast_ne_zero.2 (by omega)
  have hone : (n : ℝ) / dc * 2 ^ 32 + 1 / 2 = ((2 * n * 2 ^ 32 + dc : Int) : ℝ) / ((2 * dc : Nat) : ℝ) := by
    push_cast
    field_simp
    ring
  rw [hone, Int.floor_div_natCast, Int.floor_intCast]
  push_cast
  rfl

theorem hostPpp_eq_hostPppInt {f : ExactReal} {n : Int} {dc : Nat} (hdc : 1 ≤ dc) (h : f.val = n) :
    hostPpp f dc = hostPppInt n dc := by
  rw [hostPpp_eq, h, floor_round_div n hdc, hostPppInt]

/-- Settles O47, from the floor of a real that R163 rounds with. -/
theorem fractionConversions : Obligations.FractionConversions := by
  refine ⟨fromFraction_toNat, fun f g m => fromFraction_add_turns, fun p => ?_,
    fun f dc hdc => ⟨fun g => hostPpp_eq_fromFraction, fun n => hostPpp_eq_hostPppInt hdc⟩⟩
  obtain ⟨hnonneg, hlt⟩ := toFraction_mem p
  exact ⟨hnonneg, hlt, toFraction_mul_two_pow p, fun f => fromFraction_toFraction⟩

/-! ## The phase at a total index (40 R166, R167) -/

theorem oscPhase_eq (o : Osc) (t : Nat) : oscPhase o t = o.start + o.ppp * BitVec.ofNat 32 t := by
  rw [oscPhase, pscale_eq_mul, BitVec.ofInt_natCast, padd]

@[simp] theorem oscPhase_zero (o : Osc) : oscPhase o 0 = o.start :=
  (congrArg (padd o.start) (pscale_zero o.ppp)).trans (BitVec.add_zero _)

/-- The phase depends on PPP and START alone. -/
theorem oscPhase_congr {o p : Osc} (hppp : o.ppp = p.ppp) (hstart : o.start = p.start) (t : Nat) : oscPhase o t = oscPhase p t := by
  rw [oscPhase, oscPhase, hppp, hstart]

/-- From one total index to another the phase moves by PPP for each pixel between, forward or back. -/
theorem oscPhase_shift (o : Osc) {i j : Nat} {n : Int} (h : (j : Int) = i + n) :
    oscPhase o j = padd (oscPhase o i) (pscale o.ppp n) := by
  rw [oscPhase, oscPhase, h, pscale_add, padd_assoc]

/-- After a whole number of DotClocks (40 R167). -/
theorem oscPhase_dotClocks (o : Osc) {dc i j : Nat} {k : Int} (h : (j : Int) = i + k * dc) :
    oscPhase o j = padd (oscPhase o i) (pscale (pscale o.ppp dc) k) := by
  rw [pscale_pscale, mul_comm]
  exact oscPhase_shift o h

/-- The phase is periodic in the DotClock iff a DotClock's pixels make whole turns (40 R167). -/
theorem oscPhase_periodic_iff (o : Osc) (dc : Nat) :
    (∀ (i j : Nat) (k : Int), (j : Int) = i + k * dc → oscPhase o j = oscPhase o i) ↔ pscale o.ppp dc = 0 := by
  constructor
  · intro hper
    have hone : (dc : Int) = (0 : Nat) + 1 * dc := by omega
    have hshift := oscPhase_dotClocks o hone
    rw [hper 0 dc 1 hone, eq_comm, padd_eq_left_iff, pscale_pscale, mul_one] at hshift
    exact hshift
  · intro hzero i j k h
    rw [oscPhase_dotClocks o h, hzero, padd_eq_left_iff, pscale_eq_mul]
    exact BitVec.zero_mul

/-- The periods are the multiples of `2^32 / gcd(PPP, 2^32)` (40 R167). -/
theorem oscPhase_period_iff (o : Osc) (n : Nat) :
    (∀ i, oscPhase o (i + n) = oscPhase o i) ↔ 2 ^ 32 / Nat.gcd o.ppp.toNat (2 ^ 32) ∣ n := by
  have hstep : ∀ i, oscPhase o (i + n) = oscPhase o i ↔ pscale o.ppp n = 0 := fun i => by
    rw [oscPhase_shift o (Int.natCast_add i n), padd_eq_left_iff]
  have hgcd : 0 < Nat.gcd o.ppp.toNat (2 ^ 32) := Nat.gcd_pos_of_pos_right _ (by norm_num)
  calc (∀ i, oscPhase o (i + n) = oscPhase o i)
      ↔ pscale o.ppp n = 0 := by simp only [hstep, forall_const]
    _ ↔ 2 ^ 32 ∣ o.ppp.toNat * n := pscale_natCast_eq_zero_iff o.ppp n
    _ ↔ 2 ^ 32 ∣ Nat.gcd o.ppp.toNat (2 ^ 32) * n := by rw [Nat.gcd_comm, Nat.dvd_gcd_mul_iff_dvd_mul]
    _ ↔ 2 ^ 32 / Nat.gcd o.ppp.toNat (2 ^ 32) ∣ n := (Nat.div_dvd_iff_dvd_mul (Nat.gcd_dvd_right _ _) hgcd).symm

/-- The source's scenario, 1000 Hz at 100000 pixels a second (40 R163, R167). -/
theorem fromFraction_scenario : fromFraction (.ofRat (1000 / 100000)) = 0x028F5C29 := by
  have hfloor : ⌊(ExactReal.ofRat (1000 / 100000)).val * 2 ^ 32 + 1 / 2⌋ = 42949673 := by
    rw [ExactReal.val_ofRat]
    norm_num
  rw [fromFraction_eq, hfloor]
  rfl

/-- Settles O46, from the phase's shift between two total indices. -/
theorem phasePeriodicity : Obligations.PhasePeriodicity := by
  refine ⟨fun o t => ⟨oscPhase_eq o t, rfl⟩, fun o => ⟨oscPhase_zero o, fun hstart hppp => ?_⟩,
    fun o dc i j k => oscPhase_dotClocks o, oscPhase_periodic_iff, oscPhase_period_iff, ?_⟩
  · rw [oscPhase, hstart, hppp]
    decide
  · rw [fromFraction_scenario]
    decide

/-! ## The phases of the next frames (40 R169; 41 R195, R196) -/

/-- OSC_NEXT_FRAME starts the next frame where this one ends (41 R196). -/
theorem oscPhase_oscNextFrame (o : Osc) (c t : Nat) : oscPhase (oscNextFrame o c) t = oscPhase o (c + t) :=
  (oscPhase_shift o (Int.natCast_add c t)).symm

/-- Frames one after the other are one longer frame. -/
theorem oscNextFrame_oscNextFrame (o : Osc) (c d : Nat) : oscNextFrame (oscNextFrame o c) d = oscNextFrame o (c + d) := by
  have hstart : oscNextStart (oscNextFrame o c) d = oscNextStart o (c + d) := oscPhase_oscNextFrame o c d
  simp only [oscNextFrame] at hstart ⊢
  rw [hstart]

/-- The registers with both oscillators `m` frames on. -/
def Regs.framesOn (g : Regs) (m : Nat) : Regs :=
  { g with osc0 := oscNextFrame g.osc0 (m * g.framePixels), osc1 := oscNextFrame g.osc1 (m * g.framePixels) }

theorem framesOn_succ (g : Regs) (m : Nat) : (g.framesOn m).framesOn 1 = g.framesOn (m + 1) := by
  simp only [Regs.framesOn, Regs.framePixels, oscNextFrame_oscNextFrame, Nat.add_mul, Nat.one_mul]

theorem samePhases_refl (g : Regs) : SamePhases g g := ⟨rfl, rfl, rfl, rfl, rfl, rfl⟩

theorem samePhases_trans {g h k : Regs} (hgh : SamePhases g h) (hhk : SamePhases h k) : SamePhases g k :=
  ⟨hgh.ppp0.trans hhk.ppp0, hgh.start0.trans hhk.start0, hgh.ppp1.trans hhk.ppp1, hgh.start1.trans hhk.start1,
    hgh.hTotal.trans hhk.hTotal, hgh.vTotal.trans hhk.vTotal⟩

theorem samePhases_framesOn {g h : Regs} (hgh : SamePhases g h) (m : Nat) : SamePhases (g.framesOn m) (h.framesOn m) := by
  obtain ⟨hppp0, hstart0, hppp1, hstart1, hht, hvt⟩ := hgh
  constructor <;> simp only [Regs.framesOn, oscNextFrame, oscNextStart, Regs.framePixels, *]

/-- An ADVANCE that ends in IDLE has committed: both oscillators are one frame on (45 R333). -/
theorem samePhases_advance {s t : State} (hs : s.ctrl = .idle) (h : exec .advance s = .next t) (ht : t.ctrl = .idle) :
    SamePhases (s.regs.framesOn 1) t.regs := by
  rw [exec_accepted hs] at h
  obtain rfl : advanceRun s = t := by cases h; rfl
  cases hf : firstFailing (advanceChecks s.regs) with
  | some off =>
    rw [advanceRun_config hf] at ht
    cases ht
  | none =>
    rcases advanceRun_spec hf with ⟨i, k, -, he⟩ | ⟨seed, -, he⟩ <;> rw [he] at ht ⊢
    · cases ht
    · constructor <;> simp [Regs.framesOn, oscNextFrame]

/-- After `m` ADVANCE commands with the phases left alone between them, both oscillators are `m` frames on (40 R169). -/
theorem samePhases_advances {m : Nat} {pre post : Nat → State}
    (h : ∀ i < m, (pre i).ctrl = .idle ∧ exec .advance (pre i) = .next (post i) ∧ (post i).ctrl = .idle ∧
      SamePhases (post i).regs (pre (i + 1)).regs) :
    SamePhases ((pre 0).regs.framesOn m) (pre m).regs := by
  induction m with
  | zero => constructor <;> simp [Regs.framesOn, oscNextFrame, oscNextStart, padd]
  | succ m ih =>
    obtain ⟨hidle, hexec, hend, hbetween⟩ := h m (Nat.lt_succ_self m)
    have hframe := samePhases_framesOn (ih fun i hi => h i (Nat.lt_succ_of_lt hi)) 1
    rw [framesOn_succ] at hframe
    exact samePhases_trans hframe (samePhases_trans (samePhases_advance hidle hexec hend) hbetween)

/-! ## The commands between two ADVANCEs (41 R195) -/

theorem samePhases_raiseError (e : ErrorCode) (i x : Word) (s : State) : SamePhases s.regs (raiseError e i x s).regs :=
  ⟨rfl, rfl, rfl, rfl, rfl, rfl⟩

theorem samePhases_preintRun (s : State) : SamePhases s.regs (preintRun s).regs := by
  cases hf : firstFailing (preintChecks s.regs) with
  | some off =>
    rw [preintRun_config hf]
    exact samePhases_raiseError ..
  | none =>
    obtain ⟨he, -, -⟩ := preintRun_spec hf
    rw [he]
    exact samePhases_refl _

/-- A RENDER that is not accepted raises CONFIG or SEQ (60 R382, R383). -/
theorem renderBegin_rejected {s : State} (h : ¬RenderAccepted s) : ∃ e i, renderBegin s = raiseError e i 0 s := by
  cases hf : firstFailing (renderAllChecks s.regs) with
  | some off => exact ⟨.config, off, renderBegin_config hf⟩
  | none =>
    obtain ⟨hfm, hinvalid⟩ := Classical.not_imp.1 fun hseq => h ⟨hf, hseq⟩
    exact ⟨.seq, _, renderBegin_seq hf hfm (Bool.eq_false_iff.2 hinvalid)⟩

theorem samePhases_renderRun (s : State) : SamePhases s.regs (renderRun s).regs := by
  by_cases ha : RenderAccepted s
  · rcases renderRun_spec ha with ⟨-, t, k, -, -, -, he⟩ | ⟨gs, -, he⟩ <;> rw [he]
    · exact samePhases_raiseError ..
    · exact samePhases_refl _
  · obtain ⟨e, i, he⟩ := renderBegin_rejected ha
    rw [renderRun, he, render_phases_halted rfl]
    exact samePhases_raiseError ..

/-- Every command but ADVANCE leaves the phases alone, dropped or run. -/
theorem samePhases_exec {i : Instr} {s t : State} (hi : i = .nop ∨ i = .preint ∨ i = .render) (h : exec i s = .next t) :
    SamePhases s.regs t.regs := by
  by_cases hc : s.ctrl = .idle
  · rw [exec_accepted hc] at h
    cases h
    rcases hi with rfl | rfl | rfl
    · exact samePhases_refl _
    · exact samePhases_preintRun s
    · exact samePhases_renderRun s
  · rw [exec_dropped hc] at h
    cases h
    exact samePhases_refl _

/-- Settles O48: each ADVANCE puts both oscillators one frame on, and the phases of frames on are the first frame's. -/
theorem oscillatorsAreContinuous : Obligations.OscillatorsAreContinuous := by
  refine ⟨fun o c t => ⟨rfl, oscPhase_oscNextFrame o c t⟩, fun m pre post h x => ?_, fun i s t => samePhases_exec⟩
  obtain ⟨hppp0, hstart0, hppp1, hstart1, -, -⟩ := samePhases_advances h
  refine ⟨hstart0.symm, hstart1.symm, ?_, ?_⟩
  · exact (oscPhase_congr hppp0.symm hstart0.symm x).trans (oscPhase_oscNextFrame _ _ x)
  · exact (oscPhase_congr hppp1.symm hstart1.symm x).trans (oscPhase_oscNextFrame _ _ x)

end Sys2Proof.Machine
end

section
/-! PROOFS. The waveform generators (41 R190, R191): the square, and the sine held to S1, S2 and S3. -/

namespace Sys2Proof.Machine

/-! ## SQUARE (41 R190) -/

theorem square_of_lt {p : Phase} (h : p.toNat < 0x80000000) : square p = 1 := if_pos h

theorem square_of_le {p : Phase} (h : 0x80000000 ≤ p.toNat) : square p = -1 := if_neg (Nat.not_lt.2 h)

/-- Settles O49: the corner cases are instances of the two halves. -/
theorem squareHalves : Obligations.SquareHalves :=
  ⟨fun _ => square_of_lt, fun _ => square_of_le, square_of_lt (by decide), square_of_le (by decide),
    square_of_le (by decide), square_of_lt (by decide)⟩

/-! ## The bounds of SINE, for any tolerance and error (41 R191) -/

/-- S2: at the quadrant points the error plays no part. -/
theorem sineOf_of_mem_quadrants (tol : ℝ) (err : Phase → ℝ) {p : Phase} (hp : p ∈ quadrants) :
    (sineOf tol err p).val = trueSine p := by
  rcases sineOf_val tol err p with ⟨-, hv⟩ | ⟨hn, -⟩
  · exact hv
  · exact absurd hp hn

/-- S1. -/
theorem sineOf_mem (tol : ℝ) (err : Phase → ℝ) (p : Phase) :
    -1 ≤ (sineOf tol err p).val ∧ (sineOf tol err p).val ≤ 1 := by
  rcases sineOf_val tol err p with ⟨-, hv⟩ | ⟨-, hv⟩ <;> rw [hv]
  · exact trueSine_mem p
  · exact clampTo_mem (by norm_num) _

/-- S3: the held error is within the tolerance, and holding the sum in [-1, 1], where the true sine is, brings it no farther
from the true sine. -/
theorem sineOf_close {tol : ℝ} (htol : 0 ≤ tol) (err : Phase → ℝ) (p : Phase) :
    |(sineOf tol err p).val - trueSine p| ≤ tol := by
  rcases sineOf_val tol err p with ⟨-, hv⟩ | ⟨-, hv⟩ <;> rw [hv]
  · rwa [sub_self, abs_zero]
  · obtain ⟨hlo, hhi⟩ := trueSine_mem p
    calc |clampTo (-1) 1 (trueSine p + clampTo (-tol) tol (err p)) - trueSine p|
      _ ≤ |trueSine p + clampTo (-tol) tol (err p) - trueSine p| := clampTo_close hlo hhi _
      _ = |clampTo (-tol) tol (err p)| := by rw [add_sub_cancel_left]
      _ ≤ tol := abs_le.2 (clampTo_mem (neg_le_self htol) _)

/-- A sine within the bounds is the model's for its own distance from the true sine: neither hold changes anything. -/
theorem sineOf_distance {tol : ℝ} {f : Phase → ℝ} (hf : ∀ p, -1 ≤ f p ∧ f p ≤ 1) (hq : ∀ p ∈ quadrants, f p = trueSine p)
    (hclose : ∀ p, |f p - trueSine p| ≤ tol) (p : Phase) :
    (sineOf tol (fun p => f p - trueSine p) p).val = f p := by
  rcases sineOf_val tol (fun p => f p - trueSine p) p with ⟨hp, hv⟩ | ⟨-, hv⟩ <;> rw [hv]
  · exact (hq p hp).symm
  · obtain ⟨hlo, hhi⟩ := abs_le.1 (hclose p)
    rw [clampTo_of_mem hlo hhi, add_sub_cancel, clampTo_of_mem (hf p).1 (hf p).2]

/-! ## SINE (41 R191; 00 R8) -/

theorem sinTol_pos : 0 < sinTol := by
  rw [sinTol_eq]
  split
  · assumption
  · norm_num

/-- Settles O51, from S3 of every sine the model admits. -/
theorem sineAccuracy : Obligations.SineAccuracy :=
  ⟨sinTol_pos, fun p => by
    rw [← trueSine_eq]
    exact sineOf_close sinTol_pos.le Config.sineError p⟩

/-- Settles O52: the error that gives a sine is its distance from the true one. -/
theorem everyAdmissibleSineIsModelled : Obligations.EveryAdmissibleSineIsModelled := by
  refine ⟨fun _ => rfl, sinTol_eq, fun tol f hf h0 hquarter hhalf hthreeQuarters hclose => ?_⟩
  have hq : ∀ p ∈ quadrants, f p = trueSine p := by
    simp only [quadrants, List.forall_mem_cons, trueSine_0, trueSine_quarter, trueSine_half, trueSine_threeQuarters]
    exact ⟨h0, hquarter, hhalf, hthreeQuarters, List.forall_mem_nil _⟩
  exact ⟨fun p => f p - trueSine p, sineOf_distance hf hq fun p => trueSine_eq p ▸ hclose p⟩

/-- Settles O50, from S1 and S2 of every sine the model admits and the true sine at the quadrant points. -/
theorem sineRangeAndQuadrants : Obligations.SineRangeAndQuadrants := by
  have hsine : ∀ p ∈ quadrants, (sine p).val = trueSine p := fun p => sineOf_of_mem_quadrants sinTol Config.sineError
  exact ⟨sineOf_mem sinTol Config.sineError, (hsine _ (by decide)).trans trueSine_0,
    (hsine _ (by decide)).trans trueSine_quarter, (hsine _ (by decide)).trans trueSine_half,
    (hsine _ (by decide)).trans trueSine_threeQuarters⟩

end Sys2Proof.Machine
end

section
/-! PROOFS. The range law (42 R225): the waveforms, the PCM amplitudes and NORMALIZE, and from these every signal source. -/

namespace Sys2Proof.Machine

/-- The amplitudes that a signal may have (42 R225). -/
def ExactReal.IsAmplitude (a : ExactReal) : Prop := -1 ≤ a.val ∧ a.val ≤ 1

/-! ## The waveforms (41 R192) -/

theorem square_isAmplitude (p : Phase) : (ExactReal.ofRat (square p)).IsAmplitude := by
  rw [ExactReal.IsAmplitude, ExactReal.val_ofRat]
  rcases lt_or_ge p.toNat 0x80000000 with h | h
  · rw [square_of_lt h]; norm_num
  · rw [square_of_le h]; norm_num

theorem wave_isAmplitude (sel : Wave) (p : Phase) : (wave sel p).IsAmplitude := by
  cases sel with
  | sine => exact sineOf_mem sinTol Config.sineError p
  | square => exact square_isAmplitude p

/-! ## PCM amplitudes (43 R250 to R253) -/

theorem ampU8_mem {b : Nat} (h : b < 256) : -1 ≤ ampU8 b ∧ ampU8 b < 1 := by
  have hb : (b : ℚ) < 256 := by exact_mod_cast h
  have hpos : (0 : ℚ) ≤ b := b.cast_nonneg
  constructor <;> unfold ampU8 <;> linarith

theorem ampS16_mem {x : Int} (hlo : -32768 ≤ x) (hhi : x < 32768) : -1 ≤ ampS16 x ∧ ampS16 x < 1 := by
  have hlo' : (-32768 : ℚ) ≤ x := by exact_mod_cast hlo
  have hhi' : (x : ℚ) < 32768 := by exact_mod_cast hhi
  constructor <;> unfold ampS16 <;> linarith

/-- In U8 a code is one byte (43 R252). -/
theorem rawSample_u8_lt {s : State} (h : formatOf s.regs.pcmFormat = .u8) (k : Nat) : (rawSample s k).toNat < 256 := by
  simp only [rawSample, h, BitVec.toNat_setWidth]
  exact (Nat.mod_le _ _).trans_lt (s.sramByte k).isLt

theorem ampSample_mem (s : State) (k : Nat) : -1 ≤ ampSample s k ∧ ampSample s k < 1 := by
  cases hf : formatOf s.regs.pcmFormat with
  | u8 =>
    rw [ampSample, hf]
    exact ampU8_mem (rawSample_u8_lt hf k)
  | s16le =>
    rw [ampSample, hf]
    exact ampS16_mem (rawSample s k).le_toInt (rawSample s k).toInt_lt

theorem ampSample_isAmplitude (s : State) (k : Nat) : (ExactReal.ofRat (ampSample s k)).IsAmplitude := by
  obtain ⟨hlo, hhi⟩ := ampSample_mem s k
  rw [ExactReal.IsAmplitude, ExactReal.val_ofRat]
  exact ⟨by exact_mod_cast hlo, by exact_mod_cast hhi.le⟩

/-! ## NORMALIZE and the AM product (42 R220, R221) -/

theorem normalize_mem {x : ExactReal} (h : x.IsAmplitude) : 0 ≤ (normalize x).val ∧ (normalize x).val ≤ 1 := by
  obtain ⟨hlo, hhi⟩ := h
  rw [normalize_val]
  constructor <;> linarith

/-- An envelope in [0, 1] keeps the carrier in range. -/
theorem mul_isAmplitude {n c : ExactReal} (hn : 0 ≤ n.val ∧ n.val ≤ 1) (hc : c.IsAmplitude) : (n.mul c).IsAmplitude := by
  obtain ⟨hpos, hone⟩ := hn
  rw [ExactReal.IsAmplitude, ExactReal.val_mul]
  refine abs_le.1 ?_
  calc |n.val * c.val|
    _ = n.val * |c.val| := by rw [abs_mul, abs_of_nonneg hpos]
    _ ≤ 1 := mul_le_one₀ hone (abs_nonneg _) (abs_le.2 hc)

/-! ## The signals (42 R223) -/

/-- A failure passes through `map`, so a result comes from a result. -/
theorem Lookup.exists_of_map_eq_ok {α β : Type} {f : α → β} {l : Lookup α} {b : β} (h : l.map f = .ok b) :
    ∃ a, l = .ok a ∧ f a = b := by
  cases l with
  | ok a => exact ⟨a, rfl, Lookup.ok.inj h⟩
  | fail t k => cases h

theorem pcmAmp_isAmplitude {s : State} {t : Nat} {a : ExactReal} (h : pcmAmp s t = .ok a) : a.IsAmplitude := by
  rcases lt_or_ge (sampleIndex s.regs t) s.regs.ns with hk | hk
  · cases (lookups_in_window hk).1.symm.trans h
    exact ampSample_isAmplitude s _
  · cases (lookups_past_window hk).1.symm.trans h

theorem amInformation_isAmplitude {s : State} {t : Nat} {a : ExactReal} (h : amInformation s t = .ok a) :
    a.IsAmplitude := by
  rcases BitVec.eq_zero_or_eq_one s.regs.amInfo with ha | ha
  · cases (amInformation_osc1 ha t).symm.trans h
    exact wave_isAmplitude _ _
  · exact pcmAmp_isAmplitude ((amInformation_pcm ha t).symm.trans h)

theorem signal_isAmplitude {src : Source} {s : State} {t : Nat} {a : ExactReal} (h : signal src s t = .ok a) :
    a.IsAmplitude := by
  cases src with
  | carrier => cases h; exact wave_isAmplitude _ _
  | info => cases h; exact wave_isAmplitude _ _
  | pcm => exact pcmAmp_isAmplitude h
  | am =>
    obtain ⟨info, hinfo, rfl⟩ := Lookup.exists_of_map_eq_ok h
    exact mul_isAmplitude (normalize_mem (amInformation_isAmplitude hinfo)) (wave_isAmplitude _ _)
  | fm =>
    obtain ⟨ph, -, rfl⟩ := Lookup.exists_of_map_eq_ok h
    exact wave_isAmplitude _ _

/-- Settles O54, source by source from the range of what each is made of. -/
theorem signalStaysInRange : Obligations.SignalStaysInRange :=
  ⟨fun _ _ _ _ => signal_isAmplitude, wave_isAmplitude, ampSample_mem,
    fun x => ⟨normalize_val x, fun hlo hhi => normalize_mem ⟨hlo, hhi⟩⟩⟩

end Sys2Proof.Machine
end

section
/-! PROOFS. PCM samples (43 R250 to R252, 44 R282) and the length of a sample window (43 R254, R255). -/

namespace Sys2Proof.Machine

/-! ## Codes and amplitudes (43 R250 to R252) -/

theorem rawSample_u8 {s : State} (h : formatOf s.regs.pcmFormat = .u8) (k : Nat) :
    (rawSample s k).toNat = (s.sramByte k).toNat := by
  simp only [rawSample, h]
  exact BitVec.toNat_setWidth_of_le (by decide)

/-- The low byte comes first (20 R85). -/
theorem rawSample_s16le {s : State} (h : formatOf s.regs.pcmFormat = .s16le) (k : Nat) :
    (rawSample s k).toNat = (s.sramByte (2 * k)).toNat + 256 * (s.sramByte (2 * k + 1)).toNat := by
  simp only [rawSample, h, toNat_append_eq_add]
  omega

theorem ampSample_u8 {s : State} (h : formatOf s.regs.pcmFormat = .u8) (k : Nat) :
    ampSample s k = (((s.sramByte k).toNat : Int) - 128 : Int) / 128 := by
  rw [ampSample, h, ampOf, ampU8, rawSample_u8 h]
  push_cast
  rfl

theorem ampSample_s16le {s : State} (h : formatOf s.regs.pcmFormat = .s16le) (k : Nat) :
    ampSample s k = ((rawSample s k).toInt : ℚ) / 32768 := by
  rw [ampSample, h, ampOf, ampS16]

/-! ## Increments in integers (44 R282) -/

/-- The general form. -/
theorem incAt_eq (s : State) (k : Nat) :
    incAt s k = fromFraction (.ofRat (ampSample s k * toFraction s.regs.fmDevPpp)) := rfl

/-- Rounding the quotient by an even number, ties upward, is one division of integers. -/
theorem floor_div_even_add_half (n : Int) {h : Nat} (hpos : 0 < h) :
    ⌊(n : ℝ) / (2 * h : Nat) + 1 / 2⌋ = (n + h) / (2 * h : Nat) := by
  have hne : (h : ℝ) ≠ 0 := Nat.cast_ne_zero.2 hpos.ne'
  have hone : (n : ℝ) / (2 * h : Nat) + 1 / 2 = ((n + h : Int) : ℝ) / (2 * h : Nat) := by
    push_cast
    field_simp
  rw [hone, Int.floor_div_natCast, Int.floor_intCast]

/-- The integer form of an increment whose amplitude has an even denominator: the 2^32 of TO_FRACTION and of FROM_FRACTION
cancel. -/
theorem incAt_of_ampSample {s : State} {k h : Nat} {n : Int} (hpos : 0 < h) (ha : ampSample s k = n / (2 * h : Nat)) :
    incAt s k = BitVec.ofInt 32 ((n * (s.regs.fmDevPpp.toNat : Int) + h) / (2 * h : Nat)) := by
  have hscaled : ampSample s k * toFraction s.regs.fmDevPpp * 2 ^ 32 =
      ((n * (s.regs.fmDevPpp.toNat : Int) : Int) : ℚ) / (2 * h : Nat) := by
    rw [mul_assoc, toFraction_mul_two_pow, ha]
    push_cast
    ring
  have hreal : ((ampSample s k * toFraction s.regs.fmDevPpp : ℚ) : ℝ) * 2 ^ 32 =
      ((n * (s.regs.fmDevPpp.toNat : Int) : Int) : ℝ) / (2 * h : Nat) := by exact_mod_cast hscaled
  rw [incAt_eq, fromFraction_eq, ExactReal.val_ofRat, hreal, floor_div_even_add_half _ hpos]

/-- Settles O56: the general form is the definition; each integer form is it at the format's denominator. -/
theorem samplesAndIncrements : Obligations.SamplesAndIncrements := by
  intro s k
  refine ⟨incAt_eq s k, fun hf => ?_, fun hf => ?_⟩
  · have hu : formatOf s.regs.pcmFormat = .u8 := by rw [hf]; rfl
    have ha := ampSample_u8 hu k
    refine ⟨_, rfl, congrArg Nat.cast (rawSample_u8 hu k), ?_, incAt_of_ampSample (h := 64) (by decide) ha⟩
    exact ha.trans (by push_cast; rfl)
  · have hs : formatOf s.regs.pcmFormat = .s16le := by rw [hf]; rfl
    have ha := ampSample_s16le hs k
    exact ⟨_, rfl, rawSample_s16le hs k, ha, incAt_of_ampSample (h := 16384) (by decide) ha⟩

/-! ## What the checks leave (60 R382) -/

/-- The table of the checks of PREINT, row by row, is the list that the command goes through. -/
theorem configError_preint_none_iff (g : Regs) :
    configError g False True = none ↔ firstFailing (preintChecks g) = none := by
  rw [preintChecks_none_iff, geometryChecks_none_iff]
  simp only [configError, ite_eq_iff, reduceCtorEq, and_false, false_or, false_and, true_and, not_false_eq_true, and_true,
    Regs.visiblePixels, Regs.maxPixels, Regs.sr, Regs.ns, Regs.tableDepth]
  omega

/-! ## The lookups of a frame (43 R255, 44 R280, 45 R323) -/

theorem sampleIndex_mono (g : Regs) {t u : Nat} (h : t ≤ u) : sampleIndex g t ≤ sampleIndex g u :=
  Nat.div_le_div_right (Nat.mul_le_mul_right _ h)

/-- A visible pixel is a pixel of the total frame. -/
theorem v2t_lt_framePixels {g : Regs} (hh : g.hDisplay.toNat ≤ g.hTotal.toNat) (hv : g.vDisplay.toNat ≤ g.vTotal.toNat)
    {v : Nat} (h : v < g.visiblePixels) : v2t g v < g.framePixels := by
  have hwidth : 0 < g.hDisplay.toNat := Nat.pos_of_mul_pos_right (Nat.zero_lt_of_lt h)
  have hcol : v % g.hDisplay.toNat < g.hTotal.toNat := (Nat.mod_lt _ hwidth).trans_le hh
  have hrow : v / g.hDisplay.toNat < g.vTotal.toNat := (Nat.div_lt_of_lt_mul h).trans_le hv
  calc v2t g v
    _ < (v / g.hDisplay.toNat + 1) * g.hTotal.toNat := by rw [Nat.succ_mul]; exact Nat.add_lt_add_left hcol _
    _ ≤ g.vTotal.toNat * g.hTotal.toNat := Nat.mul_le_mul_right _ hrow
    _ = g.framePixels := Nat.mul_comm _ _

/-- The carry's lookup, at the frame's last total index, is the furthest of all. -/
theorem lookups_lt_ns_iff {g : Regs} (hh : g.hDisplay.toNat ≤ g.hTotal.toNat) (hv : g.vDisplay.toNat ≤ g.vTotal.toNat) :
    ((∀ v < g.visiblePixels, sampleIndex g (v2t g v) < g.ns) ∧ sampleIndex g (g.framePixels - 1) < g.ns) ↔
      minWindow g ≤ g.ns :=
  ⟨fun ⟨_, hcarry⟩ => hcarry, fun hcarry =>
    ⟨fun _ h => (sampleIndex_mono g (Nat.le_sub_one_of_lt (v2t_lt_framePixels hh hv h))).trans_lt hcarry, hcarry⟩⟩

/-! ## The window against the frame's period of samples (43 R254, R255) -/

/-- The quotient that R254 rounds is not negative, so no floor is lost in the naturals. -/
theorem windowLength_eq (sr vs : Nat) : (windowLength sr vs : Int) = ⌊(sr : ℚ) / vs + 1 / 2⌋ :=
  Int.toNat_of_nonneg (Int.floor_nonneg.2 (by positivity))

/-- An integer that is less than 1 away from a number is its floor or its ceiling. -/
theorem eq_floor_or_eq_ceil {x : ℚ} {z : Int} (hlo : x - 1 < z) (hhi : z < x + 1) : z = ⌊x⌋ ∨ z = ⌈x⌉ := by
  rcases le_total (z : ℚ) x with h | h
  · exact .inl (Int.floor_eq_iff.2 ⟨h, by linarith⟩).symm
  · exact .inr (Int.ceil_eq_iff.2 ⟨by linarith, h⟩).symm

/-- With `q = floor((F-1)*SR/DC)` and `DC = F*VS`: `q` is below `SR/VS`, and `q + 2` above it when SR is below DC. -/
theorem lastIndex_mul_vsyncHz {g : Regs} (hf : 1 ≤ g.framePixels) (hsr : 1 ≤ g.sr) (h : g.sr < g.dotClock) :
    g.sr < (sampleIndex g (g.framePixels - 1) + 1 + 1) * g.vsyncHz.toNat ∧
      sampleIndex g (g.framePixels - 1) * g.vsyncHz.toNat < g.sr := by
  have hdc : g.dotClock = g.framePixels * g.vsyncHz.toNat := rfl
  have hsplit : (g.framePixels - 1) * g.sr + g.sr = g.framePixels * g.sr := by
    rw [← Nat.succ_mul, Nat.succ_eq_add_one, Nat.sub_add_cancel hf]
  have hle : sampleIndex g (g.framePixels - 1) * g.dotClock ≤ (g.framePixels - 1) * g.sr := Nat.div_mul_le_self _ _
  have hlt : (g.framePixels - 1) * g.sr < (sampleIndex g (g.framePixels - 1) + 1) * g.dotClock := by
    rw [Nat.succ_mul]
    exact Nat.lt_div_mul_add (Nat.zero_lt_of_lt h)
  constructor
  · refine Nat.lt_of_mul_lt_mul_left (a := g.framePixels) ?_
    calc g.framePixels * g.sr
      _ < (sampleIndex g (g.framePixels - 1) + 1) * g.dotClock + g.dotClock := by omega
      _ = g.framePixels * ((sampleIndex g (g.framePixels - 1) + 1 + 1) * g.vsyncHz.toNat) := by rw [hdc]; ring
  · refine Nat.lt_of_mul_lt_mul_left (a := g.framePixels) ?_
    calc g.framePixels * (sampleIndex g (g.framePixels - 1) * g.vsyncHz.toNat)
      _ = sampleIndex g (g.framePixels - 1) * g.dotClock := by rw [hdc]; ring
      _ < g.framePixels * g.sr := by omega

/-- NS_MIN is less than 1 away from `SR/VS`. -/
theorem minWindow_near {g : Regs} (hf : 1 ≤ g.framePixels) (hvs : 1 ≤ g.vsyncHz.toNat) (hsr : 1 ≤ g.sr)
    (h : g.sr < g.dotClock) :
    (g.sr : ℚ) / g.vsyncHz.toNat - 1 < minWindow g ∧ (minWindow g : ℚ) < g.sr / g.vsyncHz.toNat + 1 := by
  have hpos : (0 : ℚ) < g.vsyncHz.toNat := Nat.cast_pos.2 hvs
  obtain ⟨hlo, hhi⟩ := lastIndex_mul_vsyncHz hf hsr h
  rw [sub_lt_iff_lt_add, div_lt_iff₀ hpos, ← sub_lt_iff_lt_add, lt_div_iff₀ hpos, minWindow]
  push_cast
  constructor
  · exact_mod_cast hlo
  · rw [add_sub_cancel_right]
    exact_mod_cast hhi

theorem minWindow_le_windowLength_succ {g : Regs} (h : (minWindow g : ℚ) < g.sr / g.vsyncHz.toNat + 1) :
    minWindow g ≤ windowLength g.sr g.vsyncHz.toNat + 1 := by
  have hfloor := Int.lt_floor_add_one ((g.sr : ℚ) / g.vsyncHz.toNat + 1 / 2)
  rw [← windowLength_eq, Int.cast_natCast] at hfloor
  have hlt : (minWindow g : ℚ) < (windowLength g.sr g.vsyncHz.toNat + 1 + 1 : Nat) := by
    push_cast
    linarith
  exact Nat.le_of_lt_succ (Nat.cast_lt.1 hlt)

/-- Settles O58: the lookups by the furthest of them, NS_MIN by its distance from `SR/VS`. -/
theorem minimumWindow : Obligations.MinimumWindow := by
  refine ⟨fun sr vs _ => windowLength_eq sr vs, fun g hg => ?_⟩
  obtain ⟨hgeometry, hsr, -⟩ := (preintChecks_none_iff g).1 ((configError_preint_none_iff g).1 hg)
  obtain ⟨hht, hvt, ⟨-, hhd⟩, ⟨-, hvd⟩, hvs, -⟩ := (geometryChecks_none_iff g).1 hgeometry
  refine ⟨lookups_lt_ns_iff hhd hvd, rfl, fun hdc => ?_⟩
  obtain ⟨hlo, hhi⟩ := minWindow_near (Nat.mul_pos hht hvt) hvs hsr hdc
  exact ⟨eq_floor_or_eq_ceil (by exact_mod_cast hlo) (by exact_mod_cast hhi), minWindow_le_windowLength_succ hhi⟩

end Sys2Proof.Machine
end

section
/-! PROOFS. The invariant is kept: what each part of it rests on, and then every phase of every command, every transaction and
reset (44 R289; 45 R322 to R336; 60 R385). -/

namespace Sys2Proof.Machine

/-! ## The parts of the invariant -/

/-- The error registers' part: they are as they were, and so is being in HALTED (60 R385). -/
theorem errorsOk_congr {s t : State} (hcode : t.regs.errCode = s.regs.errCode) (hindex : t.regs.errIndex = s.regs.errIndex)
    (hsample : t.regs.errSample = s.regs.errSample) (hc : t.ctrl = .halted ↔ s.ctrl = .halted) (h : ErrorsOk s) :
    ErrorsOk t := by
  simpa only [ErrorsOk, hcode, hindex, hsample, hc] using h

/-- A block that is not BUSY has no command whose progress could be wrong. -/
theorem ctrlOk_of_not_busy {s : State} (h : s.ctrl.busy = false) : CtrlOk s := by
  unfold CtrlOk
  cases hc : s.ctrl with
  | idle | halted => trivial
  | _ => rw [hc] at h; cases h

/-- Storing bytes of one of the memories keeps the store in order (20 R80). -/
theorem memoryOk_storeBytes {s : State} (h : MemoryOk s) {a : Nat} {bs : List Byte}
    (hin : ∀ x, a ≤ x → x < a + bs.length → InMemories s.regs x) : MemoryOk (s.storeBytes a bs) := by
  refine ⟨memory_writeRun_wf h.1 a bs, fun c hc => ?_⟩
  rcases memory_mem_writeRun hc with hold | ⟨hlo, hhi⟩
  · exact h.2 c hold
  · exact hin c.1 hlo hhi

/-- An entry that the table has room for is stored within it (10 R45). -/
theorem memoryOk_storeEntry {s : State} (h : MemoryOk s) {k : Nat} (hk : k < s.regs.tableDepth) (e : TblEntry) :
    MemoryOk (storeEntry s k e) := by
  have hin : ∀ x, tblAddr k ≤ x → x < tblAddr k + 16 → InMemories s.regs x := fun x hlo hhi =>
    .inr (.inl (by simp only [tblAddr] at hlo hhi; omega))
  refine memoryOk_storeBytes (memoryOk_storeBytes h fun x hlo hhi => hin x hlo ?_) fun x hlo hhi => hin x ?_ ?_
  · simp only [List.length_cons, List.length_nil] at hhi
    omega
  · omega
  · simp only [List.length_append, wordBytes_length] at hhi
    omega

/-- What a valid table takes for granted rests on the inputs of PREINT and the size of the table (60 R382). -/
theorem tableInputsOk_congr {s t : State} (h : SameTableInputs s t) (hcfg : s.regs.cfg = t.regs.cfg)
    (hi : TableInputsOk s.regs) : TableInputsOk t.regs := by
  simpa only [TableInputsOk, Regs.sr, Regs.ns, Regs.tableDepth, h.hTotal, h.vTotal, h.vsyncHz, h.sampleRate, h.sampleCount,
    hcfg] using hi

/-- The table's part: its inputs and its entries are as they were, and TABLE_VALID has not been set (44 R289). -/
theorem tableOk_of_inputs {s t : State} (hi : SameTableInputs s t) (hcfg : s.regs.cfg = t.regs.cfg)
    (he : ∀ k < s.regs.ns, tblEntry s k = tblEntry t k) (hv : t.tableValid = true → s.tableValid = true) (h : TableOk s) :
    TableOk t := fun ht => by
  obtain ⟨hinputs, hbuilt⟩ := h (hv ht)
  have hns : t.regs.ns = s.regs.ns := congrArg BitVec.toNat hi.sampleCount.symm
  exact ⟨tableInputsOk_congr hi hcfg hinputs, hns ▸ tableBuilt_inputs hi (Nat.le_of_lt (ns_lt _)) he hbuilt⟩

/-! ## The pass of PREINT (44 R283) -/

/-- Storing an entry and going on leaves the inputs of PREINT alone. -/
theorem sameTableInputs_storeEntry (s : State) (k : Nat) (e : TblEntry) (c : Ctrl) :
    SameTableInputs s ((storeEntry s k e).setCtrl c) :=
  ⟨rfl, rfl, rfl, rfl, rfl, rfl, rfl, rfl, fun o ho => (sramByte_storeEntry s e (ho.trans (by decide))).symm⟩

/-- The pass's own entry, written over an entry of a table as far as it is built, is what stands there already. -/
theorem tblEntry_storeOwn {s : State} {n : Nat} (hb : TableBuilt s n) {j : Nat} (hj : j < n) (k : Nat) :
    tblEntry (storeEntry s k (preintEntry s k (cumAt s k))) j = tblEntry s j := by
  by_cases hjk : j = k
  · subst hjk
    rw [tblEntry_storeEntry_same, hb j hj]
  · exact tblEntry_storeEntry_other s _ hjk

/-- The pass's next entry extends the table by one. -/
theorem tableBuilt_storeNext {s : State} {k : Nat} (hk : k < 2 ^ 17) (hb : TableBuilt s k) (c : Ctrl) :
    TableBuilt ((storeEntry s k (preintEntry s k (cumAt s k))).setCtrl c) (k + 1) := by
  have hi := sameTableInputs_storeEntry s k (preintEntry s k (cumAt s k)) c
  intro j hj
  rw [setCtrl_tblEntry, ← preintEntry_inputs hi (by omega), ← cumAt_inputs hi (by omega)]
  rcases Nat.lt_succ_iff_lt_or_eq.1 hj with hlt | rfl
  · rw [tblEntry_storeOwn hb hlt, hb j hlt]
  · exact tblEntry_storeEntry_same s j _

/-- One entry of the pass. A table that was valid stays so: its entry is written again as it stands. -/
theorem safe_preintEntry {s : State} (h : Safe s) {k : Nat} {c : Phase} (hc : s.ctrl = .preintegrating k c)
    (hk : k < s.regs.ns) : Safe ((storeEntry s k (preintEntry s k c)).setCtrl
      (.preintegrating (k + 1) (nextCum s.regs k (preintEntry s k c)))) := by
  obtain ⟨hparams, hmemory, herrors, htable, hctrl⟩ := h
  simp only [CtrlOk, hc] at hctrl
  obtain ⟨hchecks, -, rfl, hbuilt⟩ := hctrl
  obtain ⟨-, -, hdepth⟩ := (preintChecks_none_iff s.regs).1 hchecks
  have hns := hk.trans (ns_lt s.regs)
  have hi := sameTableInputs_storeEntry s k (preintEntry s k (cumAt s k))
    (.preintegrating (k + 1) (nextCum s.regs k (preintEntry s k (cumAt s k))))
  exact
    { params := hparams
      memory := memoryOk_storeEntry hmemory (hk.trans_le hdepth) _
      errors := errorsOk_congr (s := s) rfl rfl rfl (by simp [hc]) herrors
      table := fun hv => tableOk_of_inputs hi rfl (fun j hj => (tblEntry_storeOwn (htable hv).2 hj k).symm) id htable hv
      ctrl := ⟨hchecks, hk, cumAt_inputs (k := k + 1) hi hns, tableBuilt_storeNext hns hbuilt _⟩ }

/-- The commit of the pass: every entry stands, and the checks that the command passed are what the table takes for granted. -/
theorem safe_preintCommit {s : State} (h : Safe s) {k : Nat} {c : Phase} (hc : s.ctrl = .preintegrating k c)
    (hk : ¬k < s.regs.ns) : Safe ((s.setTableValid true).setCtrl .idle) := by
  have hctrl := h.ctrl
  simp only [CtrlOk, hc] at hctrl
  obtain ⟨hchecks, hle, -, hbuilt⟩ := hctrl
  obtain rfl : k = s.regs.ns := by omega
  obtain ⟨hgeometry, hsr, hdepth⟩ := (preintChecks_none_iff s.regs).1 hchecks
  obtain ⟨hht, hvt, -, -, hvs, -⟩ := (geometryChecks_none_iff s.regs).1 hgeometry
  have hinputs : SameTableInputs s ((s.setTableValid true).setCtrl .idle) :=
    sameTableInputs_of_snapshot (sameSnapshot_of_mem rfl rfl rfl)
  exact
    { params := h.params
      memory := h.memory
      errors := errorsOk_congr (s := s) rfl rfl rfl (by simp [hc]) h.errors
      table := fun _ => ⟨⟨hht, hvt, hvs, hsr, hdepth⟩,
        tableBuilt_inputs hinputs (Nat.le_of_lt (ns_lt _)) (fun _ _ => rfl) hbuilt⟩
      ctrl := trivial }

theorem safe_preintStep {s : State} (h : Safe s) : Safe (preintStep s) := by
  cases hc : s.ctrl with
  | preintegrating k c =>
    by_cases hk : k < s.regs.ns
    · rw [preintStep_entry hc hk]
      exact safe_preintEntry h hc hk
    · rw [preintStep_commit hc hk]
      exact safe_preintCommit h hc hk
  | _ => rwa [preintStep_other (by simp [hc])]

/-! ## Acceptance (60 R382, R383) -/

/-- Checks that fail raise CONFIG; checks that pass leave what comes after them. -/
theorem safe_checked {s : State} (h : Safe s) {cs : List Check} {go : State → State}
    (hgo : firstFailing cs = none → Safe (go s)) : Safe (checked cs go s) := by
  rcases checked_cases cs go s with ⟨off, -, he⟩ | ⟨hpass, he⟩ <;> rw [he]
  · exact safe_raiseError h _ _ _
  · exact hgo hpass

theorem safe_preintBegin {s : State} (h : Safe s) (hc : s.ctrl = .idle) : Safe (preintBegin s) :=
  safe_checked h fun hpass => safe_setCtrl h (by simp [hc]) (by simp)
    ⟨hpass, Nat.zero_le _, rfl, fun _ hk => absurd hk (Nat.not_lt_zero _)⟩

theorem safe_renderBegin {s : State} (h : Safe s) (hc : s.ctrl = .idle) : Safe (renderBegin s) := by
  by_cases ha : RenderAccepted s
  · rw [renderBegin_accepted ha]
    exact safe_setCtrl h (by simp [hc]) (by simp) ha
  · obtain ⟨e, i, he⟩ := renderBegin_rejected ha
    rw [he]
    exact safe_raiseError h _ _ _

theorem safe_advanceBegin {s : State} (h : Safe s) (hc : s.ctrl = .idle) : Safe (advanceBegin s) :=
  safe_checked h fun hpass => safe_setCtrl h (by simp [hc]) (by simp) hpass

/-! ## The phases of a RENDER (45 R322 to R328) -/

theorem threads_ne_zero {s : State} (h : RenderAccepted s) : s.regs.threads.toNat ≠ 0 := by
  obtain ⟨-, ⟨⟨hpos, -⟩, -⟩, -⟩ := (renderAllChecks_none_iff _).1 h.1
  exact Nat.ne_of_gt hpos

theorem contiguous_le {a b : Nat} {l : List (Nat × Nat)} (h : Contiguous a l b) : ∀ c ∈ l, c.1 ≤ c.2 := by
  induction l generalizing a with
  | nil => exact fun c hc => absurd hc List.not_mem_nil
  | cons x l ih => exact List.forall_mem_cons.2 ⟨h.2.1, ih h.2.2⟩

/-- The workers as they start, one per chunk of the partition. -/
theorem workersOk_start {s : State} (h : RenderAccepted s) :
    WorkersOk s ((partition s.regs.visiblePixels s.regs.threads.toNat).map Worker.start) := by
  refine ⟨by simp [Function.comp_def, Worker.start], fun w hw => ?_⟩
  obtain ⟨c, hc, rfl⟩ := List.mem_map.1 hw
  exact workerStart_ok s (contiguous_le (partition_contiguous _ _ (threads_ne_zero h)) c hc)

theorem safe_dispatchStep {s : State} (h : Safe s) (hc : s.ctrl = .dispatching) : Safe (dispatchStep s) := by
  have ha := h.ctrl
  simp only [CtrlOk, hc] at ha
  simp only [dispatchStep, hc]
  exact safe_setCtrl h (by simp [hc]) (by simp) ⟨ha, workersOk_same (sameSnapshot_of_mem rfl rfl rfl) (workersOk_start ha)⟩

/-- A step of one worker keeps all of them in order. -/
theorem workersOk_modify {s : State} {ws : List Worker} (h : WorkersOk s ws) (n : Nat) :
    WorkersOk s (ws.modify n (workerStep s)) := by
  obtain ⟨hchunks, hok⟩ := h
  refine ⟨?_, fun w hw => ?_⟩
  · rw [← hchunks]
    refine List.ext_getElem (by simp) fun i _ _ => ?_
    simp only [List.getElem_map, List.getElem_modify]
    split <;> simp
  · obtain ⟨i, hi, rfl⟩ := List.getElem_of_mem hw
    rw [List.getElem_modify]
    split
    · exact workerStep_ok (hok _ (List.getElem_mem _))
    · exact hok _ (List.getElem_mem _)

theorem safe_workerMove {s : State} (h : Safe s) (n : Nat) : Safe (workerMove n s) := by
  unfold workerMove
  split
  case h_1 ws hc =>
    have hctrl := h.ctrl
    simp only [CtrlOk, hc] at hctrl
    obtain ⟨ha, hw⟩ := hctrl
    exact safe_setCtrl h (by simp [hc]) (by simp)
      ⟨ha, workersOk_same (sameSnapshot_of_mem rfl rfl rfl) (workersOk_modify hw n)⟩
  case h_2 => exact h

/-- The join: it waits, raises RANGE, or has the whole frame (45 R327). -/
theorem safe_collectStep {s : State} (h : Safe s) {ws : List Worker} (hc : s.ctrl = .collecting ws) :
    Safe (collectStep s) := by
  have hctrl := h.ctrl
  simp only [CtrlOk, hc] at hctrl
  obtain ⟨ha, hchunks, hok⟩ := hctrl
  cases hany : ws.any Worker.isRunning with
  | true => simpa only [collectStep, hc, hany, if_true] using h
  | false =>
    have hreported : ∀ w ∈ ws, w.isRunning = false := fun w hw => by simpa using List.any_eq_false.1 hany w hw
    rcases collectStep_reported hc hreported with ⟨t, k, -, he⟩ | ⟨hnone, he⟩ <;> rw [he]
    · exact safe_raiseError h _ _ _
    · have hcontiguous := hchunks ▸ partition_contiguous s.regs.visiblePixels s.regs.threads.toNat (threads_ne_zero ha)
      obtain ⟨hlength, hpixels⟩ := buffers_of_done hcontiguous hok hreported hnone
      rw [Nat.zero_add] at hlength
      refine safe_setCtrl h (by simp [hc]) (by simp) ⟨ha, hlength, fun v hv => ?_⟩
      have hpixel := hpixels v hv
      rw [Nat.zero_add] at hpixel
      exact pixelIs_same (sameSnapshot_of_mem rfl rfl rfl) hpixel

/-- The frame fits the frame buffer by the checks that RENDER has passed (20 R80; 60 R382). -/
theorem safe_frame {s : State} (h : Safe s) (hc : s.ctrl ≠ .halted) (ha : RenderAccepted s) {gs : List Byte}
    (hf : FrameIs s gs) : Safe ((s.storeBytes fbBase (gs.flatMap pixelBytes)).setCtrl .idle) := by
  obtain ⟨-, -, -, -, -, hfit⟩ := (geometryChecks_none_iff _).1 ((renderAllChecks_none_iff _).1 ha.1).1
  have hbytes := pixelBytes_length gs
  have hbelow : ∀ x < fbBase, s.byte x = (s.storeBytes fbBase (gs.flatMap pixelBytes)).byte x := fun x hx =>
    (byte_storeBytes_outside s (.inl hx)).symm
  have hsame : SameSnapshot s ((s.storeBytes fbBase (gs.flatMap pixelBytes)).setCtrl .idle) := ⟨rfl, hbelow⟩
  exact
    { params := h.params
      memory := memoryOk_storeBytes h.memory fun x hlo hhi => .inr (.inr ⟨hlo, by rw [hbytes, hf.1] at hhi; omega⟩)
      errors := errorsOk_congr (s := s) rfl rfl rfl (by simp [hc]) h.errors
      table := tableOk_of_inputs (sameTableInputs_of_snapshot hsame) rfl
        (fun k hk => tblEntry_same hsame (hk.trans (ns_lt _))) id h.table
      ctrl := trivial }

theorem safe_composeStep {s : State} (h : Safe s) {bufs : List (List Byte)} (hc : s.ctrl = .composing bufs) :
    Safe (composeStep s) := by
  have hctrl := h.ctrl
  simp only [CtrlOk, hc] at hctrl
  obtain ⟨ha, hf⟩ := hctrl
  simp only [composeStep, hc]
  exact safe_frame h (by simp [hc]) ha hf

theorem safe_renderRun {s : State} (h : Safe s) (hc : s.ctrl = .idle) : Safe (renderRun s) := by
  by_cases ha : RenderAccepted s
  · rcases renderRun_spec ha with ⟨-, t, k, -, -, -, he⟩ | ⟨gs, hf, he⟩ <;> rw [he]
    · exact safe_raiseError h _ _ _
    · exact safe_frame h (by simp [hc]) ha hf
  · obtain ⟨e, i, he⟩ := renderBegin_rejected ha
    rw [renderRun, he, render_phases_halted rfl]
    exact safe_raiseError h _ _ _

/-! ## ADVANCE (45 R333) -/

/-- The commit clears TABLE_VALID, so that nothing is claimed of the table under the new seed. -/
theorem safe_advanceCommit {s : State} (h : Safe s) (hc : s.ctrl ≠ .halted) (seed : Phase) : Safe (advanceCommit seed s) where
  params := h.params
  memory := h.memory
  errors := errorsOk_congr (s := s) rfl rfl rfl (by simp [hc]) h.errors
  table := fun hv => absurd hv Bool.false_ne_true
  ctrl := trivial

theorem safe_advanceStep {s : State} (h : Safe s) : Safe (advanceStep s) := by
  by_cases hc : s.ctrl = .advancing
  · rcases advanceStep_cases hc with ⟨t, k, -, he⟩ | ⟨seed, -, he⟩ <;> rw [he]
    · exact safe_raiseError h _ _ _
    · exact safe_advanceCommit h (by simp [hc]) seed
  · unfold advanceStep
    split
    · contradiction
    · exact h

/-! ## The controller and the commands -/

theorem safe_controllerStep {s : State} (h : Safe s) : Safe (controllerStep s) := by
  rcases controllerStep_cases s with ⟨-, he⟩ | ⟨hc, he⟩ | ⟨⟨ws, hc⟩, he⟩ | ⟨⟨bufs, hc⟩, he⟩ | ⟨-, he⟩ | ⟨-, he⟩ <;> rw [he]
  · exact h
  · exact safe_dispatchStep h hc
  · exact safe_collectStep h hc
  · exact safe_composeStep h hc
  · exact safe_preintStep h
  · exact safe_advanceStep h

/-- An accepted command, run whole or begun: its phases one after the other. -/
theorem safe_commandEffect {s : State} (h : Safe s) (hc : s.ctrl = .idle) (whole : Bool) (i : Instr) :
    Safe (commandEffect whole i s) := by
  cases i <;> cases whole
  case nop.false | nop.true => exact h
  case preint.false => exact safe_preintBegin h hc
  case preint.true => exact Function.Iterate.rec Safe (safe_preintBegin h hc) (fun _ => safe_preintStep) _
  case render.false => exact safe_renderBegin h hc
  case render.true => exact safe_renderRun h hc
  case advance.false => exact safe_advanceBegin h hc
  case advance.true => exact safe_advanceStep (safe_advanceBegin h hc)

/-! ## The host's writes and reset (20 R90; 70 R420) -/

/-- An accepted write to an input of PREINT takes TABLE_VALID back; one to any other register leaves those inputs (44 R289). -/
theorem safe_storeFields {s : State} (h : Safe s) (hb : s.ctrl.busy = false) (r : Reg) (v : Word) :
    Safe { s with regs := storeFields r v s.regs, tableValid := s.tableValid && !r.clearsTable } := by
  obtain ⟨hcfg, hcode, hindex, hsample⟩ := storeFields_fixed r v s.regs
  refine
    { params := by rw [hcfg]; exact h.params
      memory := ⟨h.memory.1, fun c hc => ?_⟩
      errors := errorsOk_congr hcode hindex hsample Iff.rfl h.errors
      table := ?_
      ctrl := ctrlOk_of_not_busy hb }
  · simpa only [InMemories, Regs.tableDepth, Regs.maxPixels, hcfg] using h.memory.2 c hc
  · cases hr : r.clearsTable with
    | true => exact fun hv => absurd hv (by simp)
    | false =>
      obtain ⟨hht, hvt, hvs, hsr, hfmt, hns, hdev, hseed⟩ := storeFields_tableInputs hr v s.regs
      refine tableOk_of_inputs (s := s) ?_ hcfg.symm (fun _ _ => rfl) (fun hv => (Bool.and_eq_true_iff.1 hv).1) h.table
      exact ⟨hht.symm, hvt.symm, hvs.symm, hsr.symm, hfmt.symm, hns.symm, hdev.symm, hseed.symm, fun _ _ => rfl⟩

/-- An accepted write to an SRAM word lies in SRAM and takes TABLE_VALID back (44 R289). -/
theorem safe_storeSram {s : State} (h : Safe s) (hb : s.ctrl.busy = false) {o : Nat} (ho : o + 4 ≤ 2 * s.regs.tableDepth)
    (v : Word) : Safe ((s.storeBytes (sramBase + o) (wordBytes v)).setTableValid false) where
  params := h.params
  memory := memoryOk_storeBytes h.memory fun x hlo hhi => .inl (by rw [wordBytes_length] at hhi; omega)
  errors := errorsOk_congr rfl rfl rfl Iff.rfl h.errors
  table := fun hv => absurd hv Bool.false_ne_true
  ctrl := ctrlOk_of_not_busy hb

theorem safe_busWrite {s : State} (h : Safe s) (a v : Word) : Safe (busWrite a v s).2 := by
  rcases busWrite_cases a v s with he | ⟨r, -, he⟩ | ⟨o, ht, he⟩ <;> rw [he]
  · exact h
  · rcases writeReg_cases r v s with ⟨-, -, he⟩ | ⟨-, hb, he⟩ | ⟨-, he⟩ | ⟨-, he⟩ <;> rw [he]
    · exact safe_congr (s := s) rfl rfl rfl rfl rfl h
    · exact safe_storeFields h hb r v
    · exact safe_congr (s := s) rfl rfl rfl rfl rfl h
    · exact h
  · rcases writeSram_cases o v s with ⟨-, he⟩ | ⟨hb, he⟩ <;> rw [he]
    · exact safe_congr (s := s) rfl rfl rfl rfl rfl h
    · have hspec := targetOf_spec s.regs a
      rw [ht] at hspec
      exact safe_storeSram h hb hspec.2 v

theorem safe_resetBlock {s : State} (h : Safe s) : Safe (resetBlock s) where
  params := h.params
  memory := ⟨List.Pairwise.nil, fun c hc => absurd hc List.not_mem_nil⟩
  errors := by simp [ErrorsOk, Regs.reset]
  table := fun hv => absurd hv Bool.false_ne_true
  ctrl := trivial

/-! ## Every step -/

theorem safe_stepEffect {s t : State} (h : Safe s) (he : StepEffect s t) : Safe t := by
  have hops : ∀ rest, Safe { s with ops := rest } := fun rest => safe_congr (s := s) rfl rfl rfl rfl rfl h
  have hanswer : ∀ r {u}, Safe u → Safe (answer r u) := fun r u hu => safe_congr (s := u) rfl rfl rfl rfl rfl hu
  cases he with
  | nothing => exact h
  | controller => exact safe_controllerStep h
  | worker n => exact safe_workerMove h n
  | read a rest ho =>
    rw [busRead_host]
    exact safe_congr (s := s) rfl rfl rfl rfl rfl h
  | wait rest ho | stop rest ho | dropped w rest ho hc => exact safe_congr (s := s) rfl rfl rfl rfl rfl h
  | write a v rest ho ha => exact hanswer _ (safe_busWrite (hops rest) a v)
  | illegal w e rest ho hc hd => exact safe_raiseError (hanswer _ (hops rest)) _ _ _
  | command whole i rest ho hc => exact safe_commandEffect (hanswer _ (hops rest)) hc whole i

/-- Settles O44: each thing that a step can do keeps the invariant, and taking the schedule's head off does not touch it. -/
theorem safeIsKept : Obligations.SafeIsKept := fun s t h hstep => by
  have hmoves : ∀ ms, Safe { s with moves := ms } := fun ms => safe_congr (s := s) rfl rfl rfl rfl rfl h
  rcases step_effect hstep with ⟨ms, -, rfl⟩ | ⟨ms, he⟩
  · exact safe_resetBlock (hmoves ms)
  · exact safe_stepEffect (hmoves ms) he

end Sys2Proof.Machine
end

section
/-! PROOFS. Who clears TABLE_VALID and who sets it (44 R289; 45 R336). -/

namespace Sys2Proof.Machine

/-! ## Accepted writes (20 R90) -/

/-- The registers that the statement lists are the inputs of PREINT. -/
theorem clearsTable_iff (r : Reg) : r.clearsTable = true ↔
    r ∈ [.hTotal, .vTotal, .vsyncHz, .sampleRate, .pcmFormat, .sampleCount, .fmDevPpp, .fmSeed] := by
  cases r <;> decide

theorem writeReg_tableValid_input {s : State} {r : Reg} (hr : r.clearsTable = true) (hb : s.ctrl.busy = false) (v : Word) :
    (writeReg r v s).tableValid = false := by
  have hrw : r.access = .rw := by cases r <;> first | rfl | cases hr
  rw [writeReg_accepted hrw hb, hr]
  exact Bool.and_false _

theorem writeReg_tableValid_other {r : Reg} (hr : r.clearsTable = false) (v : Word) (s : State) :
    (writeReg r v s).tableValid = s.tableValid := by
  rcases writeReg_cases r v s with ⟨-, -, he⟩ | ⟨-, -, he⟩ | ⟨-, he⟩ | ⟨-, he⟩ <;> rw [he]
  · rfl
  · rw [hr]
    exact Bool.and_true _
  · rfl

/-- Settles O26, register by register from which of them are inputs of PREINT. -/
theorem acceptedWriteClearsTableValid : Obligations.AcceptedWriteClearsTableValid := fun s v hb => by
  refine ⟨fun r hr => ?_, fun r hr => ?_, fun a h h1 h2 => ?_⟩
  · rw [busWrite_offset]
    exact writeReg_tableValid_input ((clearsTable_iff r).2 hr) hb v
  · rw [busWrite_offset]
    exact writeReg_tableValid_other (Bool.eq_false_iff.2 (mt (clearsTable_iff r).1 hr)) v s
  · rw [busWrite_sram_accepted h h1 h2 hb]
    rfl

/-! ## The one command that sets it (44 R283, R289) -/

/-- No write of the host sets it. -/
theorem tableValid_of_busWrite {a v : Word} {s : State} (h : (busWrite a v s).2.tableValid = true) :
    s.tableValid = true := by
  rcases busWrite_cases a v s with he | ⟨r, -, he⟩ | ⟨o, -, he⟩ <;> rw [he] at h
  · exact h
  · rcases writeReg_cases r v s with ⟨-, -, he⟩ | ⟨-, -, he⟩ | ⟨-, he⟩ | ⟨-, he⟩ <;> rw [he] at h
    · exact h
    · exact (Bool.and_eq_true_iff.1 h).1
    · exact h
    · exact h
  · rcases writeSram_cases o v s with ⟨-, he⟩ | ⟨-, he⟩ <;> rw [he] at h
    · exact h
    · cases h

theorem checked_tableValid {go : State → State} {s : State} (hgo : (go s).tableValid = s.tableValid) (cs : List Check) :
    (checked cs go s).tableValid = s.tableValid := by
  rcases checked_cases cs go s with ⟨off, -, he⟩ | ⟨-, he⟩ <;> rw [he]
  · rfl
  · exact hgo

theorem renderBegin_tableValid (s : State) : (renderBegin s).tableValid = s.tableValid := by
  by_cases ha : RenderAccepted s
  · rw [renderBegin_accepted ha]
    rfl
  · obtain ⟨e, i, he⟩ := renderBegin_rejected ha
    rw [he]
    rfl

theorem renderRun_tableValid (s : State) : (renderRun s).tableValid = s.tableValid := by
  by_cases ha : RenderAccepted s
  · rcases renderRun_spec ha with ⟨-, t, k, -, -, -, he⟩ | ⟨gs, -, he⟩ <;> rw [he] <;> rfl
  · obtain ⟨e, i, he⟩ := renderBegin_rejected ha
    rw [renderRun, he, render_phases_halted rfl]
    rfl

theorem tableValid_of_advanceStep {s : State} (h : (advanceStep s).tableValid = true) : s.tableValid = true := by
  by_cases hc : s.ctrl = .advancing
  · rcases advanceStep_cases hc with ⟨t, k, -, he⟩ | ⟨seed, -, he⟩ <;> rw [he] at h
    · exact h
    · cases h
  · unfold advanceStep at h
    split at h
    · contradiction
    · exact h

theorem collectStep_tableValid (s : State) : (collectStep s).tableValid = s.tableValid := by
  unfold collectStep
  split
  · split
    · rfl
    · split <;> rfl
  · rfl

theorem workerMove_tableValid (n : Nat) (s : State) : (workerMove n s).tableValid = s.tableValid := by
  unfold workerMove
  split <;> rfl

/-- After a command, run whole or begun, it is 1 only if it was before, or the command is a PREINT run whole, which ends in
IDLE. -/
theorem commandEffect_validates {whole : Bool} {i : Instr} {s : State} (h : (commandEffect whole i s).tableValid = true) :
    s.tableValid = true ∨ (whole = true ∧ i = .preint ∧ (commandEffect whole i s).ctrl = .idle) := by
  cases i <;> cases whole
  case nop.false | nop.true => exact .inl h
  case preint.false => exact .inl ((checked_tableValid rfl _).symm.trans h)
  case preint.true =>
    simp only [commandEffect] at h ⊢
    cases hf : firstFailing (preintChecks s.regs) with
    | some off =>
      rw [preintRun_config hf] at h
      exact .inl h
    | none =>
      obtain ⟨he, -, -⟩ := preintRun_spec hf
      exact .inr ⟨trivial, trivial, by rw [he]⟩
  case render.false => exact .inl ((renderBegin_tableValid s).symm.trans h)
  case render.true => exact .inl ((renderRun_tableValid s).symm.trans h)
  case advance.false => exact .inl ((checked_tableValid rfl _).symm.trans h)
  case advance.true => exact .inl ((checked_tableValid rfl _).symm.trans (tableValid_of_advanceStep h))

/-- After a word written to CMD it is 1 only if it was before, or the word is PREINT and runs whole from IDLE. -/
theorem commandWrite_validates {whole : Bool} {w : Word} {s t : State} (h : commandWrite whole w s = .next t)
    (ht : t.tableValid = true) :
    s.tableValid = true ∨ (whole = true ∧ w = encode .preint ∧ s.ctrl = .idle ∧ t.ctrl = .idle) := by
  rcases commandWrite_cases whole w s with ⟨i, hd, rfl, he⟩ | ⟨i, hd, rfl, he⟩ | ⟨e, -, he⟩ <;> rw [h] at he <;>
    by_cases hc : s.ctrl = .idle
  · rw [exec_accepted hc] at he
    cases he
    refine (commandEffect_validates ht).imp_right fun ⟨_, hi, hidle⟩ => ⟨rfl, ?_, hc, hidle⟩
    rw [← hi, ← eq_encode_of_decode hd]
  · rw [exec_dropped hc] at he
    cases he
    exact .inl ht
  · rw [beginCommand_accepted hc] at he
    cases he
    exact .inl ((commandEffect_validates ht).resolve_right fun ⟨hwhole, _⟩ => Bool.false_ne_true hwhole)
  · rw [beginCommand_dropped hc] at he
    cases he
    exact .inl ht
  · rw [illegalCommand, accept_idle hc] at he
    cases he
    exact .inl ht
  · rw [illegalCommand, accept_dropped hc] at he
    cases he
    exact .inl ht

/-- After a move of the host it is 1 only if it was before, or the host wrote the PREINT word to CMD and the command ran
whole. -/
theorem hostStep_validates {whole : Bool} {s t : State} (h : hostStep whole s = .next t) (ht : t.tableValid = true) :
    s.tableValid = true ∨ (whole = true ∧ s.ctrl = .idle ∧ t.ctrl = .idle ∧
      ∃ rest, s.ops = .write 0#32 (encode .preint) :: rest) := by
  rcases hostStep_cases whole s with ⟨-, he⟩ | ⟨a, rest, -, he⟩ | ⟨rest, -, he⟩ | ⟨rest, -, he⟩ | ⟨a, v, rest, ho, ha, he⟩ |
      ⟨a, v, rest, -, -, he⟩ <;> rw [h] at he
  · cases he
    exact .inl ht
  · cases he
    rw [busRead_host] at ht
    exact .inl ht
  · cases he
    exact .inl ht
  · cases he
    exact .inl ht
  · refine (commandWrite_validates he.symm ht).imp_right fun ⟨hwhole, hv, hs, hidle⟩ => ⟨hwhole, hs, hidle, rest, ?_⟩
    rw [ho, (targetOf_cmd_iff _ _).1 ha, hv]
  · cases he
    exact .inl (tableValid_of_busWrite (s := { s with ops := rest }) ht)

/-- After a step of the controller it is 1 only if it was before, or the step is the last of a PREINT. -/
theorem controllerStep_validates {s : State} (h : (controllerStep s).tableValid = true) :
    s.tableValid = true ∨
      ∃ k c, s.ctrl = .preintegrating k c ∧ s.regs.ns ≤ k ∧ (controllerStep s).ctrl = .idle := by
  rcases controllerStep_cases s with ⟨-, he⟩ | ⟨hc, he⟩ | ⟨-, he⟩ | ⟨⟨bufs, hc⟩, he⟩ | ⟨⟨k, c, hc⟩, he⟩ | ⟨-, he⟩ <;>
    rw [he] at h ⊢
  · exact .inl h
  · simp only [dispatchStep, hc, setCtrl_tableValid] at h
    exact .inl h
  · exact .inl ((collectStep_tableValid s).symm.trans h)
  · simp only [composeStep, hc, setCtrl_tableValid, storeBytes_tableValid] at h
    exact .inl h
  · by_cases hk : k < s.regs.ns
    · rw [preintStep_entry hc hk] at h
      exact .inl h
    · rw [preintStep_commit hc hk]
      exact .inr ⟨k, c, hc, Nat.not_lt.1 hk, rfl⟩
  · exact .inl (tableValid_of_advanceStep h)

/-- After a move it is 1 only if it was before, or a PREINT came to its end: stepped by the controller, or run whole by the
host. -/
theorem agentMove_validates {m : Move} {s t : State} (h : agentMove m s = .next t) (ht : t.tableValid = true) :
    s.tableValid = true ∨ (∃ k c, s.ctrl = .preintegrating k c ∧ s.regs.ns ≤ k ∧ t.ctrl = .idle) ∨
      (m = .hostRun ∧ s.ctrl = .idle ∧ t.ctrl = .idle ∧ ∃ rest, s.ops = .write 0#32 (encode .preint) :: rest) := by
  cases m with
  | host => exact .inl ((hostStep_validates h ht).resolve_right fun ⟨hwhole, _⟩ => Bool.false_ne_true hwhole)
  | hostRun => exact (hostStep_validates h ht).imp_right fun ⟨_, hend⟩ => .inr ⟨rfl, hend⟩
  | controller =>
    cases h
    exact (controllerStep_validates ht).imp_right .inl
  | worker n =>
    cases h
    exact .inl ((workerMove_tableValid n s).symm.trans ht)
  | reset =>
    cases h
    cases ht

/-- Settles O38: a step is a move that was laid down, the default move, or nothing, and a move sets it only as the end of a
PREINT. -/
theorem onlyPreintValidatesTheTable : Obligations.OnlyPreintValidatesTheTable := fun s t h h0 ht => by
  rcases step_cases s with ⟨m, ms, hm, he⟩ | ⟨hm, m, -, he⟩ | ⟨-, -, he⟩ <;> rw [h] at he
  · rcases agentMove_validates he.symm ht with hv | hlast | ⟨rfl, hs, hidle, hops⟩
    · exact absurd hv (by simp [h0])
    · exact .inl hlast
    · exact .inr ⟨hs, hidle, .inr ⟨ms, hm⟩, hops⟩
  · rcases agentMove_validates he.symm ht with hv | hlast | ⟨-, hs, hidle, hops⟩
    · exact absurd hv (by simp [h0])
    · exact .inl hlast
    · exact .inr ⟨hs, hidle, .inl hm, hops⟩
  · cases he
    exact absurd ht (by simp [h0])

end Sys2Proof.Machine
end

section
/-! PROOFS. Sample windows, the table that PREINT leaves, and the integrated phase over one frame and over many (44 R280 to R288). -/

namespace Sys2Proof.Machine

/-! ## Sample windows (44 R280, R281) -/

/-- The start time is a rounding up: a window has begun at `t` iff its sample's share of the DotClock is covered. -/
theorem startTime_le_iff_mul {g : Regs} (hsr : 1 ≤ g.sr) {k t : Nat} : startTime g k ≤ t ↔ k * g.dotClock ≤ t * g.sr := by
  rw [startTime, ← Nat.lt_succ_iff, Nat.div_lt_iff_lt_mul hsr, Nat.succ_mul]
  omega

/-- START_TIME and SAMPLE_INDEX are each other's inverse bounds. -/
theorem startTime_le_iff {g : Regs} (hdc : 1 ≤ g.dotClock) (hsr : 1 ≤ g.sr) {k t : Nat} :
    startTime g k ≤ t ↔ k ≤ sampleIndex g t :=
  (startTime_le_iff_mul hsr).trans (Nat.le_div_iff_mul_le hdc).symm

theorem startTime_mono (g : Regs) {j k : Nat} (h : j ≤ k) : startTime g j ≤ startTime g k :=
  Nat.div_le_div_right (Nat.add_le_add_right (Nat.mul_le_mul_right _ h) _)

theorem startTime_zero {g : Regs} (hsr : 1 ≤ g.sr) : startTime g 0 = 0 :=
  Nat.le_zero.1 ((startTime_le_iff_mul hsr).2 (by simp))

theorem startTime_eq_ceil {g : Regs} (hsr : 1 ≤ g.sr) (k : Nat) :
    (startTime g k : Int) = ⌈((k : ℚ) * g.dotClock) / g.sr⌉ := by
  have hpos : (0 : ℚ) < g.sr := Nat.cast_pos.2 hsr
  have hle : ∀ t : Nat, startTime g k ≤ t ↔ ⌈((k : ℚ) * g.dotClock) / g.sr⌉ ≤ (t : Int) := fun t => by
    rw [startTime_le_iff_mul hsr, Int.ceil_le, div_le_iff₀ hpos]
    exact_mod_cast Iff.rfl
  have hnat : (⌈((k : ℚ) * g.dotClock) / g.sr⌉.toNat : Int) = ⌈((k : ℚ) * g.dotClock) / g.sr⌉ :=
    Int.toNat_of_nonneg (Int.ceil_nonneg (by positivity))
  refine le_antisymm ?_ ((hle _).1 le_rfl)
  rw [← hnat]
  exact_mod_cast (hle _).2 hnat.ge

theorem sampleIndex_eq_floor (g : Regs) (t : Nat) : (sampleIndex g t : Int) = ⌊((t : ℚ) * g.sr) / g.dotClock⌋ := by
  rw [← Nat.cast_mul, Rat.floor_natCast_div_natCast]
  rfl

/-- Sample `k` owns exactly the total indices of its window. -/
theorem sampleIndex_eq_iff {g : Regs} (hdc : 1 ≤ g.dotClock) (hsr : 1 ≤ g.sr) {k t : Nat} :
    sampleIndex g t = k ↔ startTime g k ≤ t ∧ t < startTime g (k + 1) := by
  rw [startTime_le_iff hdc hsr, ← Nat.not_le, startTime_le_iff hdc hsr]
  omega

/-- A window is empty iff its sample owns no total index: the window's first index would be its own. -/
theorem window_empty_iff {g : Regs} (hdc : 1 ≤ g.dotClock) (hsr : 1 ≤ g.sr) (k : Nat) :
    startTime g k = startTime g (k + 1) ↔ ∀ t, sampleIndex g t ≠ k := by
  simp only [ne_eq, sampleIndex_eq_iff hdc hsr]
  constructor
  · intro h t
    omega
  · intro h
    have hfirst := h (startTime g k)
    have hmono := startTime_mono g (Nat.le_add_right k 1)
    omega

/-- Settles O57: everything follows from START_TIME and SAMPLE_INDEX being each other's inverse bounds. -/
theorem sampleWindow : Obligations.SampleWindow := fun _ hdc hsr =>
  ⟨startTime_eq_ceil hsr, startTime_zero hsr, sampleIndex_eq_floor _, fun _ _ => sampleIndex_eq_iff hdc hsr,
    window_empty_iff hdc hsr⟩

/-! ## The table that PREINT leaves (44 R283) -/

/-- The checks of PREINT leave a DotClock and a sample rate of at least 1. -/
theorem clocks_pos_of_preintChecks {g : Regs} (h : firstFailing (preintChecks g) = none) :
    1 ≤ g.framePixels ∧ 1 ≤ g.dotClock ∧ 1 ≤ g.sr := by
  obtain ⟨hgeometry, hsr, -⟩ := (preintChecks_none_iff g).1 h
  obtain ⟨hht, hvt, -, -, hvs, -⟩ := (geometryChecks_none_iff g).1 hgeometry
  have hpixels := Nat.mul_pos hht hvt
  exact ⟨hpixels, Nat.mul_pos hpixels hvs, hsr⟩

/-- A PhaseValue times a natural number, added on before or after the wrap. -/
theorem ofNat_add_toNat_mul (a n : Nat) (p : Phase) :
    BitVec.ofNat 32 (a + p.toNat * n) = BitVec.ofNat 32 a + p * BitVec.ofNat 32 n := by
  rw [BitVec.ofNat_add, BitVec.ofNat_mul, BitVec.ofNat_toNat, BitVec.setWidth_eq]

/-- A window's part of the pass, in the ring mod 2^32. -/
theorem nextCum_eq (s : State) (k : Nat) (c : Phase) : nextCum s.regs k (preintEntry s k c) =
    c + incAt s k * BitVec.ofNat 32 (startTime s.regs (k + 1) - startTime s.regs k) := by
  rw [nextCum, padd, pscale_eq_mul, ← Int.ofNat_sub (startTime_mono s.regs (Nat.le_succ k)), BitVec.ofInt_natCast]
  rfl

/-- CUM: the seed and, for each window before, its increment times its length. -/
theorem cumAt_eq (s : State) (k : Nat) : cumAt s k = BitVec.ofNat 32 (s.regs.fmSeed.toNat +
    ∑ j ∈ Finset.range k, (incAt s j).toNat * (startTime s.regs (j + 1) - startTime s.regs j)) := by
  induction k with
  | zero => simp [cumAt]
  | succ k ih =>
    rw [cumAt, nextCum_eq, ih, Finset.sum_range_succ, ← Nat.add_assoc, ofNat_add_toNat_mul]

/-- Settles O9, from what the pass leaves and the closed form of CUM. -/
theorem preintBuildsTheTable : Obligations.PreintBuildsTheTable := fun s hidle hchecks => by
  obtain ⟨hrest, htable, hbytes⟩ := preintRun_spec ((configError_preint_none_iff s.regs).1 hchecks)
  refine ⟨preintRun s, exec_accepted hidle .preint, ?_, fun k hk => ?_, hbytes⟩
  · rwa [← hidle] at hrest
  · rw [htable k hk]
    exact ⟨rfl, rfl, by rw [← BitVec.toNat_ofNat, ← cumAt_eq]; rfl, BitVec.toNat_ofNat ..⟩

/-! ## The lookup and the sum over pixels (44 R284, R285) -/

/-- The integrated phase at `t`, pixel by pixel from index 0, before it wraps (44 R285). -/
def pixelSum (s : State) (t : Nat) : Nat := ∑ j ∈ Finset.range t, (incAt s (sampleIndex s.regs j)).toNat

/-- Within a window every pixel adds its sample's increment. -/
theorem pixelSum_in_window {s : State} (hdc : 1 ≤ s.regs.dotClock) (hsr : 1 ≤ s.regs.sr) {k t : Nat}
    (hlo : startTime s.regs k ≤ t) (hhi : t ≤ startTime s.regs (k + 1)) :
    pixelSum s t = pixelSum s (startTime s.regs k) + (incAt s k).toNat * (t - startTime s.regs k) := by
  have hown : ∀ j ∈ Finset.Ico (startTime s.regs k) t, (incAt s (sampleIndex s.regs j)).toNat = (incAt s k).toNat := by
    intro j hj
    obtain ⟨hj1, hj2⟩ := Finset.mem_Ico.1 hj
    rw [(sampleIndex_eq_iff hdc hsr).2 ⟨hj1, hj2.trans_le hhi⟩]
  rw [pixelSum, pixelSum, ← Finset.sum_range_add_sum_Ico _ hlo, Finset.sum_congr rfl hown, Finset.sum_const, Nat.card_Ico,
    smul_eq_mul, Nat.mul_comm]

/-- CUM is the sum over the pixels before the window. -/
theorem cumAt_eq_pixelSum {s : State} (hdc : 1 ≤ s.regs.dotClock) (hsr : 1 ≤ s.regs.sr) (k : Nat) :
    cumAt s k = BitVec.ofNat 32 (s.regs.fmSeed.toNat + pixelSum s (startTime s.regs k)) := by
  induction k with
  | zero => simp [cumAt, startTime_zero hsr, pixelSum]
  | succ k ih =>
    rw [cumAt, nextCum_eq, ih, pixelSum_in_window hdc hsr (startTime_mono _ (Nat.le_succ k)) le_rfl, ← Nat.add_assoc,
      ofNat_add_toNat_mul]

/-- The line that the pass's entry begins passes through the sum at every total index of its window and at the window's end. -/
theorem entryPhase_preintEntry {s : State} (hdc : 1 ≤ s.regs.dotClock) (hsr : 1 ≤ s.regs.sr) {k t : Nat}
    (hlo : startTime s.regs k ≤ t) (hhi : t ≤ startTime s.regs (k + 1)) :
    entryPhase (preintEntry s k (cumAt s k)) t = BitVec.ofNat 32 (s.regs.fmSeed.toNat + pixelSum s t) := by
  have hlength : BitVec.ofNat 32 t - BitVec.ofNat 32 (startTime s.regs k) = BitVec.ofNat 32 (t - startTime s.regs k) := by
    rw [sub_eq_iff_eq_add', ← BitVec.ofNat_add, Nat.add_sub_cancel' hlo]
  have hline : entryPhase (preintEntry s k (cumAt s k)) t =
      cumAt s k + incAt s k * (BitVec.ofNat 32 t - BitVec.ofNat 32 (startTime s.regs k)) := entryPhase_eq _ t
  rw [hline, hlength, cumAt_eq_pixelSum hdc hsr, pixelSum_in_window hdc hsr hlo hhi, ← Nat.add_assoc,
    ofNat_add_toNat_mul]

/-- The state `v` shows a lookup what PREINT left when it ran in `s`: a valid table, the registers that choose the entry, and
the lines that the pass's entries begin (44 R283, R284, R287). -/
structure ShowsTable (s v : State) : Prop where
  tableValid : v.tableValid = true
  ns : v.regs.ns = s.regs.ns
  framePixels : v.regs.framePixels = s.regs.framePixels
  sampleIndex : ∀ t, sampleIndex v.regs t = sampleIndex s.regs t
  line : ∀ k < s.regs.ns, ∀ t, entryPhase (tblEntry v k) t = entryPhase (preintEntry s k (cumAt s k)) t

/-- It is so right after the PREINT, and as long as all that END_PHASE reads is left alone. -/
theorem showsTable_of_sameCarry {s u v : State} (hidle : s.ctrl = .idle) (hpass : firstFailing (preintChecks s.regs) = none)
    (hexec : exec .preint s = .next u) (h : SameCarry u v) : ShowsTable s v := by
  obtain ⟨hrest, htable, -⟩ := preintRun_spec hpass
  rw [exec_accepted hidle] at hexec
  obtain rfl : preintRun s = u := by cases hexec; rfl
  have hregs : (preintRun s).regs = s.regs := by rw [hrest]
  have hvalid : (preintRun s).tableValid = true := by rw [hrest]
  obtain ⟨htv, hns, hsr, hht, hvt, hvs, hentries⟩ := h
  rw [hregs] at hns hsr hht hvt hvs hentries
  refine ⟨htv.symm.trans hvalid, ?_, ?_, fun t => ?_, fun k hk t => ?_⟩
  · simp only [Regs.ns, hns]
  · simp only [Regs.framePixels, hht, hvt]
  · simp only [sampleIndex, Regs.sr, Regs.dotClock, hsr, hht, hvt, hvs]
  · obtain ⟨hinc, hcum, hstart⟩ := hentries k hk
    rw [entryPhase_eq, ← hinc, ← hcum, ← hstart, ← entryPhase_eq, htable k hk]

theorem sameCarry_refl (s : State) : SameCarry s s := ⟨rfl, rfl, rfl, rfl, rfl, rfl, fun _ _ => ⟨rfl, rfl, rfl⟩⟩

/-- One table lookup gives the whole sum (44 R285). -/
theorem ipcm_of_showsTable {s v : State} (hpass : firstFailing (preintChecks s.regs) = none) (h : ShowsTable s v) {t : Nat}
    (ht : sampleIndex v.regs t < v.regs.ns) : ipcm v t = .ok (BitVec.ofNat 32 (s.regs.fmSeed.toNat + pixelSum s t)) := by
  obtain ⟨-, hdc, hsr⟩ := clocks_pos_of_preintChecks hpass
  obtain ⟨-, hi⟩ := lookups_in_window ht
  obtain ⟨hlo, hhi⟩ := (sampleIndex_eq_iff hdc hsr).1 (h.sampleIndex t).symm
  rw [h.ns] at ht
  rw [hi, h.line _ ht, entryPhase_preintEntry hdc hsr hlo hhi.le]

/-- The carry is the sum over the whole frame, the last pixel's line followed to the seam (44 R287). -/
theorem endPhase_of_showsTable {s v : State} (hpass : firstFailing (preintChecks s.regs) = none) (h : ShowsTable s v)
    {ph : Phase} (hph : endPhase v = .ok ph) :
    ph = BitVec.ofNat 32 (s.regs.fmSeed.toNat + pixelSum s s.regs.framePixels) := by
  obtain ⟨hpixels, hdc, hsr⟩ := clocks_pos_of_preintChecks hpass
  obtain ⟨hlo, hhi⟩ := (sampleIndex_eq_iff hdc hsr).1 (h.sampleIndex (s.regs.framePixels - 1)).symm
  simp only [endPhase, h.framePixels, h.ns] at hph
  split at hph
  · cases hph
  · next hk =>
    rw [h.line _ (Nat.not_le.1 hk), entryPhase_preintEntry hdc hsr (by omega) (by omega)] at hph
    cases hph
    rfl

/-- Settles O59: the lookup is the whole sum in the very state that PREINT answers. -/
theorem lookupEqualsSequentialSum : Obligations.LookupEqualsSequentialSum := fun s u t hidle hchecks hexec ht => by
  have hpass := (configError_preint_none_iff s.regs).1 hchecks
  have hshows := showsTable_of_sameCarry hidle hpass hexec (sameCarry_refl u)
  exact ⟨_, ipcm_of_showsTable hpass hshows ht, BitVec.toNat_ofNat ..⟩

/-! ## The phase over frames (44 R287, R288) -/

/-- An ADVANCE that ends in IDLE was accepted and committed; with a valid table the seed is the carry (45 R333). -/
theorem endPhase_of_advance {s t : State} (h : exec .advance s = .next t) (hidle : t.ctrl = .idle)
    (hv : s.tableValid = true) : endPhase s = .ok t.regs.fmSeed := by
  have hs : s.ctrl = .idle := by
    by_contra hs
    rw [exec_dropped hs] at h
    cases h
    exact hs hidle
  rw [exec_accepted hs] at h
  obtain rfl : advanceRun s = t := by cases h; rfl
  cases hf : firstFailing (advanceChecks s.regs) with
  | some off =>
    rw [advanceRun_config hf] at hidle
    cases hidle
  | none =>
    rcases advanceRun_spec hf with ⟨i, k, -, he⟩ | ⟨seed, hseed, he⟩ <;> rw [he] at hidle ⊢
    · cases hidle
    · rwa [advanceSeed, if_pos hv] at hseed

/-- A frame: a PREINT in `s` that leaves `u`, and an ADVANCE in `v` that commits and leaves `w`, with all that END_PHASE reads
left alone between the two. -/
structure IsFrame (s u v w : State) : Prop where
  idle : s.ctrl = .idle
  checks : configError s.regs False True = none
  preint : exec .preint s = .next u
  between : SameCarry u v
  advance : exec .advance v = .next w
  ends : w.ctrl = .idle

section Frame
variable {s u v w : State} (h : IsFrame s u v w)
include h

theorem IsFrame.pass : firstFailing (preintChecks s.regs) = none := (configError_preint_none_iff s.regs).1 h.checks

theorem IsFrame.endPhase_eq : endPhase v = .ok w.regs.fmSeed :=
  endPhase_of_advance h.advance h.ends (showsTable_of_sameCarry h.idle h.pass h.preint h.between).tableValid

/-- The seed that a frame leaves is the one it found and every pixel's increment. -/
theorem IsFrame.seed_eq :
    w.regs.fmSeed = BitVec.ofNat 32 (s.regs.fmSeed.toNat + pixelSum s s.regs.framePixels) :=
  endPhase_of_showsTable h.pass (showsTable_of_sameCarry h.idle h.pass h.preint h.between) h.endPhase_eq

theorem IsFrame.ipcm_eq {x : State} (hx : SameCarry u x) {t : Nat} (ht : sampleIndex x.regs t < x.regs.ns) :
    ipcm x t = .ok (BitVec.ofNat 32 (s.regs.fmSeed.toNat + pixelSum s t)) :=
  ipcm_of_showsTable h.pass (showsTable_of_sameCarry h.idle h.pass h.preint hx) ht

end Frame

/-- A seed that has wrapped may be added to as if it had not. -/
theorem ofNat_toNat_add (a b : Nat) : BitVec.ofNat 32 ((BitVec.ofNat 32 a).toNat + b) = BitVec.ofNat 32 (a + b) := by
  rw [BitVec.ofNat_add, BitVec.ofNat_toNat, BitVec.setWidth_eq, ← BitVec.ofNat_add]

/-- The seed that frame `m` finds: the first seed and the increments of every pixel of the frames before. -/
theorem seed_of_frames {n : Nat} {pre post mid done : Nat → State}
    (hframe : ∀ m ≤ n, IsFrame (pre m) (post m) (mid m) (done m))
    (hseed : ∀ m < n, (pre (m + 1)).regs.fmSeed = (done m).regs.fmSeed) {m : Nat} (hm : m ≤ n) :
    (pre m).regs.fmSeed = BitVec.ofNat 32 ((pre 0).regs.fmSeed.toNat +
      ∑ i ∈ Finset.range m, pixelSum (pre i) (pre i).regs.framePixels) := by
  induction m with
  | zero => simp
  | succ m ih =>
    rw [hseed m hm, (hframe m (Nat.le_of_lt hm)).seed_eq, ih (Nat.le_of_lt hm), ofNat_toNat_add, Finset.sum_range_succ,
      Nat.add_assoc]

/-! ## What leaves the carry alone (44 R286) -/

/-- TABLE_VALID, all registers but the error registers, and every byte below the frame buffer are as they were. -/
theorem sameCarry_of_below {s t : State} (hv : s.tableValid = t.tableValid)
    (hr : t.regs = { s.regs with errCode := t.regs.errCode, errIndex := t.regs.errIndex, errSample := t.regs.errSample })
    (hb : ∀ x < fbBase, s.byte x = t.byte x) : SameCarry s t := by
  refine ⟨hv, by rw [hr], by rw [hr], by rw [hr], by rw [hr], by rw [hr], fun k hk => ?_⟩
  obtain ⟨-, hend⟩ := tblAddr_ns_le s.regs hk.le
  rw [tblEntry_eq_of_bytes (s := s) (t := t) fun x _ hx => hb x (hx.trans_le hend)]
  exact ⟨rfl, rfl, rfl⟩

theorem sameCarry_renderRun (s : State) : SameCarry s (renderRun s) := by
  by_cases ha : RenderAccepted s
  · rcases renderRun_spec ha with ⟨-, t, k, -, -, -, he⟩ | ⟨gs, -, he⟩ <;> rw [he]
    · exact sameCarry_of_below rfl rfl fun _ _ => rfl
    · exact sameCarry_of_below rfl rfl fun x hx => (byte_storeBytes_outside s (.inl hx)).symm
  · obtain ⟨e, i, he⟩ := renderBegin_rejected ha
    rw [renderRun, he, render_phases_halted rfl]
    exact sameCarry_of_below rfl rfl fun _ _ => rfl

theorem sameCarry_exec {i : Instr} {s t : State} (hi : i = .nop ∨ i = .render) (h : exec i s = .next t) : SameCarry s t := by
  by_cases hc : s.ctrl = .idle
  · rw [exec_accepted hc] at h
    cases h
    rcases hi with rfl | rfl
    · exact sameCarry_refl s
    · exact sameCarry_renderRun s
  · rw [exec_dropped hc] at h
    cases h
    exact sameCarry_of_below rfl rfl fun _ _ => rfl

/-- Settles O60: frame by frame the seed grows by the frame's sum, and a lookup adds its own pixels to the seed. -/
theorem carryIsContinuous : Obligations.CarryIsContinuous := by
  refine ⟨fun n pre post mid done hframes hseed => ?_, fun i s t => sameCarry_exec⟩
  have hframe : ∀ m ≤ n, IsFrame (pre m) (post m) (mid m) (done m) := fun m hm => by
    obtain ⟨hidle, hchecks, hpreint, hbetween, hadvance, hends⟩ := hframes m hm
    exact ⟨hidle, hchecks, hpreint, hbetween, hadvance, hends⟩
  refine ⟨fun m hm u t hu ht => ⟨_, (hframe m hm).ipcm_eq hu ht, ?_⟩, fun m hm u hu hns => ?_⟩
  · rw [seed_of_frames hframe hseed hm, ofNat_toNat_add]
    exact BitVec.toNat_ofNat ..
  · have hfirst : sampleIndex u.regs 0 < u.regs.ns := by simpa [sampleIndex] using hns
    refine ⟨_, (hframe m hm.le).endPhase_eq, ?_⟩
    rw [(hframe (m + 1) hm).ipcm_eq hu hfirst, hseed m hm]
    simp [pixelSum]

end Sys2Proof.Machine
end

section
/-! PROOFS. What a write to CMD does: the checks of the commands as the one table of 60 R382, the step that runs or begins a
command, NOP, and dropped commands (45 R320, R321). -/

namespace Sys2Proof.Machine

/-! ## The table of the checks (60 R382) -/

/-- The table row by row, each written as what breaks it, is the list of checks that the commands go through. -/
theorem configError_eq_firstFailing (g : Regs) (render pcm : Prop) [Decidable render] [Decidable pcm] :
    configError g render pcm = firstFailing (geometryChecks g ++ (if render then renderChecks g else []) ++
      (if pcm then pcmChecks g else [])) := by
  by_cases hr : render <;> by_cases hp : pcm <;>
    simp only [configError, hr, hp, true_and, false_and, if_true, if_false, geometryChecks, renderChecks, pcmChecks,
      List.cons_append, List.nil_append, List.append_nil, firstFailing_cons, firstFailing_nil, Bool.and_eq_true,
      decide_eq_true_eq, ← Nat.not_lt, Nat.lt_one_iff, ← not_or, ite_not] <;> rfl

theorem preintChecks_eq_configError (g : Regs) : firstFailing (preintChecks g) = configError g False True := by
  simp [configError_eq_firstFailing, preintChecks]

theorem advanceChecks_eq_configError (g : Regs) : firstFailing (advanceChecks g) = configError g False False := by
  simp [configError_eq_firstFailing, advanceChecks]

/-- The modes that use PCM, as the rule lists them (42 R224). -/
theorem usesPcm_iff (g : Regs) : g.usesPcm = true ↔ ReadsPcm g := by
  unfold Regs.usesPcm ReadsPcm
  generalize g.src = src
  generalize g.amInfo = amInfo
  decide +revert

theorem renderAllChecks_eq_configError (g : Regs) :
    firstFailing (renderAllChecks g) = configError g True (ReadsPcm g) := by
  simp only [configError_eq_firstFailing, renderAllChecks, usesPcm_iff, if_true]

/-- FM is source 4 (10 R38). -/
theorem sourceOf_eq_fm_iff (b : BitVec 3) : sourceOf b = some .fm ↔ b = 4#3 := by decide +revert

/-! ## The step that writes to CMD (45 R320) -/

/-- The host's write to CMD is answered OK and its word taken as a command. -/
theorem hostStep_command {s : State} {w : Word} {rest : List HostOp} (ho : s.ops = .write 0#32 w :: rest) (whole : Bool) :
    hostStep whole s = commandWrite whole w (answer .ok { s with ops := rest }) := by
  simp only [hostStep, ho, if_pos ((targetOf_cmd_iff _ _).2 rfl)]

theorem commandWrite_of_decode {w : Word} {i : Instr} (hd : decode w = .ok i) (whole : Bool) (s : State) :
    commandWrite whole w s = if whole then exec i s else .next (beginCommand i s) := by
  simp only [commandWrite, hd]

/-- Whatever word it is, it is dropped unless the block is IDLE (60 R386, R387). -/
theorem commandWrite_dropped {s : State} (h : s.ctrl ≠ .idle) (whole : Bool) (w : Word) :
    commandWrite whole w s = .next { s with cmdReject := true } := by
  rcases commandWrite_cases whole w s with ⟨i, -, -, he⟩ | ⟨i, -, -, he⟩ | ⟨e, -, he⟩ <;> rw [he]
  · exact exec_dropped h i
  · rw [beginCommand_dropped h]
  · rw [illegalCommand, accept_dropped h]

/-- With nothing laid down and the block not BUSY, the host performs its next operation with its command run whole (log 8). -/
theorem step_default_host {s : State} (hm : s.moves = []) (hb : s.ctrl.busy = false) (ho : s.ops ≠ []) :
    step s = hostStep true s := by
  have hd : defaultMove s = some .hostRun := by
    cases hc : s.ctrl <;> simp_all [defaultMove, Ctrl.busy]
  simp only [step, machineStep, hm, hd, agentMove]

/-- A write to CMD that the schedule runs whole. -/
theorem step_hostRun_command {s : State} {w : Word} {i : Instr} {rest : List HostOp} {ms : List Move}
    (ho : s.ops = .write 0#32 w :: rest) (hd : decode w = .ok i) (hm : s.moves = .hostRun :: ms) :
    step s = exec i { s with ops := rest, moves := ms, replies := .ok :: s.replies } := by
  have hstep : step s = hostStep true { s with moves := ms } := by simp only [step, machineStep, hm, agentMove]
  rw [hstep, hostStep_command (s := { s with moves := ms }) ho, commandWrite_of_decode hd]
  rfl

/-- Settles O3: the step takes the word as a command, run whole or begun, and from IDLE a command that is begun is the outcome of
its checks. -/
theorem stepRunsTheDecodedCommand : Obligations.StepRunsTheDecodedCommand := by
  refine ⟨fun s w i rest ms ho hd => ⟨step_hostRun_command ho hd, fun hm hb => ?_, fun hm => ?_⟩, fun s w i hw hd => ?_,
    fun s h => ?_⟩
  · rw [step_default_host hm hb (by simp [ho]), hostStep_command ho, commandWrite_of_decode hd]
    rfl
  · have hstep : step s = hostStep false { s with moves := ms } := by simp only [step, machineStep, hm, agentMove]
    rw [hstep, hostStep_command (s := { s with moves := ms }) ho, commandWrite_of_decode hd]
    rfl
  · rw [State.withFetchWord, Nat.mod_eq_of_lt hw]
    exact step_hostRun_command (s := placeCommand (BitVec.ofNat 32 w) s) rfl hd rfl
  · simp only [beginCommand_accepted h, ← preintChecks_eq_configError, ← renderAllChecks_eq_configError,
      ← advanceChecks_eq_configError, ← sourceOf_eq_fm_iff]
    exact ⟨rfl, rfl, rfl, rfl⟩

/-- Settles O7: an accepted NOP is the identity, and it is accepted or dropped like every command. -/
theorem nopChangesNothing : Obligations.NopChangesNothing :=
  ⟨fun _ h => exec_accepted h .nop, decode_of_reservedField_ne_zero (by decide),
    fun _ hb => exec_dropped ((ctrl_busy_iff _).1 hb).1 .nop⟩

/-- Settles O8: outside IDLE every word is dropped, whole or begun, a command or not. -/
theorem commandDroppedUnlessIdle : Obligations.CommandDroppedUnlessIdle := by
  refine ⟨fun i s h => exec_dropped h i, fun s w rest ms h ho hturn => ?_⟩
  obtain ⟨whole, hstep⟩ := step_of_hostToMove hturn
  rw [hstep, hostStep_command (s := { s with moves := ms }) ho, commandWrite_dropped (by exact h)]
  rfl

end Sys2Proof.Machine
end

section
/-! PROOFS. ADVANCE (45 R333): the one step of its work, and its three outcomes once the checks pass. -/

namespace Sys2Proof.Machine

/-- A starting angle one frame on, in the ring mod 2^32 (41 R195). -/
theorem oscNextFrame_eq (o : Osc) (c : Nat) : oscNextFrame o c = { o with start := o.start + o.ppp * BitVec.ofNat 32 c } := by
  simp only [oscNextFrame, oscNextStart, padd, pscale_eq_mul, BitVec.ofInt_natCast]

section Accepted
variable {s : State} (hidle : s.ctrl = .idle) (hpass : configError s.regs False False = none)
include hidle hpass

theorem exec_advance_commit {seed : Phase} (hseed : advanceSeed s = .ok seed) :
    exec .advance s = .next (advanceCommit seed s) := by
  rw [← advanceChecks_eq_configError] at hpass
  rw [exec_accepted hidle]
  rcases advanceRun_spec hpass with ⟨t, k, hfail, -⟩ | ⟨seed', hok, he⟩
  · cases hseed.symm.trans hfail
  · cases hseed.symm.trans hok
    exact congrArg _ he

theorem exec_advance_range {t k : Nat} (hseed : advanceSeed s = .fail t k) :
    exec .advance s = .next (raiseRange t k s) := by
  rw [← advanceChecks_eq_configError] at hpass
  rw [exec_accepted hidle]
  rcases advanceRun_spec hpass with ⟨t', k', hfail, he⟩ | ⟨seed', hok, -⟩
  · cases hseed.symm.trans hfail
    exact congrArg _ he
  · cases hseed.symm.trans hok

end Accepted

theorem advanceSeed_carry {s : State} (hv : s.tableValid = true) : advanceSeed s = endPhase s := if_pos hv

theorem advanceSeed_kept {s : State} (hv : s.tableValid = false) : advanceSeed s = .ok s.regs.fmSeed :=
  if_neg (by simp [hv])

/-- Settles O18: the carry's lookup is in the window, so ADVANCE commits it. -/
theorem advanceCommitsTheCarry : Obligations.AdvanceCommitsTheCarry := by
  rintro s _ _ _ hidle hpass hv rfl rfl hk rfl
  have hend : endPhase s = _ := if_neg (Nat.not_le.2 hk)
  rw [exec_advance_commit hidle hpass ((advanceSeed_carry hv).trans hend)]
  simp only [advanceCommit, oscNextFrame_eq, entryPhase_eq, ← hidle]
  rfl

/-- Settles O19: with no valid table the seed that is committed is FM_SEED as it was. -/
theorem advanceKeepsSeedWithoutTable : Obligations.AdvanceKeepsSeedWithoutTable := by
  rintro s _ hidle hpass hv rfl
  rw [exec_advance_commit hidle hpass (advanceSeed_kept hv)]
  simp only [advanceCommit, oscNextFrame_eq, ← hidle, ← hv]
  rfl

/-- Settles O20: the carry's lookup is past the window, so ADVANCE raises RANGE. -/
theorem advanceRangeError : Obligations.AdvanceRangeError := by
  rintro s _ _ hidle hpass hv rfl rfl hk
  have hend : endPhase s = _ := if_pos hk
  rw [exec_advance_range hidle hpass ((advanceSeed_carry hv).trans hend)]
  rfl

end Sys2Proof.Machine
end

section
/-! PROOFS. The arithmetic of a frame: where the visible indices lie, how they are shared out, and the gray byte of an amplitude
(45 R323 to R325, R330). -/

namespace Sys2Proof.Machine

/-! ## V2T (45 R323) -/

section Layout
variable {g : Regs} (hpos : 1 ≤ g.hDisplay.toNat) (hle : g.hDisplay.toNat ≤ g.hTotal.toNat)
include hpos hle

/-- A visible index and its total index are in the same row. -/
theorem v2t_div (v : Nat) : v2t g v / g.hTotal.toNat = v / g.hDisplay.toNat := by
  have hcol : v % g.hDisplay.toNat < g.hTotal.toNat := (Nat.mod_lt v hpos).trans_le hle
  rw [v2t, Nat.add_comm, Nat.add_mul_div_right _ _ (hpos.trans hle), Nat.div_eq_of_lt hcol, Nat.zero_add]

/-- A visible index and its total index are in the same column. -/
theorem v2t_mod (v : Nat) : v2t g v % g.hTotal.toNat = v % g.hDisplay.toNat := by
  have hcol : v % g.hDisplay.toNat < g.hTotal.toNat := (Nat.mod_lt v hpos).trans_le hle
  rw [v2t, Nat.mul_add_mod_of_lt hcol]

/-- Within a row the column rises, and a later row begins beyond the visible part of the one before. -/
theorem v2t_strictMono : StrictMono (v2t g) := fun v w hvw => by
  have hv := Nat.div_add_mod v g.hDisplay.toNat
  have hw := Nat.div_add_mod w g.hDisplay.toNat
  rcases (Nat.div_le_div_right (c := g.hDisplay.toNat) hvw.le).eq_or_lt with hrow | hrow
  · rw [← hrow] at hw
    simp only [v2t, ← hrow]
    omega
  · have hcol : v % g.hDisplay.toNat < g.hTotal.toNat := (Nat.mod_lt v hpos).trans_le hle
    calc v2t g v
      _ < (v / g.hDisplay.toNat + 1) * g.hTotal.toNat := by rw [Nat.succ_mul]; exact Nat.add_lt_add_left hcol _
      _ ≤ w / g.hDisplay.toNat * g.hTotal.toNat := Nat.mul_le_mul_right _ hrow
      _ ≤ v2t g w := Nat.le_add_right _ _

/-- The total indices of the visible columns and rows, and no others, are reached. -/
theorem exists_v2t_eq_iff (t : Nat) : (∃ v < g.visiblePixels, v2t g v = t) ↔
    t % g.hTotal.toNat < g.hDisplay.toNat ∧ t / g.hTotal.toNat < g.vDisplay.toNat := by
  constructor
  · rintro ⟨v, hv, rfl⟩
    rw [v2t_div hpos hle, v2t_mod hpos hle]
    exact ⟨Nat.mod_lt v hpos, Nat.div_lt_of_lt_mul hv⟩
  · rintro ⟨hcol, hrow⟩
    refine ⟨g.hDisplay.toNat * (t / g.hTotal.toNat) + t % g.hTotal.toNat, ?_, ?_⟩
    · calc g.hDisplay.toNat * (t / g.hTotal.toNat) + t % g.hTotal.toNat
        _ < g.hDisplay.toNat * (t / g.hTotal.toNat + 1) := by rw [Nat.mul_succ]; exact Nat.add_lt_add_left hcol _
        _ ≤ g.visiblePixels := Nat.mul_le_mul_left _ hrow
    · rw [v2t, Nat.mul_add_div hpos, Nat.mul_add_mod, Nat.mod_eq_of_lt hcol, Nat.div_eq_of_lt hcol, Nat.add_zero,
        Nat.div_add_mod']

end Layout

/-- The last visible pixel bounds them all. -/
theorem v2t_le_last {g : Regs} (hpos : 1 ≤ g.hDisplay.toNat) {v : Nat} (hv : v < g.visiblePixels) :
    v2t g v ≤ (g.vDisplay.toNat - 1) * g.hTotal.toNat + g.hDisplay.toNat - 1 := by
  have hcol := Nat.mod_lt v hpos
  have hrow : v / g.hDisplay.toNat * g.hTotal.toNat ≤ (g.vDisplay.toNat - 1) * g.hTotal.toNat :=
    Nat.mul_le_mul_right _ (Nat.le_sub_one_of_lt (Nat.div_lt_of_lt_mul hv))
  rw [v2t]
  omega

/-- Settles O16: V2T keeps the row and the column of a visible index, and the rest is where rows and columns lie. -/
theorem visibleIndexLayout : Obligations.VisibleIndexLayout := fun g hpos hle _ hv => by
  refine ⟨fun _ => rfl, fun he v => ?_, fun _ _ h => v2t_strictMono hpos hle h,
    fun v h => ⟨v2t_le_last hpos h, v2t_lt_framePixels hle hv h⟩, exists_v2t_eq_iff hpos hle⟩
  rw [v2t, he, Nat.div_add_mod']

/-! ## The partition (45 R325, R330) -/

/-- The chunks of a contiguous run lie within it. -/
theorem contiguous_bounds {a b : Nat} {l : List (Nat × Nat)} (h : Contiguous a l b) :
    a ≤ b ∧ ∀ c ∈ l, a ≤ c.1 ∧ c.2 ≤ b := by
  induction l generalizing a with
  | nil => exact ⟨Nat.le_of_eq h, fun c hc => absurd hc List.not_mem_nil⟩
  | cons x l ih =>
    obtain ⟨rfl, hx, hrest⟩ := h
    obtain ⟨hle, hl⟩ := ih hrest
    refine ⟨hx.trans hle, List.forall_mem_cons.2 ⟨⟨le_rfl, hle⟩, fun c hc => ?_⟩⟩
    exact ⟨hx.trans (hl c hc).1, (hl c hc).2⟩

/-- An index of a contiguous run of chunks is in one chunk: the first that ends beyond it. -/
theorem contiguous_existsUnique {a b v : Nat} {l : List (Nat × Nat)} (h : Contiguous a l b) (ha : a ≤ v) (hb : v < b) :
    ∃! j : Nat, ∃ c : Nat × Nat, l[j]? = some c ∧ c.1 ≤ v ∧ v < c.2 := by
  induction l generalizing a with
  | nil => exact absurd (h ▸ ha) (Nat.not_le.2 hb)
  | cons x l ih =>
    obtain ⟨rfl, -, hrest⟩ := h
    rcases Nat.lt_or_ge v x.2 with hv | hv
    · refine ⟨0, ⟨x, rfl, ha, hv⟩, ?_⟩
      rintro (_ | j) ⟨c, hc, hlo, -⟩
      · rfl
      · have := ((contiguous_bounds hrest).2 c (List.mem_of_getElem? hc)).1
        omega
    · obtain ⟨j, hj, huniq⟩ := ih hrest hv
      refine ⟨j + 1, hj, ?_⟩
      rintro (_ | i) ⟨c, hc, hlo, hhi⟩
      · cases hc
        omega
      · exact congrArg (· + 1) (huniq i ⟨c, hc, hlo, hhi⟩)

theorem partition_length (p t : Nat) : (partition p t).length = if p % t = 0 then t else t + 1 := by
  by_cases h : p % t = 0 <;> simp [partition, h]

/-- Settles O17: the chunks follow one another without a gap from 0 to P. -/
theorem partitionCoversOnce : Obligations.PartitionCoversOnce := fun p t ht => by
  have hcontiguous := partition_contiguous p t (Nat.ne_of_gt ht)
  exact ⟨fun v hv => contiguous_existsUnique hcontiguous (Nat.zero_le v) hv,
    fun c hc => ⟨contiguous_le hcontiguous c hc, ((contiguous_bounds hcontiguous).2 c hc).2⟩, partition_length p t⟩

/-! ## GRAY (45 R324) -/

/-- The floor of GRAY is a byte for every amplitude. -/
theorem gray_floor_mem {a : ExactReal} (h : a.IsAmplitude) :
    0 ≤ ⌊255 / 2 * a.val + 128⌋ ∧ ⌊255 / 2 * a.val + 128⌋ < 256 := by
  obtain ⟨hlo, hhi⟩ := h
  rw [Int.le_floor, Int.floor_lt]
  constructor <;> push_cast <;> linarith

theorem gray_toNat {a : ExactReal} (h : a.IsAmplitude) : ((gray a).toNat : Int) = ⌊255 / 2 * a.val + 128⌋ := by
  obtain ⟨hlo, hhi⟩ := gray_floor_mem h
  rw [gray_eq, BitVec.toNat_ofInt]
  omega

/-- GRAY at a known amplitude. -/
theorem gray_of_val {a : ExactReal} {x : ℝ} (n : Int) (h : a.val = x) (hlo : n ≤ 255 / 2 * x + 128)
    (hhi : 255 / 2 * x + 128 < n + 1) : gray a = BitVec.ofInt 8 n := by
  rw [gray_eq, h, Int.floor_eq_iff.2 ⟨hlo, hhi⟩]

/-- Settles O55: the floor is a byte, and the corner cases are its values. -/
theorem grayIsExactAndBounded : Obligations.GrayIsExactAndBounded := fun a =>
  ⟨fun hlo hhi => gray_toNat ⟨hlo, hhi⟩,
    fun h => gray_of_val 0 h (by norm_num) (by norm_num), fun h => gray_of_val 128 h (by norm_num) (by norm_num),
    fun h => gray_of_val 255 h (by norm_num) (by norm_num), fun h => gray_of_val 129 h (by norm_num) (by norm_num),
    fun h => gray_of_val 127 h (by norm_num) (by norm_num), fun h => gray_of_val 159 h (by norm_num) (by norm_num)⟩

end Sys2Proof.Machine
end

section
/-! PROOFS. RENDER: what each pixel samples to, and the frame or the RANGE error that follows from the pixels alone, in whatever
chunks they are made (45 R322 to R332, R337). -/

namespace Sys2Proof.Machine

/-! ## Acceptance (60 R382, R383) -/

theorem renderAccepted_iff (s : State) : RenderAccepted s ↔
    configError s.regs True (ReadsPcm s.regs) = none ∧ (s.regs.src = 4#3 → s.tableValid = true) := by
  rw [RenderAccepted, renderAllChecks_eq_configError, sourceOf_eq_fm_iff]

/-! ## The samples of the modes that use PCM (42 R223, R224) -/

section Signal
variable {s : State} {src : Source} (hsrc : sourceOf s.regs.src = some src) {t : Nat}
include hsrc

/-- Which sources read PCM, by name. -/
theorem readsPcm_iff_source : ReadsPcm s.regs ↔ src = .pcm ∨ (src = .am ∧ s.regs.amInfo = 1#1) ∨ src = .fm := by
  rw [← usesPcm_iff, Regs.usesPcm, hsrc]
  cases src <;> simp

/-- A signal has a value if the sample it may need is in the window. -/
theorem signal_in_window (h : ReadsPcm s.regs → sampleIndex s.regs t < s.regs.ns) : ∃ a, signal src s t = .ok a := by
  rw [readsPcm_iff_source hsrc] at h
  cases src with
  | carrier => exact ⟨_, rfl⟩
  | info => exact ⟨_, rfl⟩
  | pcm => exact ⟨_, (lookups_in_window (h (by simp))).1⟩
  | am =>
    have hinfo : ∃ a, amInformation s t = .ok a := by
      rcases BitVec.eq_zero_or_eq_one s.regs.amInfo with ha | ha
      · exact ⟨_, amInformation_osc1 ha t⟩
      · exact ⟨_, (amInformation_pcm ha t).trans (lookups_in_window (h (by simp [ha]))).1⟩
    obtain ⟨a, ha⟩ := hinfo
    exact ⟨_, by rw [signal, amSignal, ha, Lookup.map]⟩
  | fm => exact ⟨_, by rw [signal, fmSignal, (lookups_in_window (h (by simp))).2, Lookup.map]⟩

/-- In a mode that uses PCM a signal fails where the sample is past the window. -/
theorem signal_past_window (hp : ReadsPcm s.regs) (h : s.regs.ns ≤ sampleIndex s.regs t) :
    signal src s t = .fail t (sampleIndex s.regs t) := by
  obtain ⟨hpcm, hipcm⟩ := lookups_past_window h
  rcases (readsPcm_iff_source hsrc).1 hp with rfl | ⟨rfl, ha⟩ | rfl
  · exact hpcm
  · rw [signal, amSignal, amInformation_pcm ha, hpcm, Lookup.map]
  · rw [signal, fmSignal, hipcm, Lookup.map]

end Signal

/-! ## Pixels (45 R326) -/

theorem pixelIs_in_window {s : State} (hc : firstFailing (renderAllChecks s.regs) = none) {v : Nat}
    (h : ReadsPcm s.regs → sampleIndex s.regs (v2t s.regs v) < s.regs.ns) : ∃ g, PixelIs s v (.ok g) := by
  obtain ⟨src, hsrc⟩ := Option.isSome_iff_exists.1 (sourceOf_of_checks hc)
  obtain ⟨a, ha⟩ := signal_in_window hsrc h
  exact ⟨gray a, src, hsrc, by rw [pixelGray, ha, Lookup.map]⟩

theorem pixelIs_past_window {s : State} (hc : firstFailing (renderAllChecks s.regs) = none) (hp : ReadsPcm s.regs) {v : Nat}
    (h : s.regs.ns ≤ sampleIndex s.regs (v2t s.regs v)) :
    PixelIs s v (.fail (v2t s.regs v) (sampleIndex s.regs (v2t s.regs v))) := by
  obtain ⟨src, hsrc⟩ := Option.isSome_iff_exists.1 (sourceOf_of_checks hc)
  exact ⟨src, hsrc, by rw [pixelGray, signal_past_window hsrc hp h, Lookup.map]⟩

theorem not_pixelIs_ok_and_fail {s : State} {v t k : Nat} {g : Byte} (hok : PixelIs s v (.ok g)) :
    ¬PixelIs s v (.fail t k) := fun hfail => by cases pixelIs_unique hok hfail

/-! ## The outcome of a RENDER (45 R331) -/

theorem renderRun_rejected {s : State} {e : ErrorCode} {i : Word} (h : renderBegin s = raiseError e i 0 s) :
    renderRun s = raiseError e i 0 s := by
  rw [renderRun, h, render_phases_halted rfl]

section Outcome
variable {s : State} (ha : RenderAccepted s)
include ha

/-- The lowest failing visible index decides, however the frame is split. -/
theorem renderRun_of_lowest_failure {v0 t k : Nat} (hv0 : v0 < s.regs.visiblePixels) (hfail : PixelIs s v0 (.fail t k))
    (hok : ∀ v < v0, ∃ g, PixelIs s v (.ok g)) : renderRun s = raiseRange t k s := by
  rcases renderRun_spec ha with ⟨v1, t', k', -, hfail', hok', he⟩ | ⟨gs, ⟨hlen, hgs⟩, -⟩
  · obtain rfl : v1 = v0 := by
      rcases lt_trichotomy v1 v0 with hlt | heq | hlt
      · exact absurd hfail' (not_pixelIs_ok_and_fail (hok v1 hlt).choose_spec)
      · exact heq
      · exact absurd hfail (not_pixelIs_ok_and_fail (hok' v0 hlt).choose_spec)
    cases pixelIs_unique hfail hfail'
    exact he
  · exact absurd hfail (not_pixelIs_ok_and_fail (hgs v0 (hlen ▸ hv0)))

/-- If every pixel has a value the frame is theirs, however it is split. -/
theorem renderRun_of_frame {gs : List Byte} (hf : FrameIs s gs) :
    renderRun s = (s.storeBytes fbBase (gs.flatMap pixelBytes)).setCtrl .idle := by
  obtain ⟨hlen, hgs⟩ := hf
  rcases renderRun_spec ha with ⟨v, t, k, hv, hfail, -, -⟩ | ⟨gs', ⟨hlen', hgs'⟩, he⟩
  · exact absurd hfail (not_pixelIs_ok_and_fail (hgs v (hlen ▸ hv)))
  · obtain rfl : gs' = gs := List.ext_getElem (hlen'.trans hlen.symm) fun v h h' =>
      Lookup.ok.inj (pixelIs_unique (hgs' v h) (hgs v h'))
    exact he

end Outcome

/-! ## The frame (30 R126) -/

theorem pixelWord_toNat (g : Byte) : (pixelWord g).toNat = 0xFF000000 + 0x00010101 * g.toNat := by
  simp only [pixelWord, toNat_append_eq_add]
  have : (0xFF#8).toNat = 255 := rfl
  omega

/-- A pixel of a rendered frame is the gray of the selected signal. -/
theorem pixelIs_ok_signal {s : State} {src : Source} (hsrc : sourceOf s.regs.src = some src) {v : Nat} {g : Byte}
    (h : PixelIs s v (.ok g)) : ∃ a, signal src s (v2t s.regs v) = .ok a ∧ g.toNat = ⌊255 / 2 * a.val + 128⌋.toNat := by
  obtain ⟨src', hsrc', hpixel⟩ := h
  cases hsrc.symm.trans hsrc'
  obtain ⟨a, ha, rfl⟩ := Lookup.exists_of_map_eq_ok hpixel
  refine ⟨a, ha, ?_⟩
  rw [← gray_toNat (signal_isAmplitude ha), Int.toNat_natCast]

/-- Settles O11: every pixel's sample is in the window, so the accepted RENDER writes the frame. -/
theorem renderWritesTheFrame : Obligations.RenderWritesTheFrame := fun s hidle hchecks htable hwindow => by
  have ha : RenderAccepted s := (renderAccepted_iff s).2 ⟨hchecks, htable⟩
  obtain ⟨src, hsrc⟩ := Option.isSome_iff_exists.1 (sourceOf_of_checks ha.1)
  refine ⟨renderRun s, src, exec_accepted hidle .render, ?_⟩
  rcases renderRun_spec ha with ⟨v, t, k, hv, hfail, -, -⟩ | ⟨gs, ⟨hlen, hgs⟩, he⟩
  · obtain ⟨g, hg⟩ := pixelIs_in_window ha.1 fun hp => hwindow hp v hv
    exact absurd hfail (not_pixelIs_ok_and_fail hg)
  · rw [he]
    refine ⟨by rw [State.setCtrl, ← hidle]; rfl, hsrc, fun v hv => ?_, fun x hx => ?_⟩
    · obtain ⟨a, hsignal, hgray⟩ := pixelIs_ok_signal hsrc (hgs v (hlen ▸ hv))
      refine ⟨a, hsignal, ?_⟩
      rw [setCtrl_word, word_of_frame s gs v (hlen ▸ hv), pixelWord_toNat, hgray]
    · rw [setCtrl_byte, byte_storeBytes_outside]
      rwa [pixelBytes_length, hlen]

/-- Settles O12: the pixels before `v0` have values and `v0` is past the window, so the lowest failure is that of `v0`. -/
theorem renderRangeError : Obligations.RenderRangeError := fun s v0 hidle hchecks htable hp hv0 hpast hbefore => by
  have ha : RenderAccepted s := (renderAccepted_iff s).2 ⟨hchecks, htable⟩
  rw [exec_accepted hidle]
  exact congrArg _ (renderRun_of_lowest_failure ha hv0 (pixelIs_past_window ha.1 hp hpast) fun v hv =>
    pixelIs_in_window ha.1 fun _ => hbefore v hv)

/-! ## Again, and with other threads (45 R332, R337) -/

/-- Storing a run a second time changes nothing. -/
theorem memory_writeRun_writeRun (m : List Host.Cell) (a : Nat) (bs : List Byte) :
    Memory.writeRun (Memory.writeRun m a bs) a bs = Memory.writeRun m a bs := by
  have hlow : (Memory.cells a bs).filter (fun c => c.1 < a) = [] := List.filter_eq_nil_iff.2 fun c hc => by
    simpa using (memory_cells_bounds a bs c hc).1
  have hhigh : (Memory.cells a bs).filter (fun c => a + bs.length ≤ c.1) = [] := List.filter_eq_nil_iff.2 fun c hc => by
    simpa using (memory_cells_bounds a bs c hc).2
  have hlow' : m.filter (fun c => decide (c.1 < a) && decide (a + bs.length ≤ c.1)) = [] :=
    List.filter_eq_nil_iff.2 fun c _ => by simp only [Bool.and_eq_true, decide_eq_true_eq]; omega
  have hhigh' : m.filter (fun c => decide (a + bs.length ≤ c.1) && decide (c.1 < a)) = [] :=
    List.filter_eq_nil_iff.2 fun c _ => by simp only [Bool.and_eq_true, decide_eq_true_eq]; omega
  simp only [Memory.writeRun, List.filter_append, List.filter_filter, hlow, hhigh, hlow', hhigh', List.append_nil,
    List.nil_append, Bool.and_self]

/-- A RENDER that ends in IDLE was accepted and wrote the frame. -/
theorem frame_of_renderRun_idle {s : State} (h : (renderRun s).ctrl = .idle) : RenderAccepted s ∧ ∃ gs, FrameIs s gs := by
  by_cases ha : RenderAccepted s
  · rcases renderRun_spec ha with ⟨v, t, k, -, -, -, he⟩ | ⟨gs, hf, -⟩
    · rw [he] at h
      cases h
    · exact ⟨ha, gs, hf⟩
  · obtain ⟨e, i, he⟩ := renderBegin_rejected ha
    rw [renderRun_rejected he] at h
    cases h

/-- Settles O14: the second RENDER reads the same snapshot, so it stores the same frame where it already stands. -/
theorem renderIsRepeatable : Obligations.RenderIsRepeatable := fun s t hs h ht => by
  rw [exec_accepted hs] at h
  obtain rfl : renderRun s = t := by cases h; rfl
  obtain ⟨ha, gs, hf⟩ := frame_of_renderRun_idle ht
  rw [exec_accepted ht]
  have he := renderRun_of_frame ha hf
  obtain ⟨hlen, hgs⟩ := hf
  have hsame : SameSnapshot s (renderRun s) := by
    rw [he]
    exact ⟨rfl, fun x hx => (byte_storeBytes_outside s (.inl hx)).symm⟩
  have ha' : RenderAccepted (renderRun s) := by
    rw [he]
    exact ha
  have hf' : FrameIs (renderRun s) gs := ⟨by rw [← hsame.1]; exact hlen, fun v hv => pixelIs_same hsame (hgs v hv)⟩
  refine congrArg _ ((renderRun_of_frame ha' hf').trans ?_)
  rw [he]
  simp only [State.storeBytes, State.setCtrl, memory_writeRun_writeRun]

/-- `s` with another value in THREADS. -/
def State.withThreads (n : BitVec 8) (s : State) : State := { s with regs := { s.regs with threads := n } }

section Threads
variable {s : State} {n : BitVec 8}

/-- No pixel depends on THREADS. -/
theorem pixelIs_withThreads {v : Nat} {r : Lookup Byte} (h : PixelIs s v r) : PixelIs (s.withThreads n) v r := h

variable (hthreads : 1 ≤ s.regs.threads.toNat ∧ s.regs.threads.toNat ≤ s.regs.maxLanes)
  (hn : 1 ≤ n.toNat ∧ n.toNat ≤ s.regs.maxLanes)
include hthreads hn

/-- The checks come out alike under both values, which T1 allows. -/
theorem firstFailing_withThreads :
    firstFailing (renderAllChecks (s.withThreads n).regs) = firstFailing (renderAllChecks s.regs) := by
  have hrow {x m : Nat} (h : 1 ≤ x ∧ x ≤ m) : (decide (1 ≤ x) && decide (x ≤ m)) = true := by simp [h]
  have hrender : firstFailing (renderChecks (s.withThreads n).regs) = firstFailing (renderChecks s.regs) :=
    (if_pos (hrow hn)).trans (if_pos (hrow hthreads)).symm
  simp only [renderAllChecks, firstFailing_append, hrender]
  rfl

/-- RENDER leaves the same under both values but for THREADS: its outcome follows from the checks and the pixels. -/
theorem renderRun_withThreads : renderRun (s.withThreads n) = (renderRun s).withThreads n := by
  have hchecks := firstFailing_withThreads hthreads hn
  by_cases ha : RenderAccepted s
  · have ha' : RenderAccepted (s.withThreads n) := ⟨hchecks.trans ha.1, ha.2⟩
    rcases renderRun_spec ha with ⟨v0, t, k, hv0, hfail, hok, he⟩ | ⟨gs, hf, he⟩ <;> rw [he]
    · exact renderRun_of_lowest_failure ha' hv0 (pixelIs_withThreads hfail) fun v hv =>
        (hok v hv).imp fun _ => pixelIs_withThreads
    · exact renderRun_of_frame ha' ⟨hf.1, fun v hv => pixelIs_withThreads (hf.2 v hv)⟩
  · cases hf : firstFailing (renderAllChecks s.regs) with
    | some off =>
      rw [renderRun_rejected (renderBegin_config hf), renderRun_rejected (renderBegin_config (hchecks.trans hf))]
      rfl
    | none =>
      obtain ⟨hfm, htable⟩ : sourceOf s.regs.src = some .fm ∧ s.tableValid = false := by
        simpa only [RenderAccepted, hf, true_and, Classical.not_imp, Bool.not_eq_true] using ha
      rw [renderRun_rejected (renderBegin_seq hf hfm htable),
        renderRun_rejected (renderBegin_seq (s := s.withThreads n) (hchecks.trans hf) hfm htable)]
      rfl

end Threads

/-- Settles O15: THREADS is read by the check T1, which both values pass, and by the partition, which no outcome depends on. -/
theorem threadsAreUnobservable : Obligations.ThreadsAreUnobservable := fun s n t hidle h1 h2 h3 h4 h => by
  rw [exec_accepted hidle] at h
  obtain rfl : renderRun s = t := by cases h; rfl
  exact (exec_accepted (s := s.withThreads n) hidle .render).trans (congrArg _ (renderRun_withThreads ⟨h1, h2⟩ ⟨h3, h4⟩))

end Sys2Proof.Machine
end

section
/-! PROOFS. The moves of the block while a command is in progress, one at a time: what such a move does, what the command comes to
after it, and how much of the command is left (45 R322, R329, R331; log 8, 9). -/

namespace Sys2Proof.Machine

/-! ## What a move of the block does -/

/-- A move of an agent that has something to do: the controller's work of the state it is in, or a running worker's next step. -/
inductive Progress (s : State) : State → Prop where
  | dispatch (hc : s.ctrl = .dispatching) : Progress s (dispatchStep s)
  | worker {ws : List Worker} {n : Nat} {w : Worker} (hc : s.ctrl = .collecting ws) (hn : ws[n]? = some w)
    (hw : w.isRunning = true) : Progress s (s.setCtrl (.collecting (ws.modify n (workerStep s))))
  | join {ws : List Worker} (hc : s.ctrl = .collecting ws) (hr : ∀ w ∈ ws, w.isRunning = false) : Progress s (collectStep s)
  | compose {bufs : List (List Byte)} (hc : s.ctrl = .composing bufs) : Progress s (composeStep s)
  | preint {k : Nat} {c : Phase} (hc : s.ctrl = .preintegrating k c) : Progress s (preintStep s)
  | advance (hc : s.ctrl = .advancing) : Progress s (advanceStep s)

/-- The controller is enabled in every BUSY state but COLLECTING. -/
theorem controller_enabled {s : State} (hb : s.ctrl.busy = true) (hc : ∀ ws, s.ctrl ≠ .collecting ws) :
    Enabled .controller s :=
  ⟨hb, fun ws h => absurd h (hc ws)⟩

/-- In COLLECTING the controller is enabled once every worker has reported (45 R327). -/
theorem controller_enabled_collecting {s : State} {ws : List Worker} (hc : s.ctrl = .collecting ws)
    (hr : ∀ w ∈ ws, w.isRunning = false) : Enabled .controller s := by
  refine ⟨by rw [hc]; rfl, fun ws' hc' => ?_⟩
  cases hc.symm.trans hc'
  exact hr

theorem controllerStep_progress {s : State} (h : Enabled .controller s) : Progress s (controllerStep s) := by
  obtain ⟨hb, hr⟩ := h
  rcases controllerStep_cases s with
      ⟨hc, -⟩ | ⟨hc, he⟩ | ⟨⟨ws, hc⟩, he⟩ | ⟨⟨bufs, hc⟩, he⟩ | ⟨⟨k, c, hc⟩, he⟩ | ⟨hc, he⟩
  · rcases hc with hc | hc <;> rw [hc] at hb <;> cases hb
  all_goals rw [he]
  · exact .dispatch hc
  · exact .join hc (hr ws hc)
  · exact .compose hc
  · exact .preint hc
  · exact .advance hc

/-- A controller with nothing to do, or one that waits for a report, leaves the state as it is. -/
theorem controllerStep_not_enabled {s : State} (h : ¬Enabled .controller s) : controllerStep s = s := by
  cases hc : s.ctrl with
  | idle | halted => simp only [controllerStep, hc]
  | collecting ws =>
    have hrunning : ws.any Worker.isRunning = true := by
      by_contra hnone
      exact h (controller_enabled_collecting hc fun w hw => by simpa using List.any_eq_false.1 (Bool.eq_false_iff.2 hnone) w hw)
    simp only [controllerStep, collectStep, hc, hrunning, if_true]
  | dispatching | composing _ | preintegrating _ _ | advancing =>
    exact absurd (controller_enabled (by rw [hc]; rfl) fun ws => by rw [hc]; exact Ctrl.noConfusion) h

theorem workerMove_progress {s : State} {n : Nat} (h : Enabled (.worker n) s) : Progress s (workerMove n s) := by
  obtain ⟨ws, w, hc, hn, hw⟩ := h
  simp only [workerMove, hc]
  exact .worker hc hn hw

/-- A worker that has reported, or one that there is not, leaves the state as it is. -/
theorem workerMove_not_enabled {s : State} {n : Nat} (h : ¬Enabled (.worker n) s) : workerMove n s = s := by
  cases hc : s.ctrl with
  | collecting ws =>
    have hsame : ws.modify n (workerStep s) = ws := by
      refine List.ext_getElem? fun i => ?_
      rw [List.getElem?_modify]
      split
      case isTrue hi =>
        subst hi
        cases hn : ws[n]? with
        | none => rfl
        | some w =>
          have hw : w.isRunning = false := Bool.eq_false_iff.2 fun hw => h ⟨ws, w, hc, hn, hw⟩
          exact congrArg some (workerStep_reported hw)
      case isFalse => exact id_map _
    simp only [workerMove, hc, hsame]
    rw [← hc]
    rfl
  | _ => simp only [workerMove, hc]

/-- A move of the block makes progress if its agent is enabled, and does nothing if it is not (log 8). -/
theorem agentMove_block {m : Move} (hm : m.ofBlock) {s t : State} (h : agentMove m s = .next t) :
    (Enabled m s ∧ Progress s t) ∨ (¬Enabled m s ∧ t = s) := by
  rcases hm with rfl | ⟨n, rfl⟩ <;> cases h
  · by_cases he : Enabled .controller s
    · exact .inl ⟨he, controllerStep_progress he⟩
    · exact .inr ⟨he, controllerStep_not_enabled he⟩
  · by_cases he : Enabled (.worker n) s
    · exact .inl ⟨he, workerMove_progress he⟩
    · exact .inr ⟨he, workerMove_not_enabled he⟩

/-- Moves of the block leave the host's side alone. -/
theorem agentMove_block_host {m : Move} (hm : m.ofBlock) {s t : State} (h : agentMove m s = .next t) : t = s.setHost t := by
  rcases hm with rfl | ⟨n, rfl⟩ <;> cases h
  · exact blind_controllerStep.host s
  · exact (blind_workerMove n).host s

/-- While a command is in progress some agent of the block has a step to take, the one that moves by default (log 8). -/
theorem defaultMove_busy {s : State} (hb : s.ctrl.busy = true) : ∃ m, defaultMove s = some m ∧ m.ofBlock ∧ Enabled m s := by
  cases hc : s.ctrl with
  | idle | halted => rw [hc] at hb; cases hb
  | collecting ws =>
    cases hf : firstRunning ws with
    | some n =>
      obtain ⟨hn, hw, -⟩ := List.findIdx?_eq_some_iff_getElem.1 hf
      exact ⟨.worker n, by simp only [defaultMove, hc, hf], .inr ⟨n, rfl⟩, ws, ws[n], hc, List.getElem?_eq_getElem hn, hw⟩
    | none =>
      exact ⟨.controller, by simp only [defaultMove, hc, hf], .inl rfl,
        controller_enabled_collecting hc (List.findIdx?_eq_none_iff.1 hf)⟩
  | dispatching | composing _ | preintegrating _ _ | advancing =>
    exact ⟨.controller, by simp only [defaultMove, hc], .inl rfl,
      controller_enabled hb fun ws => by rw [hc]; exact Ctrl.noConfusion⟩

/-! ## The end of a command (10 R37) -/

theorem advanceStep_not_busy {s : State} (h : s.ctrl = .advancing) : (advanceStep s).ctrl.busy = false := by
  rcases advanceStep_cases h with ⟨t, k, -, he⟩ | ⟨seed, -, he⟩ <;> rw [he] <;> rfl

theorem composeStep_idle {s : State} {bufs : List (List Byte)} (h : s.ctrl = .composing bufs) :
    (composeStep s).ctrl = .idle := by
  simp only [composeStep, h, setCtrl_ctrl]

theorem rendering_of_not_busy {c : Ctrl} (h : c.busy = false) : c.rendering = false := by
  cases c with
  | idle | halted | preintegrating _ _ | advancing => rfl
  | dispatching | collecting _ | composing _ => cases h

/-! ## A worker's source (log 14) -/

/-- A RENDER in progress has a source that MODE.SRC names: M1 holds. -/
def SourceNamed (s : State) : Prop := s.ctrl.rendering = true → (sourceOf s.regs.src).isSome = true

theorem sourceNamed_of_not_rendering {s : State} (h : s.ctrl.rendering = false) : SourceNamed s := fun hr => by
  rw [h] at hr
  cases hr

theorem sourceNamed_collecting {s : State} (h : SourceNamed s) {ws : List Worker} (hc : s.ctrl = .collecting ws) :
    (sourceOf s.regs.src).isSome = true := h (by rw [hc]; rfl)

theorem Progress.sourceNamed {s t : State} (h : Progress s t) (hs : SourceNamed s) : SourceNamed t := by
  cases h with
  | dispatch hc =>
    simp only [dispatchStep, hc]
    exact fun _ => hs (by rw [hc]; rfl)
  | worker hc =>
    have hsrc := sourceNamed_collecting hs hc
    exact fun _ => hsrc
  | join hc hr =>
    have hsrc := sourceNamed_collecting hs hc
    rcases collectStep_reported hc hr with ⟨t, k, -, he⟩ | ⟨-, he⟩ <;> rw [he]
    · exact sourceNamed_of_not_rendering rfl
    · exact fun _ => hsrc
  | compose hc => exact sourceNamed_of_not_rendering (by rw [composeStep_idle hc]; rfl)
  | preint hc =>
    simp only [preintStep, hc]
    split <;> exact sourceNamed_of_not_rendering rfl
  | advance hc => exact sourceNamed_of_not_rendering (rendering_of_not_busy (advanceStep_not_busy hc))

/-! ## What a command in progress comes to (45 R331) -/

/-- The state that a command in progress comes to when its remaining steps are taken with no other agent between, the workers
one after the other. -/
def finish (s : State) : State :=
  match s.ctrl with
  | .idle | .halted => s
  | .preintegrating _ _ => preintStep^[s.regs.ns + 1] s
  | .dispatching => composeStep (collectStep (workersRun (dispatchStep s)))
  | .collecting _ => composeStep (collectStep (workersRun s))
  | .composing _ => composeStep s
  | .advancing => advanceStep s

theorem finish_of_not_busy {s : State} (h : s.ctrl.busy = false) : finish s = s := by
  cases hc : s.ctrl with
  | idle | halted => simp only [finish, hc]
  | dispatching | collecting _ | composing _ | preintegrating _ _ | advancing => rw [hc] at h; cases h

theorem blind_finish : Blind finish := fun h s => by
  cases hc : s.ctrl <;>
    simp only [finish, setHost_ctrl, setHost_regs, hc, blind_preintStep.iterate _ h s, blind_dispatchStep h s,
      blind_workersRun h, blind_collectStep h, blind_composeStep h, blind_advanceStep h s]

/-- The pass ends: a step for each entry left and one for the commit are enough. -/
theorem preintStep_iterate_idle {n : Nat} {s : State} {k : Nat} {c : Phase} (hc : s.ctrl = .preintegrating k c)
    (hn : s.regs.ns ≤ k + n) : (preintStep^[n + 1] s).ctrl = .idle := by
  induction n generalizing s k c with
  | zero => rw [Function.iterate_one, preintStep_commit hc (by omega), setCtrl_ctrl]
  | succ n ih =>
    rw [Function.iterate_succ_apply]
    by_cases hk : k < s.regs.ns
    · rw [preintStep_entry hc hk]
      refine ih (setCtrl_ctrl _ _) ?_
      rw [setCtrl_regs, storeEntry_regs]
      omega
    · rw [preintStep_commit hc hk, iterate_fixed (preintStep_other fun k c => by simp), setCtrl_ctrl]

theorem finish_preintStep {s : State} {k : Nat} {c : Phase} (hc : s.ctrl = .preintegrating k c) :
    finish (preintStep s) = finish s := by
  have hs : finish s = preintStep^[s.regs.ns] (preintStep s) := by
    simp only [finish, hc, Function.iterate_succ_apply]
  rw [hs]
  by_cases hk : k < s.regs.ns
  · have hend : (preintStep^[s.regs.ns + 1] s).ctrl = .idle := preintStep_iterate_idle hc (by omega)
    have hfixed : preintStep (preintStep^[s.regs.ns + 1] s) = preintStep^[s.regs.ns + 1] s :=
      preintStep_other fun k c => by rw [hend]; exact Ctrl.noConfusion
    rw [← Function.iterate_succ_apply, ← hfixed, ← Function.iterate_succ_apply' preintStep, Function.iterate_succ_apply]
    simp only [preintStep_entry hc hk, finish, setCtrl_ctrl, setCtrl_regs, storeEntry_regs]
  · rw [preintStep_commit hc hk, iterate_fixed (preintStep_other fun k c => by simp), finish_of_not_busy rfl]

theorem workerRun_reported {s : State} {w : Worker} (h : w.isRunning = false) : workerRun s w = w :=
  iterate_fixed (workerStep_reported h) _

/-- A worker that has taken a step comes to the same report. -/
theorem workerRun_workerStep {s : State} (hs : (sourceOf s.regs.src).isSome = true) (w : Worker) :
    workerRun s (workerStep s w) = workerRun s w := by
  have hend : (workerRun s w).isRunning = false := by
    rcases workerStep_iterate_reported hs (w.hi - w.lo + 1) w (by omega) with h | ⟨-, h⟩
    · exact h
    · omega
  rw [workerRun, workerStep_lo, workerStep_hi, ← Function.iterate_succ_apply, Function.iterate_succ_apply']
  exact workerStep_reported hend

theorem workerRun_same {s t : State} (h : SameSnapshot s t) (w : Worker) : workerRun s w = workerRun t w := by
  have hstep : workerStep s = workerStep t := by
    funext x
    simp only [workerStep, pixelGray_same h, h.1]
  rw [workerRun, workerRun, hstep]

theorem finish_workerMove {s : State} (hs : (sourceOf s.regs.src).isSome = true) {ws : List Worker}
    (hc : s.ctrl = .collecting ws) (n : Nat) :
    finish (s.setCtrl (.collecting (ws.modify n (workerStep s)))) = finish s := by
  have hruns : (ws.modify n (workerStep s)).map (workerRun (s.setCtrl (.collecting (ws.modify n (workerStep s))))) =
      ws.map (workerRun s) := by
    refine List.ext_getElem (by simp) fun i _ _ => ?_
    rw [List.getElem_map, List.getElem_map, List.getElem_modify, workerRun_same (sameSnapshot_of_mem rfl rfl rfl)]
    split
    · exact workerRun_workerStep hs _
    · rfl
  simp only [finish, workersRun, setCtrl_ctrl, hc, hruns]
  rfl

/-- Workers that have reported have nothing left to run. -/
theorem finish_collectStep {s : State} {ws : List Worker} (hc : s.ctrl = .collecting ws)
    (hr : ∀ w ∈ ws, w.isRunning = false) :
    finish (collectStep s) = finish s := by
  have hruns : workersRun s = s := by
    have hws : ws.map (workerRun s) = ws := (List.map_congr_left fun w hw => workerRun_reported (hr w hw)).trans (List.map_id' _)
    simp only [workersRun, hc, hws]
    rw [← hc]
    rfl
  have hs : finish s = composeStep (collectStep s) := by simp only [finish, hc, hruns]
  rw [hs]
  rcases collectStep_reported hc hr with ⟨t, k, -, he⟩ | ⟨-, he⟩ <;> rw [he]
  all_goals rfl

/-- A step of the command leaves what the command comes to. -/
theorem Progress.finish_eq {s t : State} (h : Progress s t) (hs : SourceNamed s) : finish t = finish s := by
  cases h with
  | dispatch hc => simp only [finish, dispatchStep, hc, setCtrl_ctrl]
  | worker hc => exact finish_workerMove (sourceNamed_collecting hs hc) hc _
  | join hc hr => exact finish_collectStep hc hr
  | compose hc => rw [finish_of_not_busy (by rw [composeStep_idle hc]; rfl), finish, hc]
  | preint hc => exact finish_preintStep hc
  | advance hc => rw [finish_of_not_busy (advanceStep_not_busy hc), finish, hc]

/-! ## A command from its acceptance (45 R320) -/

/-- A command that is begun in IDLE is over, with what it would leave if it were run whole, or in its first BUSY state. -/
theorem beginCommand_outcome {s : State} (h : s.ctrl = .idle) (i : Instr) :
    ((beginCommand i s).ctrl.busy = false ∧ beginCommand i s = commandEffect true i s) ∨
      (i = .preint ∧ beginCommand i s = s.setCtrl (.preintegrating 0 s.regs.fmSeed)) ∨
        (i = .render ∧ RenderAccepted s ∧ beginCommand i s = s.setCtrl .dispatching) ∨
          (i = .advance ∧ beginCommand i s = s.setCtrl .advancing) := by
  rw [beginCommand_accepted h]
  cases i with
  | nop => exact .inl ⟨by rw [commandEffect, h]; rfl, rfl⟩
  | preint =>
    cases hf : firstFailing (preintChecks s.regs) with
    | none => exact .inr (.inl ⟨rfl, preintBegin_pass hf⟩)
    | some off =>
      have he : preintBegin s = raiseError .config off 0 s := checked_fail hf _ _
      exact .inl ⟨by rw [commandEffect, he]; rfl, he.trans (preintRun_config hf).symm⟩
  | render =>
    by_cases ha : RenderAccepted s
    · exact .inr (.inr (.inl ⟨rfl, ha, renderBegin_accepted ha⟩))
    · obtain ⟨e, x, he⟩ := renderBegin_rejected ha
      exact .inl ⟨by rw [commandEffect, he]; rfl, he.trans (renderRun_rejected he).symm⟩
  | advance =>
    cases hf : firstFailing (advanceChecks s.regs) with
    | none => exact .inr (.inr (.inr ⟨rfl, checked_pass hf _ _⟩))
    | some off =>
      have he : advanceBegin s = raiseError .config off 0 s := checked_fail hf _ _
      exact .inl ⟨by rw [commandEffect, he]; rfl, he.trans (advanceRun_config hf).symm⟩

theorem sourceNamed_begin {s : State} (h : s.ctrl = .idle) (i : Instr) : SourceNamed (beginCommand i s) := by
  rcases beginCommand_outcome h i with ⟨hb, -⟩ | ⟨-, he⟩ | ⟨-, ha, he⟩ | ⟨-, he⟩
  · exact sourceNamed_of_not_rendering (rendering_of_not_busy hb)
  · exact sourceNamed_of_not_rendering (by rw [he]; rfl)
  · rw [he]
    exact fun _ => sourceOf_of_checks ha.1
  · exact sourceNamed_of_not_rendering (by rw [he]; rfl)

/-- A command that is begun comes to what it leaves when it is run whole. -/
theorem finish_begin {s : State} (h : s.ctrl = .idle) (i : Instr) : finish (beginCommand i s) = commandEffect true i s := by
  have hbegin := beginCommand_accepted h i
  rcases beginCommand_outcome h i with ⟨hb, he⟩ | ⟨rfl, he⟩ | ⟨rfl, -, he⟩ | ⟨rfl, he⟩
  · rw [finish_of_not_busy hb, he]
  · rw [commandEffect, preintRun, ← show _ = preintBegin s from hbegin, he]
    rfl
  · rw [commandEffect, renderRun, ← show _ = renderBegin s from hbegin, he]
    rfl
  · rw [commandEffect, advanceRun, ← show _ = advanceBegin s from hbegin, he]
    rfl

/-! ## How much of a command is left -/

/-- The steps a worker has left: a pixel each, and the report. -/
def Worker.work (w : Worker) : Nat := if w.isRunning then w.hi - (w.lo + w.buf.length) + 1 else 0

/-- The steps that workers have left between them. -/
def workersWork (ws : List Worker) : Nat := (ws.map Worker.work).sum

/-- The most steps a command in progress has left. -/
def State.work (s : State) : Nat :=
  match s.ctrl with
  | .idle | .halted => 0
  | .preintegrating k _ => s.regs.ns - k + 1
  | .dispatching => workersWork ((partition s.regs.visiblePixels s.regs.threads.toNat).map Worker.start) + 3
  | .collecting ws => workersWork ws + 2
  | .composing _ | .advancing => 1

theorem work_of_not_busy {s : State} (h : s.ctrl.busy = false) : s.work = 0 := by
  cases hc : s.ctrl with
  | idle | halted => simp only [State.work, hc]
  | dispatching | collecting _ | composing _ | preintegrating _ _ | advancing => rw [hc] at h; cases h

theorem worker_work_step {s : State} (hs : (sourceOf s.regs.src).isSome = true) {w : Worker} (hw : w.isRunning = true) :
    (workerStep s w).work < w.work := by
  have hr : w.report = .running := by
    cases hr : w.report <;> simp_all [Worker.isRunning]
  have hwork : w.work = w.hi - (w.lo + w.buf.length) + 1 := if_pos hw
  rw [hwork]
  rcases workerStep_running (s := s) hr with ⟨-, he⟩ | ⟨hlt, ⟨h0, -⟩ | ⟨g, -, he⟩ | ⟨t, k, -, he⟩⟩
  · rw [he]
    exact Nat.succ_pos _
  · rw [h0] at hs
    cases hs
  · have hnext : (workerStep s w).work = w.hi - (w.lo + (w.buf.length + 1)) + 1 := by
      rw [he, Worker.work, List.length_append]
      exact if_pos hw
    omega
  · rw [he]
    exact Nat.succ_pos _

theorem workersWork_modify {ws : List Worker} {n : Nat} {w : Worker} {f : Worker → Worker} (hn : ws[n]? = some w)
    (hf : (f w).work < w.work) : workersWork (ws.modify n f) < workersWork ws := by
  induction ws generalizing n with
  | nil => cases hn
  | cons x ws ih =>
    cases n with
    | zero =>
      cases hn
      exact Nat.add_lt_add_right hf _
    | succ n => exact Nat.add_lt_add_left (ih hn) _

/-- A step of the command leaves less of it. -/
theorem Progress.work_lt {s t : State} (h : Progress s t) (hs : SourceNamed s) : t.work < s.work := by
  cases h with
  | dispatch hc =>
    simp only [State.work, dispatchStep, hc, setCtrl_ctrl]
    omega
  | worker hc hn hw =>
    have hlt := workersWork_modify hn (worker_work_step (sourceNamed_collecting hs hc) hw)
    simp only [State.work, setCtrl_ctrl, hc]
    omega
  | join hc hr =>
    rcases collectStep_reported hc hr with ⟨t, k, -, he⟩ | ⟨-, he⟩ <;> rw [he] <;>
      simp only [State.work, hc, setCtrl_ctrl, raiseRange_ctrl] <;> omega
  | compose hc => rw [work_of_not_busy (by rw [composeStep_idle hc]; rfl), State.work, hc]; exact Nat.one_pos
  | @preint k _ hc =>
    by_cases hk : k < s.regs.ns
    · simp only [preintStep_entry hc hk, State.work, hc, setCtrl_ctrl, setCtrl_regs, storeEntry_regs]
      omega
    · rw [preintStep_commit hc hk, work_of_not_busy rfl, State.work, hc]
      exact Nat.succ_pos _
  | advance hc => rw [work_of_not_busy (advanceStep_not_busy hc), State.work, hc]; exact Nat.one_pos

/-- Workers that start on a contiguous run of chunks have a step for each index of it and for each report. -/
theorem workersWork_start {a b : Nat} {l : List (Nat × Nat)} (h : Contiguous a l b) :
    workersWork (l.map Worker.start) + a = b + l.length := by
  induction l generalizing a with
  | nil => rw [show a = b from h]; simp [workersWork]
  | cons c l ih =>
    obtain ⟨rfl, hle, hrest⟩ := h
    have htail := ih hrest
    have hhead : workersWork ((c :: l).map Worker.start) = c.2 - (c.1 + 0) + 1 + workersWork (l.map Worker.start) := rfl
    rw [hhead, List.length_cons]
    omega

/-- A command that is begun has at most `NS + P + THREADS + 4` steps to take. -/
theorem work_begin_le {s : State} (h : s.ctrl = .idle) (i : Instr) :
    (beginCommand i s).work ≤ s.regs.ns + s.regs.visiblePixels + s.regs.threads.toNat + 4 := by
  rcases beginCommand_outcome h i with ⟨hb, -⟩ | ⟨-, he⟩ | ⟨-, ha, he⟩ | ⟨-, he⟩
  · rw [work_of_not_busy hb]
    exact Nat.zero_le _
  · simp only [he, State.work, setCtrl_ctrl, setCtrl_regs]
    omega
  · have hwork := workersWork_start (partition_contiguous s.regs.visiblePixels s.regs.threads.toNat (threads_ne_zero ha))
    have hlength : (partition s.regs.visiblePixels s.regs.threads.toNat).length ≤ s.regs.threads.toNat + 1 := by
      rw [partition_length]
      split <;> omega
    simp only [he, State.work, setCtrl_ctrl, setCtrl_regs]
    omega
  · simp only [he, State.work, setCtrl_ctrl]
    omega

end Sys2Proof.Machine
end

section
/-! PROOFS. Runs of a command under a schedule: every order of the moves leaves what the command leaves when it is run whole, and
under weak fairness the command and every WAIT loop end (45 R329, R331, R335; 60 R395; 70 R434). -/

namespace Sys2Proof.Machine

/-! ## One move while a command is in progress -/

/-- A move of the host while a command is in progress changes the host's side alone. -/
theorem agentMove_host_busy {m : Move} (hm : m.ofHost) {s t : State} (hb : s.ctrl.busy = true) (h : agentMove m s = .next t) :
    t = t.setHost s ∧ ∀ rest, s.ops = .wait :: rest → t.ops = s.ops := by
  have hstep : ∃ whole, hostStep whole s = .next t := by
    rcases hm with rfl | rfl
    · exact ⟨false, h⟩
    · exact ⟨true, h⟩
  obtain ⟨whole, hstep⟩ := hstep
  obtain ⟨u, hu, hhost, hops⟩ := hostStep_busy hb whole
  cases hu.symm.trans hstep
  exact ⟨hhost, hops⟩

theorem ofBlock_or_ofHost {m : Move} (h : m ≠ .reset) : m.ofBlock ∨ m.ofHost := by
  cases m with
  | host => exact .inr (.inl rfl)
  | hostRun => exact .inr (.inr rfl)
  | controller => exact .inl (.inl rfl)
  | worker n => exact .inl (.inr ⟨n, rfl⟩)
  | reset => exact absurd rfl h

/-- A move that is the block's, or the host's while a command is in progress, makes progress or changes the host's side alone. -/
theorem agentMove_progress_or_host {m : Move} (hm : m.ofBlock ∨ m.ofHost) {s t : State} (hb : m.ofHost → s.ctrl.busy = true)
    (h : agentMove m s = .next t) : (t = s.setHost t ∧ Progress s t) ∨ t = t.setHost s := by
  rcases hm with hblock | hhost
  · rcases agentMove_block hblock h with ⟨-, hp⟩ | ⟨-, rfl⟩
    · exact .inl ⟨agentMove_block_host hblock h, hp⟩
    · exact .inr rfl
  · exact .inr (agentMove_host_busy hhost (hb hhost) h).1

theorem sourceNamed_setHost {s t : State} (h : t = t.setHost s) (hs : SourceNamed s) : SourceNamed t := by
  rw [h]
  exact hs

theorem work_setHost {s t : State} (h : t = t.setHost s) : t.work = s.work := by
  rw [h]
  rfl

/-! ## What a run comes to (45 R329, R331) -/

/-- `t` is on the way that leads from `s` to the end of the command in progress: it comes to the same but for the host's side. -/
def OnTheWay (s t : State) : Prop := SourceNamed t ∧ finish t = t.setHost (finish s)

theorem onTheWay_moves {s t : State} (ms : List Move) (h : OnTheWay s t) : OnTheWay s { t with moves := ms } := by
  refine ⟨h.1, ?_⟩
  rw [blind_finish.moves, h.2]
  rfl

theorem onTheWay_move {m : Move} (hm : m.ofBlock ∨ m.ofHost) {s t u : State} (hb : m.ofHost → t.ctrl.busy = true)
    (h : agentMove m t = .next u) (hs : OnTheWay s t) : OnTheWay s u := by
  obtain ⟨hsrc, hfinish⟩ := hs
  rcases agentMove_progress_or_host hm hb h with ⟨hhost, hp⟩ | hhost
  · refine ⟨hp.sourceNamed hsrc, ?_⟩
    rw [hp.finish_eq hsrc, hfinish, hhost]
    rfl
  · refine ⟨sourceNamed_setHost hhost hsrc, ?_⟩
    calc finish u
      _ = finish (u.setHost t) := congrArg finish hhost
      _ = u.setHost (finish t) := blind_finish u t
      _ = u.setHost (finish s) := by rw [hfinish, setHost_setHost]

/-- A property that does not look at the schedule, and that every move laid down keeps where it is made, holds at the end of the
run. -/
theorem run_keeps {I : State → Prop} (hI : ∀ s ms, I s → I { s with moves := ms }) {ms : List Move} {s t : State} (hs : I s)
    (hkeep : ∀ k (hk : k < ms.length) u v, Host.Core.run core k { s with moves := ms } = .next u →
      agentMove ms[k] u = .next v → I u → I v)
    (h : Host.Core.run core ms.length { s with moves := ms } = .next t) : I t := by
  induction ms generalizing s with
  | nil =>
    cases h
    exact hI s [] hs
  | cons m ms ih =>
    obtain ⟨u, -, hu, -⟩ := agentMove_moves m [] { s with moves := ms }
    have hstep : step { s with moves := m :: ms } = .next u := hu
    obtain ⟨v, -, hv, hv'⟩ := agentMove_moves m ms { s with moves := m :: ms }
    cases hu.symm.trans hv'
    have hIv := hkeep 0 (Nat.succ_pos _) _ v rfl hv (hI s _ hs)
    refine ih (hI v ms hIv) (fun k hk x y hx => hkeep (k + 1) (Nat.succ_lt_succ hk) x y ?_) ?_
    · rw [run_step hstep]
      exact hx
    · rw [List.length_cons, run_step hstep] at h
      exact h

theorem run_moves_nil {ms : List Move} {s t : State} (h : Host.Core.run core ms.length { s with moves := ms } = .next t) :
    t.moves = [] := by
  obtain ⟨u, hu, hr⟩ := run_append ms s
  have := hr []
  rw [List.append_nil] at this
  cases this.symm.trans h
  rfl

/-! ## Every order of the moves (45 R329, R331) -/

/-- The host's side of `t` is that of `s`, whatever the schedule. -/
def HostSideOf (s t : State) : Prop := t = ({ s with moves := t.moves } : State).setHost t

theorem hostSideOf_moves {s t : State} (ms : List Move) (h : HostSideOf s t) : HostSideOf s { t with moves := ms } :=
  congrArg (fun u : State => ({ u with moves := ms } : State)) h

theorem hostSideOf_move {m : Move} (hm : m.ofBlock) {s t u : State} (h : agentMove m t = .next u) (hs : HostSideOf s t) :
    HostSideOf s u := by
  have hhost := agentMove_block_host hm h
  have hmoves : u.moves = t.moves := by rw [hhost]; rfl
  calc u
    _ = t.setHost u := hhost
    _ = (({ s with moves := t.moves } : State).setHost t).setHost u := congrArg (fun x : State => x.setHost u) hs
    _ = ({ s with moves := u.moves } : State).setHost u := by rw [hmoves]; rfl

theorem not_ofHost_of_ofBlock {m : Move} (h : m.ofBlock) : ¬m.ofHost := by
  rcases h with rfl | ⟨n, rfl⟩ <;> rintro (h | h) <;> cases h

theorem ne_reset_of_ofBlock {m : Move} (h : m.ofBlock) : m ≠ .reset := by
  rcases h with rfl | ⟨n, rfl⟩ <;> exact Move.noConfusion

section Begun
variable {i : Instr} {s t : State} {ms : List Move} (hidle : s.ctrl = .idle)
  (hrun : Host.Core.run core ms.length { beginCommand i s with moves := ms } = .next t)
include hidle hrun

/-- A run of a command to its end leaves what the command leaves run whole, but for the host's side. -/
theorem run_eq_setHost_effect (ht : t.ctrl.busy = false) (hms : ∀ m ∈ ms, m ≠ .reset)
    (hbusy : ∀ k (hk : k < ms.length) u, Host.Core.run core k { beginCommand i s with moves := ms } = .next u →
      ms[k].ofHost → u.ctrl.busy = true) :
    t = t.setHost (commandEffect true i s) := by
  have hway : OnTheWay (beginCommand i s) t :=
    run_keeps (I := OnTheWay (beginCommand i s)) (fun _ _ h => onTheWay_moves _ h)
      ⟨sourceNamed_begin hidle i, blind_finish.host _⟩
      (fun k hk u v hu => onTheWay_move (ofBlock_or_ofHost (hms _ (List.getElem_mem hk))) (hbusy k hk u hu)) hrun
  rw [← finish_begin hidle, ← hway.2, finish_of_not_busy ht]

/-- A run of moves of the block leaves the host's side as it was. -/
theorem run_block_host (hms : ∀ m ∈ ms, m.ofBlock) : HostSideOf s t := by
  have hbegin : HostSideOf s (beginCommand i s) := by
    rw [beginCommand_accepted hidle]
    have hhost := (blind_commandEffect false i).host s
    have hmoves : (commandEffect false i s).moves = s.moves := by rw [hhost]; rfl
    rw [HostSideOf, hmoves]
    exact hhost
  exact run_keeps (I := HostSideOf s) (fun _ _ h => hostSideOf_moves _ h) hbegin
    (fun k hk u v _ => hostSideOf_move (hms _ (List.getElem_mem hk))) hrun

end Begun

theorem exec_moves_nil {s : State} (hidle : s.ctrl = .idle) (i : Instr) :
    exec i { s with moves := [] } = .next { commandEffect true i s with moves := [] } := by
  rw [exec_accepted (s := { s with moves := [] }) hidle, (blind_commandEffect true i).moves]

/-- Settles O41: every move keeps what the command comes to, and what it comes to when it is over is the state itself. -/
theorem scheduleDoesNotMatter : Obligations.ScheduleDoesNotMatter := fun i s ms (t : State) hidle hrun ht => by
  have hnil := run_moves_nil hrun
  refine ⟨fun hms => ?_, fun hms hbusy => ⟨_, exec_moves_nil hidle i, ?_⟩⟩
  · have he := run_eq_setHost_effect hidle hrun ht (fun m hm => ne_reset_of_ofBlock (hms m hm))
      fun k hk u _ hhost => absurd hhost (not_ofHost_of_ofBlock (hms _ (List.getElem_mem hk)))
    have hhost := run_block_host hidle hrun hms
    rw [HostSideOf, hnil] at hhost
    rw [exec_moves_nil hidle, (blind_commandEffect true i).host s]
    refine congrArg _ (Eq.symm ?_)
    calc t
      _ = t.setHost (commandEffect true i s) := he
      _ = (({ s with moves := [] } : State).setHost t).setHost (commandEffect true i s) :=
        congrArg (fun u : State => u.setHost (commandEffect true i s)) hhost
  · have he := run_eq_setHost_effect hidle hrun ht hms fun k hk u hu _ => hbusy k hk u hu
    refine ⟨he.trans (by rw [State.setHost, hnil]), fun x => ?_⟩
    rw [he]
    exact byte_congr rfl rfl x

end Sys2Proof.Machine
end

section
/-! PROOFS. Commands and WAIT loops end: under weak fairness some enabled agent moves before long, and each such move leaves
less of the command (45 R335; 70 R434; 60 R395). -/

namespace Sys2Proof.Machine

/-! ## No schedule laid down -/

/-- With nothing laid down a step of a BUSY block makes progress. -/
theorem step_default_busy {s : State} (hm : s.moves = []) (hb : s.ctrl.busy = true) :
    ∃ t, step s = .next t ∧ t.moves = [] ∧ Progress s t := by
  obtain ⟨m, hd, hblock, he⟩ := defaultMove_busy hb
  obtain ⟨t, htm, ht, -⟩ := agentMove_moves m [] s
  refine ⟨t, by simp only [step, machineStep, hm, hd, ht], htm.trans hm, ?_⟩
  exact (agentMove_block hblock ht).elim And.right fun h => absurd he h.1

/-- With nothing laid down a command ends within the steps it has left. -/
theorem run_default_ends {s : State} (hm : s.moves = []) (hs : SourceNamed s) :
    ∃ k t, k ≤ s.work ∧ Host.Core.run core k s = .next t ∧ t.ctrl.busy = false := by
  induction hw : s.work using Nat.strong_induction_on generalizing s with
  | _ w ih =>
    subst hw
    cases hb : s.ctrl.busy with
    | false => exact ⟨0, s, Nat.zero_le _, rfl, hb⟩
    | true =>
      obtain ⟨t, hstep, htm, hp⟩ := step_default_busy hm hb
      have hlt := hp.work_lt hs
      obtain ⟨k, u, hk, hrun, hu⟩ := ih _ hlt htm (hp.sourceNamed hs) rfl
      exact ⟨k + 1, u, hk.trans_lt hlt, (run_step hstep).trans hrun, hu⟩

/-! ## Runs under a schedule -/

/-- The states that a schedule without reset leads through, `u n` after `n` moves. -/
structure Trace (σ : Nat → Move) (u : Nat → State) : Prop where
  move : ∀ n, agentMove (σ n) (u n) = .next (u (n + 1))
  noReset : ∀ n, σ n ≠ .reset

/-- Weak fairness to the block, of the states that the schedule leads through. -/
def FairTrace (σ : Nat → Move) (u : Nat → State) : Prop :=
  ∀ n a, a.ofBlock → Enabled a (u n) → ∃ m, n ≤ m ∧ σ m = a

/-- Every schedule leads through states. -/
theorem exists_trace (σ : Nat → Move) (s : State) :
    ∃ u : Nat → State, u 0 = { s with moves := [] } ∧ (∀ n, runUnder σ s n = .next (u n)) ∧
      ∀ n, agentMove (σ n) (u n) = .next (u (n + 1)) := by
  choose u hu _ using runUnder_next σ s
  refine ⟨u, ?_, hu, fun n => ?_⟩
  · exact (Host.Outcome.next.inj (hu 0)).symm
  · rw [← runUnder_succ (hu n), hu]

theorem enabled_setHost {m : Move} (hm : m.ofBlock) {s t : State} (h : t = t.setHost s) (he : Enabled m s) : Enabled m t := by
  rw [h]
  rcases hm with rfl | ⟨n, rfl⟩ <;> exact he

theorem setHost_trans {s t u : State} (ht : t = t.setHost s) (hu : u = u.setHost t) : u = u.setHost s := by
  calc u
    _ = u.setHost t := hu
    _ = u.setHost (t.setHost s) := congrArg u.setHost ht
    _ = u.setHost s := setHost_setHost ..

section Busy
variable {σ : Nat → Move} {u : Nat → State} (htrace : Trace σ u) (hbusy : ∀ n, (u n).ctrl.busy = true)
  (hsource : SourceNamed (u 0))
include htrace hbusy

/-- Each move makes progress or changes the host's side alone. -/
theorem trace_move (n : Nat) : Progress (u n) (u (n + 1)) ∨ u (n + 1) = (u (n + 1)).setHost (u n) :=
  (agentMove_progress_or_host (ofBlock_or_ofHost (htrace.noReset n)) (fun _ => hbusy n) (htrace.move n)).imp_left And.right

include hsource

theorem trace_sourceNamed (n : Nat) : SourceNamed (u n) := by
  induction n with
  | zero => exact hsource
  | succ n ih =>
    rcases trace_move htrace hbusy n with hp | hhost
    · exact hp.sourceNamed ih
    · exact sourceNamed_setHost hhost ih

/-- Later on there is less of the command left, or only the host's side has changed. -/
theorem trace_work {n m : Nat} (h : n ≤ m) : (u m).work < (u n).work ∨ u m = (u m).setHost (u n) := by
  induction m, h using Nat.le_induction with
  | base => exact .inr rfl
  | succ m _ ih =>
    rcases trace_move htrace hbusy m with hp | hhost
    · have hlt := hp.work_lt (trace_sourceNamed htrace hbusy hsource m)
      rcases ih with hw | hw
      · exact .inl (hlt.trans hw)
      · exact .inl (work_setHost hw ▸ hlt)
    · rcases ih with hw | hw
      · exact .inl (work_setHost hhost ▸ hw)
      · exact .inr (setHost_trans hw hhost)

/-- Under weak fairness some agent that is enabled moves, so sooner or later there is less of the command left. -/
theorem trace_work_decreases (hfair : FairTrace σ u) (n : Nat) : ∃ m, (u m).work < (u n).work := by
  obtain ⟨a, -, ha, he⟩ := defaultMove_busy (hbusy n)
  obtain ⟨m, hnm, rfl⟩ := hfair n a ha he
  rcases trace_work htrace hbusy hsource hnm with hlt | hhost
  · exact ⟨m, hlt⟩
  · refine ⟨m + 1, ?_⟩
    rcases agentMove_block ha (htrace.move m) with ⟨-, hp⟩ | ⟨hne, -⟩
    · exact work_setHost hhost ▸ hp.work_lt (trace_sourceNamed htrace hbusy hsource m)
    · exact absurd (enabled_setHost ha hhost he) hne

end Busy

/-- Under weak fairness a command ends. -/
theorem trace_ends {σ : Nat → Move} {u : Nat → State} (htrace : Trace σ u) (hfair : FairTrace σ u)
    (hsource : SourceNamed (u 0)) :
    ∃ n, (u n).ctrl.busy = false := by
  by_contra hnever
  have hbusy : ∀ n, (u n).ctrl.busy = true := by simpa using hnever
  have hno : ∀ w n, (u n).work = w → False := fun w => by
    induction w using Nat.strong_induction_on with
    | _ w ih =>
      rintro n rfl
      obtain ⟨m, hm⟩ := trace_work_decreases htrace hbusy hsource hfair n
      exact ih _ hm m rfl
  exact hno _ 0 rfl

/-! ## WAIT loops (30 R131) -/

theorem Enabled.busy {m : Move} (hm : m.ofBlock) {s : State} (h : Enabled m s) : s.ctrl.busy = true := by
  rcases hm with rfl | ⟨n, rfl⟩
  · exact h.1
  · obtain ⟨ws, w, hc, -, -⟩ := h
    rw [hc]
    rfl

/-- Moves of the block do nothing when no command is in progress. -/
theorem agentMove_block_not_busy {m : Move} (hm : m.ofBlock) {s t : State} (hb : s.ctrl.busy = false)
    (h : agentMove m s = .next t) : t = s := by
  rcases agentMove_block hm h with ⟨he, -⟩ | ⟨-, ht⟩
  · rw [he.busy hm] at hb
    cases hb
  · exact ht

/-- A read of STATUS by a WAIT when no command is in progress is its last. -/
theorem agentMove_wait_not_busy {m : Move} (hm : m.ofHost) {s t : State} {rest : List HostOp} (ho : s.ops = .wait :: rest)
    (hb : s.ctrl.busy = false) (h : agentMove m s = .next t) : t.ops = rest ∧ t.ctrl.busy = false := by
  have ht : t = waitRead rest s := by
    rcases hm with rfl | rfl
    · exact (Host.Outcome.next.inj ((hostStep_wait ho false).symm.trans h)).symm
    · exact (Host.Outcome.next.inj ((hostStep_wait ho true).symm.trans h)).symm
  rw [ht, waitRead_eq, statusRead_ops, statusRead_ctrl, hb]
  exact ⟨rfl, rfl⟩

section Wait
variable {σ : Nat → Move} {u : Nat → State} (htrace : Trace σ u) {rest : List HostOp}
include htrace

/-- The host waits as long as the command is in progress. -/
theorem trace_waits (h0 : (u 0).ops = .wait :: rest) {n : Nat} (hbusy : ∀ m < n, (u m).ctrl.busy = true) :
    (u n).ops = .wait :: rest := by
  induction n with
  | zero => exact h0
  | succ n ih =>
    have hn := ih fun m hm => hbusy m (hm.trans n.lt_succ_self)
    rcases ofBlock_or_ofHost (htrace.noReset n) with hblock | hhost
    · rw [agentMove_block_host hblock (htrace.move n)]
      exact hn
    · rw [(agentMove_host_busy hhost (hbusy n n.lt_succ_self) (htrace.move n)).2 rest hn]
      exact hn

/-- Once the command is over the block stays as it is until the host's next move. -/
theorem trace_stays {n m : Nat} (hnm : n ≤ m) (hb : (u n).ctrl.busy = false)
    (hhost : ∀ k, n ≤ k → k < m → ¬(σ k).ofHost) :
    u m = u n := by
  induction m, hnm using Nat.le_induction with
  | base => rfl
  | succ m hnm ih =>
    have hm := ih fun k hk hkm => hhost k hk (hkm.trans m.lt_succ_self)
    have hblock := (ofBlock_or_ofHost (htrace.noReset m)).resolve_right (hhost m hnm m.lt_succ_self)
    rw [← hm]
    exact agentMove_block_not_busy hblock (by rw [hm]; exact hb) (htrace.move m)

end Wait

theorem sourceNamed_of_safe {s : State} (h : Safe s) : SourceNamed s := fun hr => by
  have hctrl := h.ctrl
  cases hc : s.ctrl <;> simp only [CtrlOk, hc] at hctrl
  case dispatching => exact sourceOf_of_checks hctrl.1
  case collecting => exact sourceOf_of_checks hctrl.1.1
  case composing => exact sourceOf_of_checks hctrl.1.1
  all_goals rw [hc] at hr; cases hr

/-- A trace of a schedule that is fair to the block. -/
theorem exists_fairTrace {σ : Nat → Move} {s : State} (h : FairToBlock σ s) :
    ∃ u : Nat → State, u 0 = { s with moves := [] } ∧ (∀ n, runUnder σ s n = .next (u n)) ∧ Trace σ u ∧
      FairTrace σ u := by
  obtain ⟨hreset, hfair⟩ := h
  obtain ⟨u, h0, hrun, hmove⟩ := exists_trace σ s
  exact ⟨u, h0, hrun, ⟨hmove, hreset⟩, fun n a ha he => hfair n (u n) a (hrun n) ha he⟩

/-- A WAIT ends: the command that is in progress ends, the block then stays as it is, and the host's next move is the last read
of STATUS. -/
theorem trace_wait_ends {σ : Nat → Move} {u : Nat → State} (htrace : Trace σ u) (hfair : FairTrace σ u)
    (hhost : ∀ n, (u n).ops ≠ [] → ∃ m, n ≤ m ∧ (σ m).ofHost) (hsource : SourceNamed (u 0)) {rest : List HostOp}
    (h0 : (u 0).ops = .wait :: rest) : ∃ n, (u n).ops = rest ∧ (u n).ctrl.busy = false := by
  classical
  obtain ⟨n, hn, hbefore⟩ := Nat.findX (trace_ends htrace hfair hsource)
  have hops : (u n).ops = .wait :: rest := trace_waits htrace h0 fun m hm => by simpa using hbefore m hm
  obtain ⟨m, ⟨hnm, hm⟩, hbetween⟩ := Nat.findX (hhost n (by rw [hops]; exact List.cons_ne_nil _ _))
  have hstays : u m = u n := trace_stays htrace hnm hn fun k hk hkm hhostk => hbetween k hkm ⟨hk, hhostk⟩
  rw [← hstays] at hops hn
  exact ⟨m + 1, agentMove_wait_not_busy hm hops hn (htrace.move m)⟩

/-- Settles O42: each fair schedule's states end the command by its work that is left, and then the WAIT. -/
theorem acceptedCommandsFinish : Obligations.AcceptedCommandsFinish := by
  refine ⟨fun i s hidle => ⟨fun σ hfair => ?_, ?_⟩, fun s σ rest hsafe ho hfair hhost => ?_⟩
  · obtain ⟨u, h0, hrun, htrace, hfair⟩ := exists_fairTrace hfair
    obtain ⟨n, hn⟩ := trace_ends htrace hfair (h0 ▸ sourceNamed_begin hidle i)
    exact ⟨n, u n, hrun n, hn⟩
  · obtain ⟨n, t, hn, hrun, ht⟩ :=
      run_default_ends (s := { beginCommand i s with moves := [] }) rfl (sourceNamed_begin hidle i)
    exact ⟨n, t, hn.trans (work_begin_le hidle i), hrun, ht⟩
  · obtain ⟨u, h0, hrun, htrace, hfair⟩ := exists_fairTrace hfair
    have hnamed : SourceNamed s := sourceNamed_of_safe hsafe
    have hsource : SourceNamed (u 0) := by
      rw [h0]
      exact hnamed
    have hwait : (u 0).ops = .wait :: rest := by rw [h0, ho]
    obtain ⟨n, hops, hn⟩ := trace_wait_ends htrace hfair (fun n hops => hhost n (u n) (hrun n) hops) hsource hwait
    exact ⟨n, u n, hrun n, hops, hn⟩

end Sys2Proof.Machine
end

section
/-! PROOFS. The errors (60 R380 to R389): which error a command or a word raises, which steps enter HALTED and with what, and that
no step leaves it but a reset. -/

namespace Sys2Proof.Machine

/-! ## Errors of acceptance (60 R381 to R383) -/

theorem renderRun_config {s : State} {off : Word} (h : firstFailing (renderAllChecks s.regs) = some off) :
    renderRun s = raiseError .config off 0 s := renderRun_rejected (renderBegin_config h)

/-- Settles O10: the table is the list of each command's checks, and a command whose checks fail is over with its acceptance. -/
theorem configErrorAtFirstFailingCheck : Obligations.ConfigErrorAtFirstFailingCheck := fun s off hidle => by
  simp only [← preintChecks_eq_configError, ← renderAllChecks_eq_configError, ← advanceChecks_eq_configError,
    exec_accepted hidle]
  exact ⟨fun h => congrArg _ (preintRun_config h), fun h => congrArg _ (renderRun_config h),
    fun h => congrArg _ (advanceRun_config h)⟩

/-- Settles O13: FM is source 4, and after the checks comes the sequence check. -/
theorem renderSequenceError : Obligations.RenderSequenceError := fun s hidle hpass hsrc hv => by
  rw [← renderAllChecks_eq_configError] at hpass
  have hbegin : renderBegin s = raiseError .seq (encode .render) 0 s :=
    renderBegin_seq hpass ((sourceOf_eq_fm_iff _).2 hsrc) hv
  rw [exec_accepted hidle]
  exact congrArg _ (renderRun_rejected hbegin)

/-- A word with a nonzero RSVD or an opcode from 4 up is no command, whichever of the two it is. -/
theorem exists_decode_error {w : Word} (h : w.toNat / 2 ^ 8 ≠ 0 ∨ 4 ≤ w.toNat % 2 ^ 8) : ∃ e, decode w = .error e := by
  by_cases hrsvd : w.toNat / 2 ^ 8 = 0
  · exact ⟨_, (decode_eq_reservedOpcode_iff w).2 ⟨hrsvd, h.resolve_left (not_not.2 hrsvd)⟩⟩
  · exact ⟨_, (decode_eq_reservedBits_iff w).2 hrsvd⟩

/-- A word that is no command raises the command error when it is accepted. -/
theorem commandWrite_illegal {s : State} (hc : s.ctrl = .idle) {w : Word} {e : DecodeError} (hd : decode w = .error e)
    (whole : Bool) : commandWrite whole w s = .next (raiseError .cmd w 0 s) := by
  simp only [commandWrite, hd, illegalCommand, accept_idle hc]

/-- Settles O5: in IDLE the word is accepted and fails to decode, and in every other state it is dropped like every word. -/
theorem illegalWordIsACommandError : Obligations.IllegalWordIsACommandError := fun s w rest ms ho hw hturn => by
  refine ⟨fun hidle => ?_, fun hc => commandDroppedUnlessIdle.2 s w rest ms hc ho hturn⟩
  obtain ⟨e, hd⟩ := exists_decode_error hw
  obtain ⟨whole, hstep⟩ := step_of_hostToMove hturn
  rw [hstep, hostStep_command (s := { s with moves := ms }) ho, commandWrite_illegal (by exact hidle) hd]
  rfl

/-! ## Every step has an outcome (60 R389) -/

/-- Settles O4: a step is a move, which answers a next state whoever makes it, or nothing. -/
theorem everyStepHasANextState : Obligations.EveryStepHasANextState := fun s => by
  have hmove : ∀ m u, ∃ t, agentMove m u = .next t := fun m u => by
    obtain ⟨t, -, ht, -⟩ := agentMove_moves m [] u
    exact ⟨t, ht⟩
  rcases step_cases s with ⟨m, ms, -, he⟩ | ⟨-, m, -, he⟩ | ⟨-, -, he⟩ <;> rw [he]
  · exact hmove m _
  · exact hmove m s
  · exact ⟨s, rfl⟩

/-! ## Entering HALTED (60 R385) -/

theorem errorCode_toNat_mem (e : ErrorCode) : 1 ≤ e.toBits.toNat ∧ e.toBits.toNat ≤ 4 := by
  cases e <;> decide

/-- If `t` is in HALTED, then because an error was raised in `s` and nothing else was done. -/
def HaltsByError (s t : State) : Prop := t.ctrl = .halted → ∃ e i x, t = raiseError e i x s

/-- The error is one of the block's own, and the state is the one that the statements write out (60 R380, R385). -/
theorem HaltsByError.exists_haltedWith {s t : State} (h : HaltsByError s t) (ht : t.ctrl = .halted) :
    ∃ code index sample, 1 ≤ code.toNat ∧ code.toNat ≤ 4 ∧ t = haltedWith s code index sample := by
  obtain ⟨e, i, x, rfl⟩ := h ht
  obtain ⟨hlo, hhi⟩ := errorCode_toNat_mem e
  exact ⟨e.toBits, i, x, hlo, hhi, rfl⟩

theorem haltsByError_raiseError (e : ErrorCode) (i x : Word) (s : State) : HaltsByError s (raiseError e i x s) :=
  fun _ => ⟨e, i, x, rfl⟩

theorem haltsByError_of_not_halted {t : State} (h : t.ctrl ≠ .halted) (s : State) : HaltsByError s t :=
  fun ht => absurd ht h

theorem Progress.not_halted {s t : State} (h : Progress s t) : s.ctrl ≠ .halted := by
  cases h with
  | dispatch hc | worker hc | join hc | compose hc | preint hc | advance hc => simp [hc]

/-- Of the steps of a command only the join and the carry of ADVANCE can fail, and they commit nothing then (45 R327, R333). -/
theorem Progress.haltsByError {s t : State} (h : Progress s t) : HaltsByError s t := by
  cases h with
  | dispatch hc => exact haltsByError_of_not_halted (by simp [dispatchStep, hc]) s
  | worker hc hn hw => exact haltsByError_of_not_halted (by simp) s
  | join hc hr =>
    rcases collectStep_reported hc hr with ⟨t, k, -, he⟩ | ⟨-, he⟩ <;> rw [he]
    · exact haltsByError_raiseError _ _ _ s
    · exact haltsByError_of_not_halted (by simp) s
  | compose hc => exact haltsByError_of_not_halted (by simp [composeStep_idle hc]) s
  | preint hc =>
    simp only [preintStep, hc]
    split <;> exact haltsByError_of_not_halted (by simp) s
  | advance hc =>
    rcases advanceStep_cases hc with ⟨t, k, -, he⟩ | ⟨seed, -, he⟩ <;> rw [he]
    · exact haltsByError_raiseError _ _ _ s
    · exact haltsByError_of_not_halted (by simp) s

/-- A command that is run whole raises an error of its acceptance or of its work, or ends in IDLE. -/
theorem haltsByError_run {s : State} (hidle : s.ctrl = .idle) (i : Instr) : HaltsByError s (commandEffect true i s) := by
  cases i with
  | nop => exact haltsByError_of_not_halted (by simp [commandEffect, hidle]) s
  | preint =>
    simp only [commandEffect]
    cases hf : firstFailing (preintChecks s.regs) with
    | some off =>
      rw [preintRun_config hf]
      exact haltsByError_raiseError _ _ _ s
    | none =>
      obtain ⟨he, -, -⟩ := preintRun_spec hf
      exact haltsByError_of_not_halted (by rw [he]; exact Ctrl.noConfusion) s
  | render =>
    simp only [commandEffect]
    by_cases ha : RenderAccepted s
    · rcases renderRun_spec ha with ⟨-, t, k, -, -, -, he⟩ | ⟨gs, -, he⟩ <;> rw [he]
      · exact haltsByError_raiseError _ _ _ s
      · exact haltsByError_of_not_halted (by simp) s
    · obtain ⟨e, i, he⟩ := renderBegin_rejected ha
      rw [renderRun_rejected he]
      exact haltsByError_raiseError e i 0 s
  | advance =>
    simp only [commandEffect]
    cases hf : firstFailing (advanceChecks s.regs) with
    | some off =>
      rw [advanceRun_config hf]
      exact haltsByError_raiseError _ _ _ s
    | none =>
      rcases advanceRun_spec hf with ⟨t, k, -, he⟩ | ⟨seed, -, he⟩ <;> rw [he]
      · exact haltsByError_raiseError _ _ _ s
      · exact haltsByError_of_not_halted (by simp) s

/-- A command that is only begun is over with what its run leaves, or in its first BUSY state. -/
theorem haltsByError_command {s : State} (hidle : s.ctrl = .idle) (whole : Bool) (i : Instr) :
    HaltsByError s (commandEffect whole i s) := by
  cases whole with
  | true => exact haltsByError_run hidle i
  | false =>
    rw [← beginCommand_accepted hidle]
    rcases beginCommand_outcome hidle i with ⟨-, he⟩ | ⟨-, he⟩ | ⟨-, -, he⟩ | ⟨-, he⟩ <;> rw [he]
    · exact haltsByError_run hidle i
    all_goals exact haltsByError_of_not_halted (by simp) s

/-! ## What a step does to the controller state (10 R32) -/

theorem busRead_ctrl (a : Word) (s : State) : (busRead a s).2.ctrl = s.ctrl := by
  rw [busRead_host, setHost_ctrl]

theorem busWrite_ctrl (a v : Word) (s : State) : (busWrite a v s).2.ctrl = s.ctrl := by
  rcases busWrite_cases a v s with he | ⟨r, -, he⟩ | ⟨o, -, he⟩ <;> rw [he]
  · rcases writeReg_cases r v s with ⟨-, -, he⟩ | ⟨-, -, he⟩ | ⟨-, he⟩ | ⟨-, he⟩ <;> rw [he] <;> rfl
  · rcases writeSram_cases o v s with ⟨-, he⟩ | ⟨-, he⟩ <;> rw [he] <;> rfl

/-- A move of the block takes its command a step further or leaves the controller state as it is. -/
theorem agentMove_block_ctrl {m : Move} (hm : m.ofBlock) {s t : State} (h : agentMove m s = .next t) :
    t.ctrl = s.ctrl ∨ Progress s t := by
  rcases agentMove_block hm h with ⟨-, hp⟩ | ⟨-, rfl⟩
  · exact .inr hp
  · exact .inl rfl

/-- A step leaves the controller state as it is, takes the command in progress further, or runs or begins a new one from IDLE. -/
theorem stepEffect_ctrl {s t : State} (h : StepEffect s t) :
    t.ctrl = s.ctrl ∨ Progress s t ∨
      (s.ctrl = .idle ∧ ∃ rest, HaltsByError (answer .ok { s with ops := rest }) t) := by
  cases h with
  | nothing | wait rest ho | stop rest ho | dropped w rest ho hc => exact .inl rfl
  | controller => exact (agentMove_block_ctrl (m := .controller) (.inl rfl) rfl).imp_right .inl
  | worker n => exact (agentMove_block_ctrl (m := .worker n) (.inr ⟨n, rfl⟩) rfl).imp_right .inl
  | read a rest ho => exact .inl (busRead_ctrl a { s with ops := rest })
  | write a v rest ho ha => exact .inl (busWrite_ctrl a v { s with ops := rest })
  | illegal w e rest ho hc hd => exact .inr (.inr ⟨hc, rest, haltsByError_raiseError _ _ _ _⟩)
  | command whole i rest ho hc => exact .inr (.inr ⟨hc, rest, haltsByError_command (by exact hc) whole i⟩)

/-- Settles O35: from HALTED no command goes on and none is accepted, and the error registers are written only on entry. -/
theorem onlyResetLeavesHalted : Obligations.OnlyResetLeavesHalted := fun s t hs h => by
  rcases step_effect h with ⟨ms, hm, -⟩ | ⟨ms, he⟩
  · exact .inr ⟨ms, hm⟩
  have hctrl : t.ctrl = .halted := by
    rcases stepEffect_ctrl he with hsame | hp | ⟨hidle, -⟩
    · exact hsame.trans hs
    · exact absurd hs hp.not_halted
    · cases hs.symm.trans hidle
  rcases (errorRegistersWrittenOnlyOnEntry s t h).2 with hkept | ⟨hentry, -⟩ | ⟨hreset, -⟩
  · exact .inl ⟨hctrl, hkept⟩
  · exact absurd hs hentry
  · exact .inr hreset

/-- Settles O36: what takes the block to HALTED raises an error, beside which only the host's queue, its answers and the schedule
have moved on. -/
theorem nothingCommittedOnError : Obligations.NothingCommittedOnError := fun s t hs h ht => by
  rcases step_effect h with ⟨ms, -, rfl⟩ | ⟨ms, he⟩
  · cases ht
  rcases stepEffect_ctrl he with hsame | hp | ⟨-, rest, hcommand⟩
  · exact absurd (hsame.symm.trans ht) hs
  · obtain ⟨code, i, x, hlo, hhi, rfl⟩ := hp.haltsByError.exists_haltedWith ht
    exact ⟨code, i, x, hlo, hhi, rfl⟩
  · obtain ⟨code, i, x, hlo, hhi, rfl⟩ := hcommand.exists_haltedWith ht
    exact ⟨code, i, x, hlo, hhi, rfl⟩

end Sys2Proof.Machine
end

section
/-! PROOFS. Reset (70 R420 to R422): what it leaves, what the registers then read, and that the block waits in IDLE. -/

namespace Sys2Proof.Machine

/-! ## What the registers read after reset (70 R420) -/

/-- Only the CFG registers hold anything: the computed registers are 0 when the fields behind them are. -/
theorem readReg_reset_zero {r : Reg} (hr : r ∉ [.cfgTableDepth, .cfgMaxPixels, .cfgMaxLanes]) :
    readReg r State.reset = 0 := by
  cases r with
  | cfgTableDepth | cfgMaxPixels | cfgMaxLanes => exact absurd (by decide) hr
  | _ => rfl

/-- A reset leaves in every other register what the first one left there, and keeps the CFG registers. -/
theorem readReg_resetBlock (r : Reg) (s : State) :
    readReg r (resetBlock s) =
      if r ∈ [.cfgTableDepth, .cfgMaxPixels, .cfgMaxLanes] then readReg r s else readReg r State.reset := by
  cases r <;> rfl

/-- No register shows the schedule. -/
theorem readReg_moves (r : Reg) (ms : List Move) (s : State) : readReg r { s with moves := ms } = readReg r s := by
  cases r <;> rfl

/-! ## The memories after reset (70 R421) -/

/-- No byte has been written since, so each is the new draw. -/
theorem byte_resetBlock (s : State) (x : Nat) : (resetBlock s).byte x = Config.ramAtReset (s.resets + 1) x := rfl

/-! ## The step of a reset, and the wait after it (70 R420, R422) -/

theorem step_reset {s : State} {ms : List Move} (hm : s.moves = .reset :: ms) :
    step s = .next (resetBlock { s with moves := ms }) := by
  have hs : { s with moves := .reset :: ms } = s := by rw [← hm]
  calc step s = step { s with moves := .reset :: ms } := by rw [hs]
    _ = agentMove .reset { s with moves := ms } := step_move .reset ms s
    _ = .next (resetBlock { s with moves := ms }) := rfl

/-- With no command in progress, no move laid down and nothing for the host to do, nothing happens. -/
theorem step_of_nothing_to_do {s : State} (hm : s.moves = []) (hb : s.ctrl.busy = false) (ho : s.ops = []) :
    step s = .next s := by
  obtain ⟨whole, hstep⟩ := step_of_hostToMove (.inr (.inr ⟨hm, rfl, hb⟩))
  have hs : { s with moves := [] } = s := by rw [← hm]
  rw [hstep, hs]
  simp only [hostStep, ho]

/-- Settles O33: the step is `resetBlock`, which sets each of these. -/
theorem resetClearsTheBlock : Obligations.ResetClearsTheBlock := fun s ms hm => by
  have hread : ∀ r, readReg r (resetBlock { s with moves := ms }) =
      if r ∈ [.cfgTableDepth, .cfgMaxPixels, .cfgMaxLanes] then readReg r s else 0 := fun r => by
    rw [readReg_resetBlock, readReg_moves]
    exact ite_congr rfl (fun _ => rfl) readReg_reset_zero
  exact ⟨resetBlock { s with moves := ms }, step_reset hm, rfl, rfl, rfl, rfl, rfl, hread, rfl,
    byte_resetBlock { s with moves := ms }, rfl, rfl, rfl, rfl⟩

/-- Settles O34: no agent has anything to do after reset, and only the CFG registers hold anything. -/
theorem resetStateWaitsInIdle : Obligations.ResetStateWaitsInIdle :=
  ⟨rfl, step_of_nothing_to_do rfl rfl rfl, fun _ hr => readReg_reset_zero hr, rfl, rfl, rfl⟩

/-! ## The invariant after reset (70 R420) -/

/-- Settles O43: the default sizes fit their windows, the store is empty, the error registers are 0, and there is neither a valid
table nor a command in progress. -/
theorem safeAtReset : Obligations.SafeAtReset where
  params := by decide
  memory := ⟨List.Pairwise.nil, fun _ hc => absurd hc List.not_mem_nil⟩
  errors := ⟨rfl, rfl, rfl⟩
  table := fun hv => absurd hv Bool.false_ne_true
  ctrl := ctrlOk_of_not_busy rfl

end Sys2Proof.Machine
end
